-- ==== Sys2Proof/Config.lean ====
section
/-! DEFINITION. Config: what is fixed for one AESCORE installation and is not state.
The spec leaves one parameter open, the number of instances (rule R6, rule R185, decision D29).
The constant tables of rule R37 are fixed at manufacture too; they stand in Machine/Tables.lean.
No value of this machine is left free by the spec, so Config holds no uninterpreted constant. -/

namespace Sys2Proof

/-- `NCORES`: how many AESCORE instances stand side by side, default 1 (rule R6, decision D29).
No rule depends on it; `Machine.System.reset` takes it. -/
def Config.nCores : Nat := 1

end Sys2Proof
end

