-- ==== Sys2Proof/Word.lean ====
section
/-! DEFINITION. Word: the data types of rules R6 to R10. All quantities are unsigned (rule R7).
Arithmetic on them stands in Machine/Gf.lean and Machine/Operands.lean. -/

namespace Sys2Proof

/-- A byte: an integer 0..255, bit 7 most significant (rule R7). -/
abbrev Byte := BitVec 8

/-- A word: an ordered 4-tuple of bytes, `w[0]` written first (rule R9). It is never a 32-bit number. -/
abbrev Word := Vector Byte 4

/-- A block: 16 bytes, byte 0 first (rule R57). -/
abbrev Block := Vector Byte 16

/-- A 4x4 byte matrix `M[r][c]`, row index first (rule R10). -/
abbrev Mat := Vector (Vector Byte 4) 4

/-- A 16-bit operation word `op[15:8] arg[7:0]` (rule R70). -/
abbrev OpWord := BitVec 16

/-- A 9-bit address of the host register space (rule R50): an address above 0x1FF cannot be formed (rule R59). -/
abbrev Addr := BitVec 9

end Sys2Proof
end

