-- ==== Sys2Proof/Syntax.lean ====
section
/-! DEFINITION. Syntax: the 24 operations of spec/opcode_table.json (rules R71, R72, R73, R76),
one constructor a row. Only `GFMUL` and `RCON` carry an operand in the word (rule R74). -/

namespace Sys2Proof

/-- The operations of AESCORE: four commands (format C), thirteen micro-operations (format U) and
seven function-unit operations (format F). -/
inductive Instr where
  -- format C, issued by the host through `CMD` (rule R71)
  | enc | dec | kexp | kexpi
  -- format U, issued by the sequencer (rule R72)
  | chk | kload | kstep | kinvr | ldst | stst | ark | subb | shrow | mixc | isubb | ishrow | imixc
  -- format F, presented to the function unit (rule R73)
  | xtime
  | gfmul (k : Byte)
  | sbox | isbox
  | rcon (j : Byte)
  | rotw | subw
deriving DecidableEq, Repr

/-- The three formats of rule R70: who may issue the word. -/
inductive Format where
  | command | micro | unit
deriving DecidableEq, Repr

end Sys2Proof
end

