-- ==== Sys2Proof/WellFormed.lean ====
section
/-! DEFINITION. WellFormed: which terms of `Instr` stand for an operation word that has a meaning. -/

namespace Sys2Proof

/-- The constants the GF multiplier supports (rules R6, R74, R92). -/
def supportedMultipliers : List Byte := [1, 2, 3, 9, 11, 13, 14]

/-- A term is well formed when its word has a meaning: every operation, and `RCON j` only for `j` in 0..13
(rules R74, R78; U4: a larger `j` has no meaning and is refused). `GFMUL k` is well formed for every `k`,
because the spec gives an unsupported `k` an effect, the error of rule R95 (assumption 11). -/
def Instr.wellFormed : Instr → Bool
  | .rcon j => j.toNat < 14
  | .enc | .dec | .kexp | .kexpi | .chk | .kload | .kstep | .kinvr | .ldst | .stst | .ark | .subb | .shrow
  | .mixc | .isubb | .ishrow | .imixc | .xtime | .gfmul _ | .sbox | .isbox | .rotw | .subw => true

/-- A term is legal when its operand is one of the legal values of rule R74: well formed, and `GFMUL k` only with
a supported constant. -/
def Instr.legal : Instr → Bool
  | .gfmul k => supportedMultipliers.contains k
  | .rcon j => Instr.wellFormed (.rcon j)
  | .enc | .dec | .kexp | .kexpi | .chk | .kload | .kstep | .kinvr | .ldst | .stst | .ark | .subb | .shrow
  | .mixc | .isubb | .ishrow | .imixc | .xtime | .sbox | .isbox | .rotw | .subw => true

end Sys2Proof
end

