-- ==== Sys2Proof/Decode.lean ====
section
/-! DEFINITION. Decode: operation words to operations and back (rules R70 to R80).
The decoder is the spec's: match `word & mask == pattern` against the opcode table, then check the operand
(rules R76, R74); what no row matches is rejected by name (rule R78, decision D25). -/

namespace Sys2Proof

/-- One row of the opcode table: the mask and the pattern of rule R76, and the operation, which takes the `arg`
field where the row has an immediate. -/
structure OpRow where
  mask : OpWord
  pattern : OpWord
  build : Byte → Instr

/-- A row whose word is fixed whole, `arg` being 0x00 (rule R74). -/
def OpRow.fixed (w : OpWord) (i : Instr) : OpRow := ⟨0xFFFF, w, fun _ => i⟩

/-- Format C words (rule R71). -/
def commandRows : List OpRow :=
  [.fixed 0x0100 .enc, .fixed 0x0200 .dec, .fixed 0x0300 .kexp, .fixed 0x0400 .kexpi]

/-- Format U words (rule R72). -/
def microRows : List OpRow :=
  [.fixed 0x1000 .chk, .fixed 0x2000 .kload, .fixed 0x2100 .kstep, .fixed 0x2200 .kinvr,
   .fixed 0x3000 .ldst, .fixed 0x3100 .stst,
   .fixed 0x4000 .ark, .fixed 0x4100 .subb, .fixed 0x4200 .shrow, .fixed 0x4300 .mixc,
   .fixed 0x5100 .isubb, .fixed 0x5200 .ishrow, .fixed 0x5300 .imixc]

/-- Format F words (rule R73); `GFMUL` and `RCON` have mask 0xFF00 (rule R76). -/
def unitRows : List OpRow :=
  [.fixed 0x6000 .xtime, ⟨0xFF00, 0x6100, .gfmul⟩,
   .fixed 0x7000 .sbox, .fixed 0x7100 .isbox, ⟨0xFF00, 0x7200, .rcon⟩, .fixed 0x7300 .rotw, .fixed 0x7400 .subw]

/-- The opcode table, 24 rows (rule R76). -/
def opcodeTable : List OpRow := commandRows ++ microRows ++ unitRows

/-- The `op` field, bits 15:8 (rule R70). -/
def opField (w : OpWord) : Byte := w.extractLsb' 8 8

/-- The `arg` field, bits 7:0, an unsigned byte (rules R70, R74). -/
def argField (w : OpWord) : Byte := w.extractLsb' 0 8

/-- Why the decoder rejects a word (rule R78). -/
inductive DecodeError where
  /-- the `op` byte is a dot of the opcode map of rule R76 -/
  | unassignedOp (op : Byte)
  /-- an operation without immediate has `arg != 0x00` -/
  | nonzeroArg (op arg : Byte)
  /-- `RCON j` with `j > 13` (U4) -/
  | rconIndex (j : Byte)
  /-- fewer than two bytes are left -/
  | truncated
deriving DecidableEq, Repr

/-- Does the row match the word (rule R76)? -/
def OpRow.hits (r : OpRow) (w : OpWord) : Bool := w &&& r.mask == r.pattern

/-- The row that matches the word, if any. -/
def rowOf (w : OpWord) : Option OpRow := opcodeTable.find? (·.hits w)

/-- Is the `op` byte assigned in the map of rule R76? -/
def opAssigned (op : Byte) : Bool := opcodeTable.any fun r => opField r.pattern == op

/-- The name under which a word that no row matches is rejected. -/
def rejectWord (w : OpWord) : DecodeError :=
  if opAssigned (opField w) then .nonzeroArg (opField w) (argField w) else .unassignedOp (opField w)

/-- The decoder, total on all 65536 words; it is the same in every state (rule R79). -/
def decodeWord (w : OpWord) : Except DecodeError Instr :=
  match rowOf w with
  | none => .error (rejectWord w)
  | some r =>
    let i := r.build (argField w)
    if i.wellFormed then .ok i else .error (.rconIndex (argField w))

/-- The decoder on a sequence of bytes: an operation word is written `op` first, as it is displayed
(rules R70, R71; assumption 4), and the rest of the sequence is handed back. -/
def decodeBytes : List Byte → Except DecodeError (Instr × List Byte)
  | op :: arg :: rest =>
    match decodeWord (op ++ arg) with
    | .ok i => .ok (i, rest)
    | .error e => .error e
  | [] | [_] => .error .truncated

/-- The instruction the decoder reads from the word whose bits are `w`, numbered as the opcode table numbers them
(bit 0 least significant). Every operation is one 16-bit word (rule R70). -/
def decodeTableWord (nbits w : Nat) : Option Instr :=
  if nbits ≤ 16 then (decodeWord (BitVec.ofNat 16 (w % 2 ^ nbits))).toOption else none

/-- Who may issue an operation: format C by the host, U by the sequencer, F presented to the function unit
(rules R71, R72, R73). -/
def Instr.format : Instr → Format
  | .enc | .dec | .kexp | .kexpi => .command
  | .chk | .kload | .kstep | .kinvr | .ldst | .stst | .ark | .subb | .shrow | .mixc | .isubb | .ishrow
  | .imixc => .micro
  | .xtime | .gfmul _ | .sbox | .isbox | .rcon _ | .rotw | .subw => .unit

/-- The command a byte written to `CMD` names: the operation word is `CMD*256` (rule R71). A byte that is a format U
or F code names none (rule R78). -/
def decodeCommand (v : Byte) : Option Instr :=
  match decodeWord (v ++ 0x00#8) with
  | .ok i => if i.format = .command then some i else none
  | .error _ => none

/-! ### The encoder -/

/-- The `op` byte: unit nibble and function nibble, rule R76's map read by row and column. -/
def Instr.opByte : Instr → Byte
  | .enc => 0x01 | .dec => 0x02 | .kexp => 0x03 | .kexpi => 0x04
  | .chk => 0x10
  | .kload => 0x20 | .kstep => 0x21 | .kinvr => 0x22
  | .ldst => 0x30 | .stst => 0x31
  | .ark => 0x40 | .subb => 0x41 | .shrow => 0x42 | .mixc => 0x43
  | .isubb => 0x51 | .ishrow => 0x52 | .imixc => 0x53
  | .xtime => 0x60 | .gfmul _ => 0x61
  | .sbox => 0x70 | .isbox => 0x71 | .rcon _ => 0x72 | .rotw => 0x73 | .subw => 0x74

/-- The `arg` byte: the immediate of `GFMUL` and `RCON`, 0x00 for every other operation (rule R70). -/
def Instr.argByte : Instr → Byte
  | .gfmul k => k
  | .rcon j => j
  | .enc | .dec | .kexp | .kexpi | .chk | .kload | .kstep | .kinvr | .ldst | .stst | .ark | .subb | .shrow
  | .mixc | .isubb | .ishrow | .imixc | .xtime | .sbox | .isbox | .rotw | .subw => 0x00

/-- The operation word `op*256 + arg` (rule R70). -/
def encode (i : Instr) : OpWord := i.opByte ++ i.argByte

/-- The word as the two bytes `decodeBytes` reads. -/
def encodeBytes (i : Instr) : List Byte := [i.opByte, i.argByte]

/-! ### Mnemonic syntax (rule R80) -/

/-- The mnemonic, in capitals. -/
def Instr.mnemonic : Instr → String
  | .enc => "ENC" | .dec => "DEC" | .kexp => "KEXP" | .kexpi => "KEXPI"
  | .chk => "CHK" | .kload => "KLOAD" | .kstep => "KSTEP" | .kinvr => "KINVR"
  | .ldst => "LDST" | .stst => "STST"
  | .ark => "ARK" | .subb => "SUBB" | .shrow => "SHROW" | .mixc => "MIXC"
  | .isubb => "ISUBB" | .ishrow => "ISHROW" | .imixc => "IMIXC"
  | .xtime => "XTIME" | .gfmul _ => "GFMUL"
  | .sbox => "SBOX" | .isbox => "ISBOX" | .rcon _ => "RCON" | .rotw => "ROTW" | .subw => "SUBW"

/-- An operation as it is written: the mnemonic, and for `GFMUL` and `RCON` the immediate in decimal after a space. -/
def Instr.written (i : Instr) : String :=
  match i with
  | .gfmul k => i.mnemonic ++ " " ++ toString k.toNat
  | .rcon j => i.mnemonic ++ " " ++ toString j.toNat
  | .enc | .dec | .kexp | .kexpi | .chk | .kload | .kstep | .kinvr | .ldst | .stst | .ark | .subb | .shrow
  | .mixc | .isubb | .ishrow | .imixc | .xtime | .sbox | .isbox | .rotw | .subw => i.mnemonic

end Sys2Proof
end

