-- ==== Sys2Proof/Machine/State.lean ====
section
/-! DEFINITION. Machine/State: everything the spec gives one AESCORE instance (rule R20), and the model's own plain
data: the turns still to come (the host agent's script and the interleaving, rule R15), the bytes the host has read,
and the function unit's input and output lines (rule R73). Register names are the spec's. -/

namespace Sys2Proof.Machine

/-- The sequencer phase `PH` (rule R33). Codes 12..15 are unused and never reached, so the type has no name for them
(rule R40 item 6, U6). -/
inductive Phase where
  | idle | check | kload | kexp | kinv | load | ark0 | sub | shift | mix | ark | store
deriving DecidableEq, Repr

/-- `STATUS.SCHED`: what `W` holds (rule R31). The value 3 never occurs. -/
inductive Sched where
  | none | forward | inverse
deriving DecidableEq, Repr

/-- `ERR`: the error code of the last command (rules R32, R173). Values 5..255 never occur. -/
inductive ErrCode where
  | none | invalidBlockLength | invalidKeyLength | unsupportedFieldMultiplier | illegalCommand
deriving DecidableEq, Repr

/-- One turn of an agent (rule R15). Host transactions and core steps are each atomic and interleave in any order
(rule R12, decision D21): an interleaving is a list of turns. -/
inductive Turn where
  /-- the host writes one byte (rule R54; `WR addr, v` of rule R81) -/
  | hostWrite (addr : Addr) (v : Byte)
  /-- the host reads one byte (rule R53; `RD addr`) -/
  | hostRead (addr : Addr)
  /-- the host resets the core (rule R190; `RESET`) -/
  | hostReset
  /-- the host polls `STATUS` until `BUSY` is 0 (rule R81; `WAIT`) -/
  | hostWait
  /-- the core takes one step if it has one (rule R159) -/
  | core
  /-- an operation word and its data operand stand on the function unit's inputs (rule R73) -/
  | unit (word : OpWord) (byteIn : Byte) (wordIn : Word)
deriving DecidableEq, Repr

/-- What the function unit drives: the result of the operation on its inputs, or the error the operation raises to the
micro-operation that invoked it (rules R73, R95). A raise drives no byte. -/
inductive UnitOut where
  | nothing
  | byte (b : Byte)
  | word (w : Word)
  | raised (e : ErrCode)
deriving DecidableEq, Repr

/-- The machine. The first eighteen fields are rule R20's list (`STATUS` is its four fields); the rest is the model's
own (assumptions 1, 2, 3). -/
structure State where
  /-- the key bytes (rule R21) -/
  KEYBUF : Vector Byte 32
  /-- the declared key length (rule R22) -/
  KLEN : Byte
  /-- the input block (rule R23) -/
  DIN : Block
  /-- the declared block length (rule R24) -/
  BLEN : Byte
  /-- the output block (rule R25) -/
  DOUT : Block
  /-- the cipher state matrix (rule R26) -/
  S : Mat
  /-- the key schedule (rule R27) -/
  W : Vector Word 60
  /-- number of key words (rule R28) -/
  NK : BitVec 4
  /-- number of rounds (rule R29) -/
  NR : BitVec 4
  /-- `STATUS` bit 0 (rule R31) -/
  BUSY : Bool
  /-- `STATUS` bit 1 (rule R31) -/
  DONE : Bool
  /-- `STATUS` bit 2 (rule R31) -/
  OUT_VALID : Bool
  /-- `STATUS` bits 4:3 (rule R31) -/
  SCHED : Sched
  /-- the error code (rule R32) -/
  ERR : ErrCode
  /-- the sequencer phase (rule R33) -/
  PH : Phase
  /-- the key-expansion word index (rule R34) -/
  KI : BitVec 6
  /-- the round counter (rule R35) -/
  RND : BitVec 4
  /-- the latched command (rule R36) -/
  CMDR : Byte
  /-- function unit, byte input line (rule R73; not a register: assumption 2) -/
  unitByteIn : Byte
  /-- function unit, word input line -/
  unitWordIn : Word
  /-- function unit, output -/
  unitOut : UnitOut
  /-- the turns still to come, next first (assumption 1) -/
  turns : List Turn
  /-- the bytes the host has read, oldest first (assumption 3) -/
  received : List Byte
deriving DecidableEq, Repr

/-- A machine that stops with a fault. No rule of the spec stops the machine: every error of rule R173 is a next
state (rule R176), and 93_implementation_defined.md says that nothing in AESCORE is `stuck`. So the type is empty,
nothing raises a fault, and that is safe (assumption 12). -/
inductive Fault where
deriving DecidableEq, Repr

/-- A step the model refuses. -/
inductive Refusal where
  /-- raised by `exec` alone, for an instruction that has no meaning yet (none is left); safe -/
  | notModelled (mnemonic : String)
  /-- raised by a `unit` turn whose word the decoder rejects or whose word is no format F word (rules R73, R78, U5);
  safe: the spec gives such a word no meaning -/
  | illegalWord (w : OpWord)
  /-- raised by the meaning of `RCON j` for `j > 13`, which no decoded word carries (rules R78, R103, U4); safe -/
  | rconIndexOutOfTable (j : Byte)
  /-- raised by the sequencer and by micro-operations in a register state that rule R40 rules out: `NK`, `NR`, `CMDR`
  outside their listed sets, or an index outside its array (U6, rule R135; assumption 10); safe: no run from reset reaches it -/
  | unreachableState
deriving DecidableEq, Repr

/-- The outcome of a step of this machine. -/
abbrev Out := Host.Outcome State Fault Refusal

/-- A word of four zero bytes. -/
def zeroWord : Word := #v[0, 0, 0, 0]

/-- The machine right after reset (rules R39, R190): every register 0, the core idle, nothing scheduled.
The last five fields are the model's own (assumption 9). -/
def State.reset : State where
  KEYBUF := Vector.replicate 32 0x00
  KLEN := 0x00
  DIN := Vector.replicate 16 0x00
  BLEN := 0x00
  DOUT := Vector.replicate 16 0x00
  S := Vector.replicate 4 (Vector.replicate 4 0x00)
  W := Vector.replicate 60 zeroWord
  NK := 0
  NR := 0
  BUSY := false
  DONE := false
  OUT_VALID := false
  SCHED := .none
  ERR := .none
  PH := .idle
  KI := 0
  RND := 0
  CMDR := 0x00
  unitByteIn := 0x00
  unitWordIn := zeroWord
  unitOut := .nothing
  turns := []
  received := []

end Sys2Proof.Machine
end

