-- ==== Sys2Proof/Machine/Flags.lean ====
section
/-! DEFINITION. Machine/Flags: the status byte, the error codes and the phase codes (rules R31, R32, R33, R173).
AESCORE has no carry, zero, sign or overflow flag (rule R31). -/

namespace Sys2Proof.Machine

/-- The two-bit code of `SCHED` (rule R31). -/
def Sched.code : Sched → BitVec 2
  | .none => 0
  | .forward => 1
  | .inverse => 2

/-- The code in `ERR` (rules R32, R173). -/
def ErrCode.code : ErrCode → Byte
  | .none => 0
  | .invalidBlockLength => 1
  | .invalidKeyLength => 2
  | .unsupportedFieldMultiplier => 3
  | .illegalCommand => 4

/-- The code in `PH` (rule R33). -/
def Phase.code : Phase → BitVec 4
  | .idle => 0
  | .check => 1
  | .kload => 2
  | .kexp => 3
  | .kinv => 4
  | .load => 5
  | .ark0 => 6
  | .sub => 7
  | .shift => 8
  | .mix => 9
  | .ark => 10
  | .store => 11

/-- The status byte: `BUSY` bit 0, `DONE` bit 1, `OUT_VALID` bit 2, `SCHED` bits 4:3, bits 7:5 read as 0 (rule R31). -/
def State.statusByte (s : State) : Byte :=
  (0 : BitVec 3) ++ s.SCHED.code ++ BitVec.ofBool s.OUT_VALID ++ BitVec.ofBool s.DONE ++ BitVec.ofBool s.BUSY

/-- `enc` of rule R159: the command in execution is `ENC`. -/
def State.isEnc (s : State) : Bool := s.CMDR == 0x01

/-- `final` of rule R159: the round in progress is the last one. -/
def State.isFinal (s : State) : Bool := if s.isEnc then s.RND == s.NR else s.RND == 0

/-- Is the byte one of the four command codes (rules R30, R154)? -/
def commandLegal (v : Byte) : Bool := v == 0x01 || v == 0x02 || v == 0x03 || v == 0x04

/-- Does the command take a block (rule R116)? -/
def commandUsesBlock (v : Byte) : Bool := v == 0x01 || v == 0x02

end Sys2Proof.Machine
end

