-- ==== Sys2Proof/Machine/Gf.lean ====
section
/-! DEFINITION. Machine/Gf: arithmetic in GF(2^8) (40_gf_arithmetic.md) and the matrix product of rule R143.
Addition in the field is the exclusive OR of two bytes (rule R90). -/

namespace Sys2Proof.Machine

/-- `Xtime(b)`: multiplication by the field element 2; the bit shifted out is folded back as 0x1B (rule R91). -/
def xtime (b : Byte) : Byte :=
  let t := b <<< 1
  if b.getLsbD 7 then t ^^^ 0x1B else t

/-- `Xtime^n(b)`, with `Xtime^0(b) = b` (rule R92). -/
def xtimeN : Nat → Byte → Byte
  | 0, b => b
  | n + 1, b => xtime (xtimeN n b)

/-- The term of bit `n` in a double-and-add product: `Xtime^n(b)` where `k[n]` is 1 (rules R92, R101). -/
def gfTerm (b k : Byte) (n : Nat) : Byte := if k.getLsbD n then xtimeN n b else 0x00

/-- The general field product `a*c` (rule R101). It checks tables and is no operation of the hardware. -/
def gfProduct (a c : Byte) : Byte := (List.range 8).foldl (fun r n => r ^^^ gfTerm a c n) 0x00

/-- `Mul(b, k)`: the product by a supported constant, from the bits 0..3 of `k`; any other constant has no result
(rules R92, R95; the caller raises `UnsupportedFieldMultiplier`). -/
def mul (b k : Byte) : Option Byte :=
  if supportedMultipliers.contains k then
    some ((List.range 4).foldl (fun r n => r ^^^ gfTerm b k n) 0x00)
  else none

/-- The exclusive OR of two words, byte by byte (rule R8). -/
def xorWord (a b : Word) : Word := Vector.ofFn fun i : Fin 4 => a[i] ^^^ b[i]

/-- One output byte of the matrix product: the XOR of four field products (rule R143). -/
def mixByte (v : Word) (row : Vector Byte 4) : Option Byte := do
  let p0 ← mul v[0] row[0]
  let p1 ← mul v[1] row[1]
  let p2 ← mul v[2] row[2]
  let p3 ← mul v[3] row[3]
  return p0 ^^^ p1 ^^^ p2 ^^^ p3

/-- `MixColumn(v, M)`: the matrix-vector product; no result if an entry of `M` is unsupported (rule R143). -/
def mixColumn (v : Word) (m : Mat) : Option Word := do
  let o0 ← mixByte v m[0]
  let o1 ← mixByte v m[1]
  let o2 ← mixByte v m[2]
  let o3 ← mixByte v m[3]
  return #v[o0, o1, o2, o3]

/-! ### The construction of the S-box (rule R101), a check on the table -/

/-- `v ^ rotl8(v,1) ^ rotl8(v,2) ^ rotl8(v,3) ^ rotl8(v,4) ^ 0x63` (rule R101). -/
def sboxAffine (v : Byte) : Byte :=
  v ^^^ v.rotateLeft 1 ^^^ v.rotateLeft 2 ^^^ v.rotateLeft 3 ^^^ v.rotateLeft 4 ^^^ 0x63

end Sys2Proof.Machine
end

