-- ==== Sys2Proof/Machine/Operands.lean ====
section
/-! DEFINITION. Machine/Operands: every operand form: key length to `NK` and `NR`, key words, the state codec, round
keys, the word functions of the key schedule, and the matrix transforms as functions (rules R75, R96, R115, R130 to
R134, R139 to R146). -/

namespace Sys2Proof.Machine

/-! ### Key length (rules R75, R115) -/

/-- `NrOf`: the number of rounds for a key length in bytes, defined on 16, 24 and 32 only (rule R115). -/
def nrOf (n : Nat) : Option Nat :=
  if n = 16 then some 10 else if n = 24 then some 12 else if n = 32 then some 14 else none

/-- `Nk = len div 4` (rules R75, R96). -/
def nkOf (n : Nat) : Nat := n / 4

/-- Number of schedule words, `4*(Nr+1)` (rule R115). -/
def scheduleWords (nr : Nat) : Nat := 4 * (nr + 1)

/-- Is the length one of the three legal key lengths (rules R6, R22)? -/
def keyLengthLegal (n : Byte) : Bool := n == 16 || n == 24 || n == 32

/-- Are `NK` and `NR` a pair that `KLOAD` leaves (rules R28, R29, R115)? -/
def loadedPair (nk nr : BitVec 4) : Bool :=
  (nk == 4 && nr == 10) || (nk == 6 && nr == 12) || (nk == 8 && nr == 14)

/-! ### Words -/

/-- Word `j` of the key: four consecutive key bytes, the lowest-indexed byte first (rules R58, R117). -/
def keyWord (k : Vector Byte 32) (j : Nat) (h : j < 8) : Word :=
  #v[k[4 * j], k[4 * j + 1], k[4 * j + 2], k[4 * j + 3]]

/-- `RotWord`: one byte toward index 0, the byte at index 0 moving to index 3 (rule R104). -/
def rotWord (w : Word) : Word := #v[w[1], w[2], w[3], w[0]]

/-- `SubWord`: the forward S-box on each byte (rule R105). -/
def subWord (w : Word) : Word := #v[sbox w[0], sbox w[1], sbox w[2], sbox w[3]]

/-- `RconWord(j) = (RCON[j], 0x00, 0x00, 0x00)` (rule R103). -/
def rconWord (j : Nat) : Option Word := (rcon j).map fun c => #v[c, 0x00, 0x00, 0x00]

/-- `tmp` of the expansion step for index `i`, from `W[i-1]`: rotate, substitute, add the constant where `NK` divides
`i`; substitute where `NK > 6` and `i mod NK == 4` (rule R118). -/
def expandTemp (nk i : Nat) (prev : Word) : Option Word :=
  if i % nk = 0 then (rconWord (i / nk - 1)).map fun c => xorWord (subWord (rotWord prev)) c
  else if nk > 6 ∧ i % nk = 4 then some (subWord prev)
  else some prev

/-! ### Matrices and blocks -/

/-- The matrix with `M[r][c] = f r c` (rule R10). -/
def matOf (f : Fin 4 → Fin 4 → Byte) : Mat := Vector.ofFn fun r => Vector.ofFn fun c => f r c

/-- Column `c` of a matrix as a 4-vector (rule R10). -/
def column (m : Mat) (c : Fin 4) : Word := #v[m[0][c], m[1][c], m[2][c], m[3][c]]

/-- The matrix whose columns are the four words. -/
def ofColumns (c0 c1 c2 c3 : Word) : Mat :=
  #v[#v[c0[0], c1[0], c2[0], c3[0]], #v[c0[1], c1[1], c2[1], c3[1]],
     #v[c0[2], c1[2], c2[2], c3[2]], #v[c0[3], c1[3], c2[3], c3[3]]]

/-- `BlockToMatrix(blk)`: column-major, `M[r][c] = blk[r + 4*c]` (rule R130). -/
def blockToMatrix (b : Block) : Mat := matOf fun r c => b[r.val + 4 * c.val]

/-- `MatrixToBlock(M)`: `blk[i] = M[i mod 4][i div 4]` (rule R132). -/
def matrixToBlock (m : Mat) : Block := Vector.ofFn fun i : Fin 16 => m[i.val % 4][i.val / 4]

/-- The exclusive OR of two matrices, byte by byte (rule R8). -/
def xorMat (a b : Mat) : Mat := matOf fun r c => a[r][c] ^^^ b[r][c]

/-- `RK(r)`: word `4r+c` of the schedule is column `c` of the round-key matrix (rule R134). -/
def roundKey (w : Vector Word 60) (r : Nat) (h : r < 15) : Mat :=
  matOf fun row c => w[4 * r + c.val][row]

/-! ### The round transforms as functions on matrices (rule R161) -/

/-- `SubBytes` (rule R139). -/
def subBytes (m : Mat) : Mat := matOf fun r c => sbox m[r][c]

/-- `InvSubBytes` (rule R140). -/
def invSubBytes (m : Mat) : Mat := matOf fun r c => isbox m[r][c]

/-- `ShiftRows`: row `r` rotated left by `r` (rule R141). -/
def shiftRows (m : Mat) : Mat := matOf fun r c => m[r][(c.val + r.val) % 4]

/-- `InvShiftRows`: row `r` rotated right by `r`; `(c - r) mod 4` is the value in 0..3 congruent to it
(rules R142, R96). -/
def invShiftRows (m : Mat) : Mat := matOf fun r c => m[r][(c.val + 4 - r.val) % 4]

/-- `MixColumns(state, mixMatrix)`: every column is replaced by its product with the matrix; no result if the matrix
holds an unsupported constant (rules R143 to R145). -/
def mixColumns (s m : Mat) : Option Mat := do
  let c0 ← mixColumn (column s 0) m
  let c1 ← mixColumn (column s 1) m
  let c2 ← mixColumn (column s 2) m
  let c3 ← mixColumn (column s 3) m
  return ofColumns c0 c1 c2 c3

end Sys2Proof.Machine
end

