-- ==== Sys2Proof/Machine/Ops.lean ====
section
/-! DEFINITION. Machine/Ops: the shared operations over registers and over the host register space: error entry and
its clearing, command acceptance, completion, host read, host write, reset. -/

namespace Sys2Proof.Machine

/-! ### Errors (60_exceptions.md) -/

/-- Taking an error, `raise E`: nothing is saved, there is no vector; `ERR` and `DONE` are set, the other result
registers are cleared and the core is idle. No other register is written (rules R176, R181). -/
def errorEntry (e : ErrCode) (s : State) : State :=
  { s with ERR := e, DONE := true, BUSY := false, OUT_VALID := false, SCHED := .none, NK := 0, NR := 0, PH := .idle }

/-- What leaves the error state: the clearing with which every command acceptance begins (rules R154, R182). There is
no return operation. -/
def clearResults (s : State) : State :=
  { s with DONE := false, ERR := .none, OUT_VALID := false, SCHED := .none, NK := 0, NR := 0 }

/-! ### Commands (45_cipher_drivers.md) -/

/-- Command acceptance of byte `v` while `BUSY = 0` (rules R154, R178). -/
def accept (v : Byte) (s : State) : State :=
  if commandLegal v then { clearResults s with CMDR := v, BUSY := true, PH := .check }
  else errorEntry .illegalCommand (clearResults s)

/-- A write of `v` to `CMD`: acceptance, or no effect while `BUSY = 1` (rules R30, R196). -/
def writeCmd (v : Byte) (s : State) : State := if s.BUSY then s else accept v s

/-- `finish(out, sched)`: successful completion (rule R160). -/
def finish (out : Bool) (sched : Sched) (s : State) : State :=
  { s with OUT_VALID := out, SCHED := sched, BUSY := false, DONE := true, PH := .idle }

/-! ### The host register space (20_memory.md): a view of the registers, no memory of its own (assumption 7) -/

/-- `MemRead(addr, 1)`: one byte, no side effect; `DOUT` and the `W` window are gated, everything unlisted reads 0x00
(rules R51, R53, R55, R56, R59). -/
def memRead (a : Addr) (s : State) : Byte :=
  let n := a.toNat
  if n = 0x001 then s.statusByte
  else if n = 0x002 then s.ERR.code
  else if n = 0x003 then s.KLEN
  else if n = 0x004 then s.BLEN
  else if n = 0x005 then s.NK.setWidth 8
  else if n = 0x006 then s.NR.setWidth 8
  else if h : 0x010 ≤ n ∧ n ≤ 0x01F then s.DIN[n - 0x010]
  else if h : 0x020 ≤ n ∧ n ≤ 0x02F then (if s.OUT_VALID then s.DOUT[n - 0x020] else 0x00)
  else if h : 0x040 ≤ n ∧ n ≤ 0x05F then s.KEYBUF[n - 0x040]
  else if h : 0x100 ≤ n ∧ n ≤ 0x1EF then
    (if s.SCHED ≠ .none then s.W[(n - 0x100) / 4][(n - 0x100) % 4] else 0x00)
  else 0x00

/-- `MemWrite(addr, 1, v)`: dropped while `BUSY = 1`; the only write with a side effect is the one to `CMD`; a write
to a read-only or reserved location is ignored (rules R51, R54, R59, R196). -/
def memWrite (a : Addr) (v : Byte) (s : State) : State :=
  let n := a.toNat
  if s.BUSY then s
  else if n = 0x000 then accept v s
  else if n = 0x003 then { s with KLEN := v }
  else if n = 0x004 then { s with BLEN := v }
  else if h : 0x010 ≤ n ∧ n ≤ 0x01F then { s with DIN := s.DIN.set (n - 0x010) v }
  else if h : 0x040 ≤ n ∧ n ≤ 0x05F then { s with KEYBUF := s.KEYBUF.set (n - 0x040) v }
  else s

/-- Reset (rule R190): every state element takes the value of rule R39, in any state. The host's turns, what the host
has read and the function unit's lines are no state elements of AESCORE and stay (assumptions 1, 2, 3). -/
def resetRegs (s : State) : State :=
  { State.reset with
    unitByteIn := s.unitByteIn, unitWordIn := s.unitWordIn, unitOut := s.unitOut, turns := s.turns,
    received := s.received }

/-- The host receives a byte it has read (assumption 3). -/
def receive (b : Byte) (s : State) : State := { s with received := s.received ++ [b] }

end Sys2Proof.Machine
end

