-- ==== Sys2Proof/Machine/Codec.lean ====
section
/-! DEFINITION. Machine/Codec: the micro-operations `LDST` and `STST` (43_state_codec.md). -/

namespace Sys2Proof.Machine

/-- `LDST`: the input block into the state, column-major (rule R131). -/
def execLdst (s : State) : Out := .next { s with S := blockToMatrix s.DIN }

/-- `STST`: the state into the output block (rule R133); the completion that follows in the same step is the
sequencer's. -/
def execStst (s : State) : Out := .next { s with DOUT := matrixToBlock s.S }

end Sys2Proof.Machine
end

