-- ==== Sys2Proof/Machine/Commands.lean ====
section
/-! DEFINITION. Machine/Commands: the four commands (rules R153 to R158). Issuing a command is a write of its op byte to
`CMD` (rule R71): acceptance starts the sequence of micro-operations, which the core then runs step by step
(rule R159). A command issued while `BUSY = 1` is dropped (rule R196; assumption 14). -/

namespace Sys2Proof.Machine

/-- `ENC`, `encryptBlock` (rule R155). -/
def execEnc (s : State) : Out := .next (writeCmd 0x01 s)

/-- `DEC`, `decryptBlock` (rule R156). -/
def execDec (s : State) : Out := .next (writeCmd 0x02 s)

/-- `KEXP`, `expand_key` (rule R157). -/
def execKexp (s : State) : Out := .next (writeCmd 0x03 s)

/-- `KEXPI`, the equivalent inverse schedule (rule R158). -/
def execKexpi (s : State) : Out := .next (writeCmd 0x04 s)

end Sys2Proof.Machine
end

