-- ==== Sys2Proof/Machine/FunctionUnit.lean ====
section
/-! DEFINITION. Machine/FunctionUnit: the seven function-unit operations (rule R73). Each is combinational: it reads the
data operand on the unit's input line and drives its result; no register changes (assumption 2). An operation that raises
drives the raise: it ends the micro-operation that invoked it, by the error entry of rule R176, which stands in
`mixState` and `convertState`, the users of the matrix product (rule R177). Standing alone it ends nothing. The micro-operations use the same functions inside their own step. -/

namespace Sys2Proof.Machine

/-- `XTIME` (rule R91). -/
def execXtime (s : State) : Out := .next { s with unitOut := .byte (xtime s.unitByteIn) }

/-- `GFMUL k`: the field product; an unsupported constant has no result and raises (rules R92, R95). -/
def execGfmul (k : Byte) (s : State) : Out :=
  match mul s.unitByteIn k with
  | some b => .next { s with unitOut := .byte b }
  | none => .next { s with unitOut := .raised .unsupportedFieldMultiplier }

/-- `SBOX` (rule R100). -/
def execSbox (s : State) : Out := .next { s with unitOut := .byte (sbox s.unitByteIn) }

/-- `ISBOX` (rule R102). -/
def execIsbox (s : State) : Out := .next { s with unitOut := .byte (isbox s.unitByteIn) }

/-- `RCON j` (rule R103): no data operand. For `j > 13` the spec gives no meaning and asks for a refusal
(rule R78, U4); no decoded word carries such a `j`. -/
def execRcon (j : Byte) (s : State) : Out :=
  match rcon j.toNat with
  | some b => .next { s with unitOut := .byte b }
  | none => .refused (.rconIndexOutOfTable j)

/-- `ROTW` (rule R104). -/
def execRotw (s : State) : Out := .next { s with unitOut := .word (rotWord s.unitWordIn) }

/-- `SUBW` (rule R105). -/
def execSubw (s : State) : Out := .next { s with unitOut := .word (subWord s.unitWordIn) }

end Sys2Proof.Machine
end

