-- ==== Sys2Proof/Machine/KeySchedule.lean ====
section
/-! DEFINITION. Machine/KeySchedule: the micro-operations `CHK`, `KLOAD`, `KSTEP`, `KINVR` (42_key_schedule.md).
What a micro-operation does to the data stands here; which phase follows is the sequencer's (Machine/Sequencer.lean). -/

namespace Sys2Proof.Machine

/-- The error `CHK` raises, if any: the block test comes first and only `ENC` and `DEC` make it
(rules R116, R174, R175, R180). -/
def checkError (s : State) : Option ErrCode :=
  if commandUsesBlock s.CMDR && s.BLEN != 16 then some .invalidBlockLength
  else if !keyLengthLegal s.KLEN then some .invalidKeyLength
  else none

/-- `CHK` (rule R116): raise, or write nothing. -/
def execChk (s : State) : Out :=
  match checkError s with
  | some e => .next (errorEntry e s)
  | none => .next s

/-- The schedule memory with the first `nk` words taken from the key (rule R117). -/
def loadKey (k : Vector Byte 32) (nk : Nat) (w : Vector Word 60) : Vector Word 60 :=
  Vector.ofFn fun j : Fin 60 => if h : j.val < nk ∧ j.val < 8 then keyWord k j.val h.2 else w[j]

/-- `KLOAD` (rule R117). It is reached only with a legal key length (U1, rule R115). -/
def execKload (s : State) : Out :=
  match nrOf s.KLEN.toNat with
  | none => .refused .unreachableState
  | some nr =>
    let nk := nkOf s.KLEN.toNat
    .next { s with
      NK := BitVec.ofNat 4 nk, NR := BitVec.ofNat 4 nr, W := loadKey s.KEYBUF nk s.W, KI := BitVec.ofNat 6 nk }

/-- The word `KSTEP` computes for index `i = KI`: `W[i-NK] ^ tmp` (rule R118), where the indices are in range as
rules R122 and R135 say they are. -/
def nextWord (s : State) : Option Word :=
  let nk := s.NK.toNat
  let i := s.KI.toNat
  if nk ∈ [4, 6, 8] ∧ nk ≤ i ∧ i < 60 then do
    let prev ← s.W[i - 1]?
    let old ← s.W[i - nk]?
    let tmp ← expandTemp nk i prev
    return xorWord old tmp
  else none

/-- `KSTEP`: one iteration of the key-expansion loop (rule R118). -/
def execKstep (s : State) : Out :=
  match nextWord s with
  | some x => .next { s with W := s.W.setIfInBounds s.KI.toNat x, KI := s.KI + 1 }
  | none => .refused .unreachableState

/-- Round key `r` with the matrix `m` applied to each of its four words (rule R119). -/
def convertRoundKey (w : Vector Word 60) (r : Nat) (h : r < 15) (m : Mat) : Option (Vector Word 60) := do
  let c0 ← mixColumn w[4 * r] m
  let c1 ← mixColumn w[4 * r + 1] m
  let c2 ← mixColumn w[4 * r + 2] m
  let c3 ← mixColumn w[4 * r + 3] m
  return Vector.ofFn fun j : Fin 60 => if j.val / 4 = r then #v[c0, c1, c2, c3][j.val % 4] else w[j]

/-- Round key `RND` multiplied by a given matrix; where the matrix holds an unsupported constant the multiplier raises
and no word of `W` is written (rules R119, R177). -/
def convertState (m : Mat) (s : State) : Out :=
  if h : s.RND.toNat < 15 then
    match convertRoundKey s.W s.RND.toNat h m with
    | some w => .next { s with W := w }
    | none => .next (errorEntry .unsupportedFieldMultiplier s)
  else .refused .unreachableState

/-- `KINVR`: round key `RND` of the forward schedule becomes round key `RND` of the equivalent inverse schedule
(rule R119). -/
def execKinvr (s : State) : Out := convertState invMixMatrix s

end Sys2Proof.Machine
end

