-- ==== Sys2Proof/Machine/RoundTransforms.lean ====
section
/-! DEFINITION. Machine/RoundTransforms: the micro-operations of the cipher pipelines (44_round_transforms.md). Each reads
all of `S` as it is before the step and writes all of it (rules R12, R138). -/

namespace Sys2Proof.Machine

/-- `ARK`: `AddRoundKey` with round key `RND` (rule R146). The index is within the schedule (rules R35, R135). -/
def execArk (s : State) : Out :=
  if h : s.RND.toNat < 15 then .next { s with S := xorMat s.S (roundKey s.W s.RND.toNat h) }
  else .refused .unreachableState

/-- `SUBB`: `SubBytes` (rule R139). -/
def execSubb (s : State) : Out := .next { s with S := subBytes s.S }

/-- `ISUBB`: `InvSubBytes` (rule R140). -/
def execIsubb (s : State) : Out := .next { s with S := invSubBytes s.S }

/-- `SHROW`: `ShiftRows` (rule R141). -/
def execShrow (s : State) : Out := .next { s with S := shiftRows s.S }

/-- `ISHROW`: `InvShiftRows` (rule R142). -/
def execIshrow (s : State) : Out := .next { s with S := invShiftRows s.S }

/-- `MixColumns` with a given matrix on the state; an unsupported constant raises and no byte of `S` is written
(rules R144, R145, R177). -/
def mixState (m : Mat) (s : State) : Out :=
  match mixColumns s.S m with
  | some t => .next { s with S := t }
  | none => .next (errorEntry .unsupportedFieldMultiplier s)

/-- `MIXC`: `MixColumns` with the forward matrix (rule R144). -/
def execMixc (s : State) : Out := mixState mixMatrix s

/-- `IMIXC`: `MixColumns` with the inverse matrix (rule R145). -/
def execImixc (s : State) : Out := mixState invMixMatrix s

end Sys2Proof.Machine
end

