-- ==== Sys2Proof/Machine/Dispatch.lean ====
section
/-! DEFINITION. Machine/Dispatch: one arm per operation. -/

namespace Sys2Proof.Machine

def exec (i : Instr) (s : State) : Host.Outcome State Fault Refusal :=
  match i with
  | .enc => Sys2Proof.Machine.execEnc s
  | .dec => Sys2Proof.Machine.execDec s
  | .kexp => Sys2Proof.Machine.execKexp s
  | .kexpi => Sys2Proof.Machine.execKexpi s
  | .chk => Sys2Proof.Machine.execChk s
  | .kload => Sys2Proof.Machine.execKload s
  | .kstep => Sys2Proof.Machine.execKstep s
  | .kinvr => Sys2Proof.Machine.execKinvr s
  | .ldst => Sys2Proof.Machine.execLdst s
  | .stst => Sys2Proof.Machine.execStst s
  | .ark => Sys2Proof.Machine.execArk s
  | .subb => Sys2Proof.Machine.execSubb s
  | .shrow => Sys2Proof.Machine.execShrow s
  | .mixc => Sys2Proof.Machine.execMixc s
  | .isubb => Sys2Proof.Machine.execIsubb s
  | .ishrow => Sys2Proof.Machine.execIshrow s
  | .imixc => Sys2Proof.Machine.execImixc s
  | .xtime => Sys2Proof.Machine.execXtime s
  | .gfmul k => Sys2Proof.Machine.execGfmul k s
  | .sbox => Sys2Proof.Machine.execSbox s
  | .isbox => Sys2Proof.Machine.execIsbox s
  | .rcon j => Sys2Proof.Machine.execRcon j s
  | .rotw => Sys2Proof.Machine.execRotw s
  | .subw => Sys2Proof.Machine.execSubw s

end Sys2Proof.Machine
end

