-- ==== Sys2Proof/Machine/Sequencer.lean ====
section
/-! DEFINITION. Machine/Sequencer: which operation word the sequencer issues (rule R77), what it does to the sequencing
registers after the micro-operation (rule R159), and the core step made of the two. The transition table is hardwired
(rules R37, R63). -/

namespace Sys2Proof.Machine

/-- `Issue(PH, CMDR)` (rule R77). The idle phase issues nothing; the phases that choose between the pipelines issue only
for `ENC` and `DEC`. -/
def issue (ph : Phase) (cmdr : Byte) : Option OpWord :=
  match ph with
  | .idle => none
  | .check => some 0x1000
  | .kload => some 0x2000
  | .kexp => some 0x2100
  | .kinv => some 0x2200
  | .load => some 0x3000
  | .ark0 => some 0x4000
  | .sub => if cmdr = 0x01 then some 0x4100 else if cmdr = 0x02 then some 0x5100 else none
  | .shift => if cmdr = 0x01 then some 0x4200 else if cmdr = 0x02 then some 0x5200 else none
  | .mix => if cmdr = 0x01 then some 0x4300 else if cmdr = 0x02 then some 0x5300 else none
  | .ark => some 0x4000
  | .store => some 0x3100

/-- The states in which the transition table of rule R159 is read: `CMDR` holds a command that reaches the phase, and
after `KLOAD` the registers `NK`, `NR` hold a pair it leaves. Outside it no behaviour is defined (rule R40, U6). -/
def State.phaseReachable (s : State) : Bool :=
  match s.PH with
  | .idle => false
  | .check | .kload => commandLegal s.CMDR
  | .kexp => commandLegal s.CMDR && loadedPair s.NK s.NR
  | .kinv => (s.CMDR == 0x02 || s.CMDR == 0x04) && loadedPair s.NK s.NR
  | .load | .ark0 | .sub | .shift | .mix | .ark | .store => commandUsesBlock s.CMDR && loadedPair s.NK s.NR

/-- The update of the sequencing registers that ends a step, from the state the micro-operation left: its registers
`KI`, `RND` and its phase, which no micro-operation changes. A micro-operation that raised has left the core idle, and
then the error entry replaces all of this (rules R159, R160, R176). -/
def advance (s : State) : State :=
  match s.PH with
  | .idle => s
  | .check => { s with PH := .kload }
  | .kload => { s with PH := .kexp }
  | .kexp =>
    if s.KI.toNat = scheduleWords s.NR.toNat then
      if s.CMDR = 0x03 then finish false .forward s
      else if s.CMDR = 0x01 then { s with PH := .load }
      else { s with RND := 1, PH := .kinv }
    else s
  | .kinv =>
    if s.RND = s.NR - 1 then
      if s.CMDR = 0x04 then finish false .inverse s else { s with PH := .load }
    else { s with RND := s.RND + 1 }
  | .load => { s with RND := if s.isEnc then 0 else s.NR, PH := .ark0 }
  | .ark0 => { s with RND := if s.isEnc then 1 else s.NR - 1, PH := .sub }
  | .sub => { s with PH := .shift }
  | .shift => { s with PH := if s.isFinal then .ark else .mix }
  | .mix => { s with PH := .ark }
  | .ark =>
    if s.isFinal then { s with PH := .store }
    else { s with RND := if s.isEnc then s.RND + 1 else s.RND - 1, PH := .sub }
  | .store => finish true (if s.isEnc then .forward else .inverse) s

/-- One core step with `BUSY = 1`: the issued word is decoded, its operation executed and the sequencing registers
updated, all in one transition (rules R12, R159). -/
def coreStep (s : State) : Out :=
  if s.phaseReachable then
    match issue s.PH s.CMDR with
    | none => .refused .unreachableState
    | some w =>
      match decodeWord w with
      | .error _ => .refused (.illegalWord w)
      | .ok i =>
        match exec i s with
        | .next t => .next (advance t)
        | .fault f => .fault f
        | .refused r => .refused r
  else .refused .unreachableState

end Sys2Proof.Machine
end

