-- ==== Sys2Proof/Machine/Turns.lean ====
section
/-! DEFINITION. Machine/Turns: the two agents (rule R15). A turn is taken from the list `turns`; when the list is empty
the core steps while `BUSY = 1` (rule R203), and an idle core with nothing scheduled stays as it is. -/

namespace Sys2Proof.Machine

/-- The core's turn: a step exactly when `BUSY = 1` (rules R15, R159; assumption 13). -/
def coreTurn (s : State) : Out := if s.BUSY then coreStep s else .next s

/-- The host's write turn. A write to `CMD` of a byte that names a command issues that command's operation word
(rule R71); every other write is rule R54's. -/
def hostWriteTurn (a : Addr) (v : Byte) (s : State) : Out :=
  if a = 0x000 then
    match decodeCommand v with
    | some i => exec i s
    | none => .next (memWrite a v s)
  else .next (memWrite a v s)

/-- The host's read turn (rule R53). -/
def hostReadTurn (a : Addr) (s : State) : Out := .next (receive (memRead a s) s)

/-- `WAIT`: a read of `STATUS`; while it shows `BUSY = 1` the core takes a turn and the host reads again (rule R81;
assumption 5 fixes one core turn between two reads). -/
def hostWaitTurn (s : State) : Out :=
  let b := memRead 0x001 s
  if b.getLsbD 0 then .next (receive b { s with turns := .core :: .hostWait :: s.turns })
  else .next (receive b s)

/-- The function unit evaluates the operation word on its inputs (rule R73). Only a format F word selects a function. -/
def unitTurn (w : OpWord) (b : Byte) (x : Word) (s : State) : Out :=
  match decodeWord w with
  | .ok i =>
    if i.format = .unit then exec i { s with unitByteIn := b, unitWordIn := x } else .refused (.illegalWord w)
  | .error _ => .refused (.illegalWord w)

/-- One turn, the list of turns already shortened by it. -/
def takeTurn (t : Turn) (s : State) : Out :=
  match t with
  | .hostWrite a v => hostWriteTurn a v s
  | .hostRead a => hostReadTurn a s
  | .hostReset => .next (resetRegs s)
  | .hostWait => hostWaitTurn s
  | .core => coreTurn s
  | .unit w b x => unitTurn w b x s

/-- One step of the whole machine: the next turn, or the core's when none is scheduled. -/
def runTurn (s : State) : Out :=
  match s.turns with
  | t :: rest => takeTurn t { s with turns := rest }
  | [] => coreTurn s

/-! ### Placing an operation word where the next step issues it -/

/-- The phase in which the sequencer issues a micro-operation (rules R33, R77); `none` for the other formats. -/
def homePhase : Instr → Option Phase
  | .chk => some .check
  | .kload => some .kload
  | .kstep => some .kexp
  | .kinvr => some .kinv
  | .ldst => some .load
  | .stst => some .store
  | .ark => some .ark0
  | .subb | .isubb => some .sub
  | .shrow | .ishrow => some .shift
  | .mixc | .imixc => some .mix
  | .enc | .dec | .kexp | .kexpi | .xtime | .gfmul _ | .sbox | .isbox | .rcon _ | .rotw | .subw => none

/-- The commands for which the sequencer issues a micro-operation (rules R77, R159). -/
def homeCommands : Instr → List Byte
  | .chk | .kload | .kstep => [0x01, 0x02, 0x03, 0x04]
  | .kinvr => [0x02, 0x04]
  | .ldst | .stst | .ark => [0x01, 0x02]
  | .subb | .shrow | .mixc => [0x01]
  | .isubb | .ishrow | .imixc => [0x02]
  | .enc | .dec | .kexp | .kexpi | .xtime | .gfmul _ | .sbox | .isbox | .rcon _ | .rotw | .subw => []

/-- The machine brought to where the sequencer issues micro-operation `i` next: the core busy in the phase, under a
command that reaches it, and, where `CHK` or `KLOAD` has run before (rules R117, R159), the legal key length or the
`NK`, `NR`, `KI`, `RND` they leave, those of a 16-byte key if the registers hold none (assumption 6). -/
def placeMicro (i : Instr) (ph : Phase) (s : State) : State :=
  let loaded := loadedPair s.NK s.NR
  let live := ph ≠ .check ∧ ph ≠ .kload ∧ ¬loaded
  let nk := if live then 4 else s.NK
  { s with
    BUSY := true
    PH := ph
    CMDR := if s.CMDR ∈ homeCommands i then s.CMDR else (homeCommands i).headD 0x01
    KLEN := if ph = .kload ∧ ¬keyLengthLegal s.KLEN then 16 else s.KLEN
    NK := nk
    NR := if live then 10 else s.NR
    KI := if ph = .kexp ∧ ¬(nk.toNat ≤ s.KI.toNat ∧ s.KI.toNat < 60) then nk.setWidth 6 else s.KI
    RND := if s.RND = 15 then 0 else s.RND
    turns := .core :: s.turns }

/-- `s` with the operation word placed where the next step issues it: a command as a host write of its op byte to
`CMD`, a micro-operation as the sequencer's next word, any other word on the function unit's inputs. -/
def placeWord (s : State) (w : OpWord) : State :=
  let onUnit := { s with turns := .unit w s.unitByteIn s.unitWordIn :: s.turns }
  match decodeWord w with
  | .error _ => onUnit
  | .ok i =>
    match i.format with
    | .command => { s with turns := .hostWrite 0x000 (opField w) :: s.turns }
    | .micro =>
      match homePhase i with
      | some ph => placeMicro i ph s
      | none => onUnit
    | .unit => onUnit

end Sys2Proof.Machine
end

