-- ==== Sys2Proof/Machine/Step.lean ====
section
/-! DEFINITION. Machine/Step: one step of the machine, and how an instruction word is placed before it. Both only call
Machine/Turns.lean. -/

namespace Sys2Proof.Machine

/-- One step: one atomic host transaction or one core step (rules R12, R15). -/
def step (s : State) : Host.Outcome State Fault Refusal := runTurn s

/-- `s` with the instruction whose bits are `w` placed where `step` takes its next instruction. Every instruction is one
16-bit word (rule R70). -/
def State.withFetchWord (s : State) (_nbits w : Nat) : State := placeWord s (BitVec.ofNat 16 w)

end Sys2Proof.Machine
end

