-- ==== Sys2Proof/Machine/Cipher.lean ====
section
/-! DEFINITION. Machine/Cipher: what a command computes, as pure functions of key and block (rules R120, R121, R161,
R162), and how many steps and which operations it takes (rules R82, R164). Nothing here is part of a step; claims say
that the machine agrees with it. -/

namespace Sys2Proof.Machine

/-! ### The key schedule as a function (rules R120, R121) -/

/-- The first `nk` words: `w[j] = (key[4j], key[4j+1], key[4j+2], key[4j+3])` (rule R120). -/
def keyWords (key : List Byte) (nk : Nat) : Option (List Word) :=
  (List.range nk).mapM fun j => do
    let b0 ← key[4 * j]?
    let b1 ← key[4 * j + 1]?
    let b2 ← key[4 * j + 2]?
    let b3 ← key[4 * j + 3]?
    return #v[b0, b1, b2, b3]

/-- The body of rule R118 for index `i`, the new word appended to the list. -/
def expandStep (nk : Nat) (ws : List Word) (i : Nat) : Option (List Word) := do
  let prev ← ws[i - 1]?
  let old ← ws[i - nk]?
  let tmp ← expandTemp nk i prev
  return ws ++ [xorWord old tmp]

/-- `ExpandKey(key)`, defined for keys of 16, 24 and 32 bytes (rule R120). -/
def expandKey (key : List Byte) : Option (List Word) := do
  let nr ← nrOf key.length
  let nk := nkOf key.length
  let ws ← keyWords key nk
  (List.range' nk (scheduleWords nr - nk)).foldlM (expandStep nk) ws

/-- Word `i` of the equivalent inverse schedule from word `i` of the forward one: converted in rounds `1..Nr-1`
(rule R121). -/
def invertWord (nr i : Nat) (w : Word) : Option Word :=
  if 1 ≤ i / 4 ∧ i / 4 < nr then mixColumn w invMixMatrix else some w

/-- `ExpandKeyInv(key)` (rule R121). -/
def expandKeyInv (key : List Byte) : Option (List Word) := do
  let nr ← nrOf key.length
  let ws ← expandKey key
  ws.zipIdx.mapM fun p => invertWord nr p.2 p.1

/-! ### The ciphers as functions (rules R161, R162) -/

/-- Four words one after the other as a block. -/
def blockOfWords (w0 w1 w2 w3 : Word) : Block := w0 ++ w1 ++ w2 ++ w3

/-- `K(r)`: the matrix of the 16 bytes of words `4r..4r+3` (rule R161). -/
def keyMatrix (ws : List Word) (r : Nat) : Option Mat := do
  let w0 ← ws[4 * r]?
  let w1 ← ws[4 * r + 1]?
  let w2 ← ws[4 * r + 2]?
  let w3 ← ws[4 * r + 3]?
  return blockToMatrix (blockOfWords w0 w1 w2 w3)

/-- One forward round: `MixColumns(ShiftRows(SubBytes(s)), MIX) ^ K(round)` (rule R161). -/
def cipherRound (ws : List Word) (s : Mat) (round : Nat) : Option Mat := do
  let m ← mixColumns (shiftRows (subBytes s)) mixMatrix
  let k ← keyMatrix ws round
  return xorMat m k

/-- `Cipher(blk, key)` (rule R161). -/
def cipher (blk : Block) (key : List Byte) : Option Block := do
  let nr ← nrOf key.length
  let ws ← expandKey key
  let k0 ← keyMatrix ws 0
  let s ← (List.range' 1 (nr - 1)).foldlM (cipherRound ws) (xorMat (blockToMatrix blk) k0)
  let kn ← keyMatrix ws nr
  return matrixToBlock (xorMat (shiftRows (subBytes s)) kn)

/-- One inverse round: `MixColumns(InvShiftRows(InvSubBytes(s)), INVMIX) ^ DK(round)` (rule R162). -/
def invCipherRound (dw : List Word) (s : Mat) (round : Nat) : Option Mat := do
  let m ← mixColumns (invShiftRows (invSubBytes s)) invMixMatrix
  let k ← keyMatrix dw round
  return xorMat m k

/-- `InvCipher(blk, key)`: the rounds run from `Nr-1` down to 1 (rule R162). -/
def invCipher (blk : Block) (key : List Byte) : Option Block := do
  let nr ← nrOf key.length
  let dw ← expandKeyInv key
  let kn ← keyMatrix dw nr
  let s ← (List.range' 1 (nr - 1)).reverse.foldlM (invCipherRound dw) (xorMat (blockToMatrix blk) kn)
  let k0 ← keyMatrix dw 0
  return matrixToBlock (xorMat (invShiftRows (invSubBytes s)) k0)

/-- The key a state declares: `KEYBUF[0..KLEN-1]` (rules R21, R200). -/
def State.key (s : State) : List Byte := s.KEYBUF.toList.take s.KLEN.toNat

/-! ### The operations a command issues (rules R82, R164) -/

/-- `CHK, KLOAD, KSTEP^(NW-Nk)`, with `NW = 4*(Nr+1)` (rule R82). -/
def scheduleOps (nk nr : Nat) : List Instr :=
  [.chk, .kload] ++ List.replicate (scheduleWords nr - nk) .kstep

/-- `KINVR^(Nr-1)` (rule R82). -/
def invertOps (nr : Nat) : List Instr := List.replicate (nr - 1) .kinvr

/-- `LDST, ARK, (SUBB, SHROW, MIXC, ARK)^(Nr-1), SUBB, SHROW, ARK, STST` (rule R82). -/
def forwardOps (nr : Nat) : List Instr :=
  [.ldst, .ark] ++ (List.replicate (nr - 1) [.subb, .shrow, .mixc, .ark]).flatten ++ [.subb, .shrow, .ark, .stst]

/-- `LDST, ARK, (ISUBB, ISHROW, IMIXC, ARK)^(Nr-1), ISUBB, ISHROW, ARK, STST` (rule R82). -/
def inverseOps (nr : Nat) : List Instr :=
  [.ldst, .ark] ++ (List.replicate (nr - 1) [.isubb, .ishrow, .imixc, .ark]).flatten
    ++ [.isubb, .ishrow, .ark, .stst]

/-- The expansion of a command over micro-operations, for `Nk` and `Nr` of a legal key length (rule R82). -/
def commandOps (i : Instr) (nk nr : Nat) : List Instr :=
  match i with
  | .kexp => scheduleOps nk nr
  | .kexpi => scheduleOps nk nr ++ invertOps nr
  | .enc => scheduleOps nk nr ++ forwardOps nr
  | .dec => scheduleOps nk nr ++ invertOps nr ++ inverseOps nr
  | .chk | .kload | .kstep | .kinvr | .ldst | .stst | .ark | .subb | .shrow | .mixc | .isubb | .ishrow | .imixc
  | .xtime | .gfmul _ | .sbox | .isbox | .rcon _ | .rotw | .subw => []

/-- The number of core steps from acceptance to `finish`, the formulas of rule R164. -/
def commandSteps (i : Instr) (nk nr : Nat) : Nat :=
  match i with
  | .kexp => 2 + (4 * (nr + 1) - nk)
  | .kexpi => 2 + (4 * (nr + 1) - nk) + (nr - 1)
  | .enc => 2 + (4 * (nr + 1) - nk) + 2 + 4 * (nr - 1) + 3 + 1
  | .dec => 2 + (4 * (nr + 1) - nk) + (nr - 1) + 2 + 4 * (nr - 1) + 3 + 1
  | .chk | .kload | .kstep | .kinvr | .ldst | .stst | .ark | .subb | .shrow | .mixc | .isubb | .ishrow | .imixc
  | .xtime | .gfmul _ | .sbox | .isbox | .rcon _ | .rotw | .subw => 0

/-- The operation the sequencer issues in a state: none while idle (rules R77, R159). -/
def issuedOp (s : State) : Option Instr :=
  if s.BUSY then (issue s.PH s.CMDR).bind fun w => (decodeWord w).toOption else none

/-- The operations issued over `n` steps from `s`. -/
def issuedOps : Nat → State → List Instr
  | 0, _ => []
  | n + 1, s =>
    match step s with
    | .next t => (issuedOp s).toList ++ issuedOps n t
    | .fault _ => []
    | .refused _ => []

end Sys2Proof.Machine
end

