-- ==== Sys2Proof/Machine/Script.lean ====
section
/-! DEFINITION. Machine/Script: the host script syntax of rule R81: each line, and each pseudo-instruction, as the host
turns it stands for. Setting `turns` of a state to a script's turns is how a host program is given to the machine. -/

namespace Sys2Proof.Machine

/-- A line of a host script (rule R81). -/
inductive ScriptLine where
  | wr (addr : Addr) (v : Byte)
  | rd (addr : Addr)
  | reset
  | setKey (bytes : List Byte)
  | setKeyLen (n : Byte)
  | setBlk (block : Block)
  | setBlkLen (n : Byte)
  | enc | dec | kexp | kexpi
  | wait
  | getBlk
  | getW (i : Fin 60)
deriving DecidableEq, Repr

/-- Host writes of consecutive bytes from an address upward. -/
def writeBytes (base : Nat) (bs : List Byte) : List Turn :=
  bs.zipIdx.map fun p => .hostWrite (BitVec.ofNat 9 (base + p.2)) p.1

/-- Host reads of `n` consecutive bytes from an address upward. -/
def readBytes (base n : Nat) : List Turn := (List.range n).map fun i => .hostRead (BitVec.ofNat 9 (base + i))

/-- The expansion of a line (rule R81). `SETKEY` takes at most 32 bytes. -/
def ScriptLine.expand : ScriptLine → List Turn
  | .wr a v => [.hostWrite a v]
  | .rd a => [.hostRead a]
  | .reset => [.hostReset]
  | .setKey bs => .hostWrite 0x003 (BitVec.ofNat 8 bs.length) :: writeBytes 0x040 (bs.take 32)
  | .setKeyLen n => [.hostWrite 0x003 n]
  | .setBlk b => .hostWrite 0x004 16 :: writeBytes 0x010 b.toList
  | .setBlkLen n => [.hostWrite 0x004 n]
  | .enc => [.hostWrite 0x000 0x01]
  | .dec => [.hostWrite 0x000 0x02]
  | .kexp => [.hostWrite 0x000 0x03]
  | .kexpi => [.hostWrite 0x000 0x04]
  | .wait => [.hostWait]
  | .getBlk => readBytes 0x020 16
  | .getW i => readBytes (0x100 + 4 * i.val) 4

/-- The turns of a script, line after line. -/
def scriptTurns (p : List ScriptLine) : List Turn := p.flatMap ScriptLine.expand

end Sys2Proof.Machine
end

