-- ==== Sys2Proof/Machine/System.lean ====
section
/-! DEFINITION. Machine/System: several AESCORE instances side by side. They share nothing but the constant tables: the
system is the product of the single-instance models (rule R185, decision D29). -/

namespace Sys2Proof.Machine

/-- The instances of a system, each with its own state. -/
abbrev System := List State

/-- A system of `n` instances after reset. -/
def System.reset (n : Nat) : System := List.replicate n State.reset

/-- The installation's system (`NCORES`). -/
def System.installed : System := System.reset Config.nCores

/-- One step of instance `k`; the others stand still. An index with no instance moves nothing. -/
def System.step (k : Nat) (sys : System) : Host.Outcome System Fault Refusal :=
  match sys[k]? with
  | none => .next sys
  | some s =>
    match Machine.step s with
    | .next t => .next (sys.set k t)
    | .fault f => .fault f
    | .refused r => .refused r

end Sys2Proof.Machine
end

