-- ==== Sys2Proof/Safety.lean ====
section
/-! DEFINITION. Safety: the terms claims use: the invariant of rule R40, the invariant of the schedule's contents (its
item 4), and relations between two states that noninterference claims compare. -/

namespace Sys2Proof.Machine

/-! ### The invariant of reachable states (rule R40) -/

/-- After `KLOAD`: `NK`, `NR` are a pair of rule R115 for the declared key length, and a command that takes a block has
`BLEN = 16`, because `CHK` passed and no host write lands while `BUSY = 1` (rules R116, R117, R196). -/
def State.loaded (s : State) : Prop :=
  loadedPair s.NK s.NR = true ∧ s.KLEN.toNat = 4 * s.NK.toNat ∧ (commandUsesBlock s.CMDR = true → s.BLEN = 16)

/-- The whole schedule has been generated: `KI` has reached `4*(NR+1)` (rules R34, R118). -/
def State.expanded (s : State) : Prop := s.KI.toNat = scheduleWords s.NR.toNat

/-- `RND` is the number of a round in progress: 1..`NR` for `ENC`, `NR-1`..0 for `DEC` (rule R35). -/
def State.roundInRange (s : State) : Prop :=
  if s.isEnc then 1 ≤ s.RND.toNat ∧ s.RND.toNat ≤ s.NR.toNat else s.RND.toNat + 1 ≤ s.NR.toNat

/-- What holds in each phase of a running command. Rule R40 does not list it; it is what makes the list inductive
(read from rule R159: assumption 8). -/
def State.phaseInv (s : State) : Prop :=
  match s.PH with
  | .idle => True
  | .check => s.NK = 0 ∧ s.NR = 0
  | .kload =>
    s.NK = 0 ∧ s.NR = 0 ∧ keyLengthLegal s.KLEN = true ∧ (commandUsesBlock s.CMDR = true → s.BLEN = 16)
  | .kexp => s.loaded ∧ s.NK.toNat ≤ s.KI.toNat ∧ s.KI.toNat < scheduleWords s.NR.toNat
  | .kinv =>
    s.loaded ∧ s.expanded ∧ (s.CMDR = 0x02 ∨ s.CMDR = 0x04) ∧ 1 ≤ s.RND.toNat ∧ s.RND.toNat + 1 ≤ s.NR.toNat
  | .load => s.loaded ∧ s.expanded ∧ commandUsesBlock s.CMDR = true
  | .ark0 => s.loaded ∧ s.expanded ∧ commandUsesBlock s.CMDR = true ∧ s.RND = (if s.isEnc then 0 else s.NR)
  | .sub | .shift | .ark => s.loaded ∧ s.expanded ∧ commandUsesBlock s.CMDR = true ∧ s.roundInRange
  | .mix => s.loaded ∧ s.expanded ∧ commandUsesBlock s.CMDR = true ∧ s.roundInRange ∧ s.isFinal = false
  | .store => s.loaded ∧ s.expanded ∧ commandUsesBlock s.CMDR = true ∧ s.isFinal = true

/-- The invariant: rule R40 items 1, 2, 3, 5, the register part of item 4 (item 6 holds by the types of `PH`, `SCHED`
and `ERR`), rule R165's reading of the flags after a command, and `phaseInv`. -/
structure Inv (s : State) : Prop where
  /-- R40 item 1 -/
  busy_iff_phase : s.BUSY = true ↔ s.PH ≠ .idle
  /-- R40 item 2 -/
  busy_flags : s.BUSY = true →
    s.DONE = false ∧ s.OUT_VALID = false ∧ s.SCHED = .none ∧ s.ERR = .none ∧ commandLegal s.CMDR = true
  /-- R40 item 3 -/
  out_valid : s.OUT_VALID = true →
    s.DONE = true ∧ s.ERR = .none ∧ s.SCHED ≠ .none ∧ commandUsesBlock s.CMDR = true
  /-- R40 item 4, registers -/
  sched_set : s.SCHED ≠ .none → s.DONE = true ∧ s.ERR = .none ∧ loadedPair s.NK s.NR = true
  /-- R40 item 5 -/
  err_set : s.ERR ≠ .none →
    s.DONE = true ∧ s.BUSY = false ∧ s.OUT_VALID = false ∧ s.SCHED = .none ∧ s.NK = 0 ∧ s.NR = 0
  /-- R165: an ended command without error leaves a schedule -/
  done_ok : s.DONE = true → s.ERR = .none → s.SCHED ≠ .none
  /-- R28, R29: 0 means no schedule -/
  idle_clear : s.BUSY = false → s.SCHED = .none → s.NK = 0 ∧ s.NR = 0
  phase : s.phaseInv

/-! ### The contents of the schedule memory (rule R40 item 4) -/

/-- The first `n` words of the schedule memory are the first `n` words of the list. -/
def wordsAgree (w : Vector Word 60) (ws : List Word) (n : Nat) : Prop :=
  ∀ j : Fin 60, j.val < n → ws[j.val]? = some w[j]

/-- The schedule memory holds the forward schedule of `key` (rule R120), `4*(NR+1)` words of it. -/
def State.holdsForward (s : State) (key : List Byte) : Prop :=
  ∃ ws, expandKey key = some ws ∧ ws.length = scheduleWords s.NR.toNat ∧ wordsAgree s.W ws (scheduleWords s.NR.toNat)

/-- The schedule memory holds the equivalent inverse schedule of `key` (rule R121). -/
def State.holdsInverse (s : State) (key : List Byte) : Prop :=
  ∃ ws, expandKeyInv key = some ws ∧ ws.length = scheduleWords s.NR.toNat ∧
    wordsAgree s.W ws (scheduleWords s.NR.toNat)

/-- In phase `KEXP` the words below `KI` are those of the forward schedule of the declared key. -/
def State.holdsPrefix (s : State) : Prop :=
  ∃ ws, expandKey s.key = some ws ∧ ws.length = scheduleWords s.NR.toNat ∧ wordsAgree s.W ws s.KI.toNat

/-- In phase `KINV` the round keys 1..`RND-1` are converted and the others are not. -/
def State.holdsPartlyInverse (s : State) : Prop :=
  ∃ ws, expandKey s.key = some ws ∧ ws.length = scheduleWords s.NR.toNat ∧
    ∀ j : Fin 60, j.val < scheduleWords s.NR.toNat →
      ∃ x, ws[j.val]? = some x ∧ invertWord s.RND.toNat j.val x = some s.W[j]

/-- What `W` holds: while a command runs, a part or the whole of a schedule of the key in `KEYBUF`; after a command, the
schedule `SCHED` names, of some key of `4*NK` bytes (the host may have changed `KEYBUF` since: rule R199). -/
structure ScheduleInv (s : State) : Prop where
  kexp : s.PH = .kexp → s.holdsPrefix
  kinv : s.PH = .kinv → s.holdsPartlyInverse
  rounds : s.PH ∈ [Phase.load, .ark0, .sub, .shift, .mix, .ark, .store] →
    if s.isEnc then s.holdsForward s.key else s.holdsInverse s.key
  forward : s.SCHED = .forward → ∃ key : List Byte, key.length = 4 * s.NK.toNat ∧ s.holdsForward key
  inverse : s.SCHED = .inverse → ∃ key : List Byte, key.length = 4 * s.NK.toNat ∧ s.holdsInverse key

/-! ### Runs -/

/-- `n` steps of the machine, stopping at the first refusal. -/
def run (n : Nat) (s : State) : Out := Sys2Proof.core.run n s

/-! ### What a command needs (rule R192) -/

/-- The core is idle and nothing else is scheduled. -/
def State.ready (s : State) : Prop := s.BUSY = false ∧ s.turns = []

/-- The declared lengths are legal for the command (rules R116, R192). -/
def State.inputsLegal (s : State) (i : Instr) : Prop :=
  keyLengthLegal s.KLEN = true ∧ (i = .enc ∨ i = .dec → s.BLEN = 16)

/-- `Nk` of the declared key (rule R115). -/
def State.declaredNk (s : State) : Nat := nkOf s.KLEN.toNat

/-- `Nr = Nk + 6` of the declared key (rule R115). -/
def State.declaredNr (s : State) : Nat := nkOf s.KLEN.toNat + 6

/-- No result is visible: the output block and the schedule window read as zeros (rules R55, R56). -/
def State.resultsHidden (s : State) : Prop :=
  (∀ i : Fin 16, memRead (BitVec.ofNat 9 (0x020 + i.val)) s = 0x00) ∧
  (∀ j : Fin 240, memRead (BitVec.ofNat 9 (0x100 + j.val)) s = 0x00)

/-! ### Relations between two states -/

/-- The states agree on every register of rule R20's list and on the function unit's lines: only the host's turns and
what it has read may differ. -/
def sameRegisters (s t : State) : Prop := { s with turns := [], received := [] } = { t with turns := [], received := [] }

/-- The states agree on everything that decides the path through the transition table, and on the turns to come: they
may differ in key bytes, block bytes, the cipher state, the schedule words, the output, the unit's lines and what the
host has read. -/
def sameControl (s t : State) : Prop :=
  s.KLEN = t.KLEN ∧ s.BLEN = t.BLEN ∧ s.NK = t.NK ∧ s.NR = t.NR ∧ s.BUSY = t.BUSY ∧ s.DONE = t.DONE ∧
    s.OUT_VALID = t.OUT_VALID ∧ s.SCHED = t.SCHED ∧ s.ERR = t.ERR ∧ s.PH = t.PH ∧ s.KI = t.KI ∧ s.RND = t.RND ∧
    s.CMDR = t.CMDR ∧ s.turns = t.turns

/-- The states agree but for key bytes at index `KLEN` and above (rule R200). -/
def sameDeclaredKey (s t : State) : Prop :=
  { s with KEYBUF := t.KEYBUF } = t ∧ ∀ j : Fin 32, j.val < s.KLEN.toNat → s.KEYBUF[j] = t.KEYBUF[j]

/-- A turn of rule R201's interleavings: a host read, a host write or a core turn. -/
def Turn.ordinary : Turn → Bool
  | .hostWrite _ _ | .hostRead _ | .core => true
  | .hostReset | .hostWait | .unit _ _ _ => false

end Sys2Proof.Machine
end

