-- ==== Sys2Proof/Certificates/Slice0/Obligations.lean ====
section
/-! DEFINITION. Certificates/Slice0/Obligations: the statements for the provers, file by file of the spec. -/

open Sys2Proof Sys2Proof.Machine

/-! ## Operation words (30_encoding.md) -/

/-- Decode and encode agree: the word of every well-formed operation decodes to it, with every operand at every value
the encoding admits (rules R70, R74, R76; that `GFMUL` with an unsupported constant is well formed is assumption 11). -/
def Obligations.DecodeInvertsEncode : Prop :=
  ∀ i : Instr, i.wellFormed = true → decodeWord (encode i) = .ok i

/-- No word decodes to an operation whose word it is not: with the round trip, words and operations correspond one to
one (rules R76, R78). -/
def Obligations.DecodedWordIsItsEncoding : Prop :=
  ∀ (w : OpWord) (i : Instr), decodeWord w = .ok i → i.wellFormed = true ∧ encode i = w

/-- The decoder follows the map of rule R76: the operation word of a command is `CMD*256`, a byte that is the code of a
format U or F word naming none (rules R71, R78), and a word decodes if and only if it is one of the 22 fixed words, or a
word with op 0x61 (`GFMUL`), or a `RCON` word with an index in the table (rules R76, R78, U4, U5). That EVERY word with op
0x61 decodes, also `GFMUL` with an unsupported constant, which rule R78 calls illegal and rule R95 answers with a raise, is
the model's reading (assumption 11, DEDUCED) and no rule's own words. -/
def Obligations.WordsDecodeExactlyByTheOpcodeMap : Prop :=
  (∀ (v : Byte) (i : Instr),
    decodeCommand v = some i ↔ (i.format = .command ∧ (encode i).toNat = v.toNat * 256)) ∧
  ∀ w : OpWord, (∃ i, decodeWord w = .ok i) ↔
    (w ∈ ([0x0100, 0x0200, 0x0300, 0x0400, 0x1000, 0x2000, 0x2100, 0x2200, 0x3000, 0x3100, 0x4000, 0x4100, 0x4200,
        0x4300, 0x5100, 0x5200, 0x5300, 0x6000, 0x7000, 0x7100, 0x7300, 0x7400] : List OpWord) ∨
      opField w = 0x61 ∨ (opField w = 0x72 ∧ (argField w).toNat ≤ 13))

/-- Words written out from rules R71 to R73 decode to the operations they stand for: one of each unit nibble. -/
def Obligations.WordsOfEveryUnitDecode : Prop :=
  decodeWord 0x0200 = .ok .dec ∧ decodeWord 0x1000 = .ok .chk ∧ decodeWord 0x2200 = .ok .kinvr ∧
  decodeWord 0x3100 = .ok .stst ∧ decodeWord 0x4200 = .ok .shrow ∧ decodeWord 0x5300 = .ok .imixc ∧
  decodeWord 0x610d = .ok (.gfmul 13) ∧ decodeWord 0x7209 = .ok (.rcon 9) ∧
  decodeBytes [0x73, 0x00, 0x74] = .ok (.rotw, [0x74])

/-- The word the sequencer issues in each phase (rule R77). -/
def Obligations.SequencerIssuesByPhaseAndCommand : Prop :=
  (∀ c : Byte,
    issue .check c = some (encode .chk) ∧ issue .kload c = some (encode .kload) ∧
    issue .kexp c = some (encode .kstep) ∧ issue .kinv c = some (encode .kinvr) ∧
    issue .load c = some (encode .ldst) ∧ issue .ark0 c = some (encode .ark) ∧
    issue .ark c = some (encode .ark) ∧ issue .store c = some (encode .stst)) ∧
  issue .sub 0x01 = some (encode .subb) ∧ issue .sub 0x02 = some (encode .isubb) ∧
  issue .shift 0x01 = some (encode .shrow) ∧ issue .shift 0x02 = some (encode .ishrow) ∧
  issue .mix 0x01 = some (encode .mixc) ∧ issue .mix 0x02 = some (encode .imixc)

/-- A step runs the decoded instruction, on each of the three ways a word reaches the machine: the sequencer's word, run
by `exec` and followed by the update of the sequencing registers (rule R159; `advance` is what the step adds); the host's
write of a command's op byte to `CMD` (rule R71); a word on the function unit's inputs (rule R73). -/
def Obligations.StepRunsTheDecodedInstruction : Prop :=
  (∀ (s u : State) (w : OpWord) (i : Instr),
    s.BUSY = true → s.turns = [] → s.phaseReachable = true → issue s.PH s.CMDR = some w → decodeWord w = .ok i →
    exec i s = .next u → step s = .next (advance u)) ∧
  (∀ (s u : State) (rest : List Turn) (w : OpWord) (i : Instr),
    s.BUSY = true → s.turns = .core :: rest → s.phaseReachable = true → issue s.PH s.CMDR = some w →
    decodeWord w = .ok i → exec i { s with turns := rest } = .next u → step s = .next (advance u)) ∧
  (∀ (s : State) (rest : List Turn) (v : Byte) (i : Instr),
    s.turns = .hostWrite 0x000 v :: rest → decodeWord (v ++ 0x00#8) = .ok i → i.format = .command →
    step s = exec i { s with turns := rest }) ∧
  (∀ (s : State) (rest : List Turn) (w : OpWord) (b : Byte) (x : Word) (i : Instr),
    s.turns = .unit w b x :: rest → decodeWord w = .ok i → i.format = .unit →
    step s = exec i { s with turns := rest, unitByteIn := b, unitWordIn := x })

/-! ## State and reset (10_state.md, 70_reset_and_hazards.md) -/

/-- Every state element at the value rule R39 lists (the model's own fields are not in that list): the core is idle,
`BUSY = 0`, and nothing is readable. -/
def Obligations.ResetLeavesEveryElementZero : Prop :=
  let s := State.reset
  (∀ i : Fin 32, s.KEYBUF[i] = 0x00) ∧ s.KLEN = 0 ∧ (∀ i : Fin 16, s.DIN[i] = 0x00) ∧ s.BLEN = 0 ∧
  (∀ i : Fin 16, s.DOUT[i] = 0x00) ∧ (∀ r c : Fin 4, s.S[r][c] = 0x00) ∧ (∀ (i : Fin 60) (b : Fin 4), s.W[i][b] = 0x00) ∧
  s.NK = 0 ∧ s.NR = 0 ∧ s.statusByte = 0x00 ∧ s.BUSY = false ∧ s.DONE = false ∧ s.OUT_VALID = false ∧
  s.SCHED = .none ∧ s.ERR.code = 0 ∧ s.PH.code = 0 ∧ s.KI = 0 ∧ s.RND = 0 ∧ s.CMDR = 0 ∧ s.resultsHidden

/-- A reset turn, in any state and also while `BUSY = 1`, leaves every register as after reset, and the core then has
no step (rules R190, R191); the host's own data stay (the model's choice: assumptions 1, 3). -/
def Obligations.HostResetFromAnyState : Prop :=
  ∀ (s : State) (rest : List Turn), s.turns = .hostReset :: rest →
    ∃ t, step s = .next t ∧
      t.KEYBUF = State.reset.KEYBUF ∧ t.KLEN = 0 ∧ t.DIN = State.reset.DIN ∧ t.BLEN = 0 ∧ t.DOUT = State.reset.DOUT ∧
      t.S = State.reset.S ∧ t.W = State.reset.W ∧ t.NK = 0 ∧ t.NR = 0 ∧ t.BUSY = false ∧ t.DONE = false ∧
      t.OUT_VALID = false ∧ t.SCHED = .none ∧ t.ERR = .none ∧ t.PH = .idle ∧ t.KI = 0 ∧ t.RND = 0 ∧ t.CMDR = 0 ∧
      t.turns = rest ∧ t.received = s.received ∧ coreTurn t = .next t

/-- The flags rise only where rule R31's table says: `BUSY` by the acceptance of a legal command, `OUT_VALID` in the
step that stores the output of `ENC` or `DEC`, `SCHED` by the end of a command, and a running core stops being busy only
with `DONE` set or by reset. -/
def Obligations.FlagsRiseOnlyAsListed : Prop :=
  ∀ s t : State, step s = .next t →
    (s.BUSY = false → t.BUSY = true →
      ∃ v rest, s.turns = .hostWrite 0x000 v :: rest ∧ commandLegal v = true ∧ t.CMDR = v) ∧
    (s.OUT_VALID = false → t.OUT_VALID = true →
      s.BUSY = true ∧ s.PH = .store ∧ (s.CMDR = 0x01 ∨ s.CMDR = 0x02)) ∧
    (s.SCHED ≠ t.SCHED → t.SCHED ≠ .none → s.BUSY = true ∧ t.BUSY = false ∧ t.DONE = true ∧
      (t.SCHED = .forward ↔ s.CMDR = 0x01 ∨ s.CMDR = 0x03)) ∧
    (s.BUSY = true → t.BUSY = false → t.DONE = true ∨ ∃ rest, s.turns = .hostReset :: rest)

/-- Each register is written by the operations its rule lists and by no other operation: the data and counter registers
by their micro-operations (rules R25, R26, R27, R34, R35), `NK` and `NR` by `KLOAD`, acceptance and the error entry (rules
R28, R29), `STATUS`, `ERR` and `PH` by acceptance and the error entry of `CHK` (rules R31, R32, R33; `finish` and the
sequencer's own updates of `PH` and `RND` belong to the step, not to an operation), `CMDR` by acceptance (rule R36), and
the host's registers by none (rules R21 to R24, R61). A function-unit operation writes no register (rule R73). -/
def Obligations.RegistersWrittenOnlyByTheirWriters : Prop :=
  ∀ (i : Instr) (s t : State), exec i s = .next t →
    (t.KEYBUF = s.KEYBUF ∧ t.KLEN = s.KLEN ∧ t.DIN = s.DIN ∧ t.BLEN = s.BLEN) ∧
    (i ≠ .stst → t.DOUT = s.DOUT) ∧
    (i ∉ [Instr.ldst, .ark, .subb, .shrow, .mixc, .isubb, .ishrow, .imixc] → t.S = s.S) ∧
    (i ∉ [Instr.kload, .kstep, .kinvr] → t.W = s.W) ∧
    (i ≠ .kload → t.KI ≠ s.KI → i = .kstep ∧ t.KI = s.KI + 1) ∧
    t.RND = s.RND ∧
    (i.format ≠ .command → i ≠ .chk →
      t.BUSY = s.BUSY ∧ t.DONE = s.DONE ∧ t.OUT_VALID = s.OUT_VALID ∧ t.SCHED = s.SCHED ∧ t.ERR = s.ERR ∧ t.PH = s.PH ∧
        (i ≠ .kload → t.NK = s.NK ∧ t.NR = s.NR)) ∧
    (i = .chk → t = s ∨ t = errorEntry .invalidBlockLength s ∨ t = errorEntry .invalidKeyLength s) ∧
    (i.format = .command → (s.BUSY = true ∧ t = s) ∨ (s.BUSY = false ∧ t = accept i.opByte s)) ∧
    (i.format ≠ .command → t.CMDR = s.CMDR) ∧
    (i.format = .unit → t = { s with unitOut := t.unitOut }) ∧
    t.turns = s.turns ∧ t.received = s.received

/-! ## Host port (20_memory.md) -/

/-- What a host read returns at every address, the status byte being `BUSY + 2*DONE + 4*OUT_VALID + 8*SCHED`, and that it
changes no state (rules R31, R51, R53, R55, R56, R59). -/
def Obligations.HostReadReturnsTheMappedByte : Prop :=
  (∀ s : State,
    memRead 0x000 s = 0x00 ∧
    (memRead 0x001 s).toNat =
      s.BUSY.toNat + 2 * s.DONE.toNat + 4 * s.OUT_VALID.toNat + 8 * s.SCHED.code.toNat ∧ memRead 0x002 s = s.ERR.code ∧
    memRead 0x003 s = s.KLEN ∧ memRead 0x004 s = s.BLEN ∧
    (memRead 0x005 s).toNat = s.NK.toNat ∧ (memRead 0x006 s).toNat = s.NR.toNat ∧
    (∀ i : Fin 16, memRead (BitVec.ofNat 9 (0x010 + i.val)) s = s.DIN[i]) ∧
    (∀ i : Fin 16, memRead (BitVec.ofNat 9 (0x020 + i.val)) s = if s.OUT_VALID = true then s.DOUT[i] else 0x00) ∧
    (∀ i : Fin 32, memRead (BitVec.ofNat 9 (0x040 + i.val)) s = s.KEYBUF[i]) ∧
    (∀ (i : Fin 60) (b : Fin 4),
      memRead (BitVec.ofNat 9 (0x100 + 4 * i.val + b.val)) s = if s.SCHED = .none then 0x00 else s.W[i][b]) ∧
    (∀ a : Addr, (0x007 ≤ a.toNat ∧ a.toNat ≤ 0x00F) ∨ (0x030 ≤ a.toNat ∧ a.toNat ≤ 0x03F) ∨
      (0x060 ≤ a.toNat ∧ a.toNat ≤ 0x0FF) ∨ 0x1F0 ≤ a.toNat → memRead a s = 0x00)) ∧
  (∀ (s : State) (a : Addr) (rest : List Turn), s.turns = .hostRead a :: rest →
    step s = .next { s with turns := rest, received := s.received ++ [memRead a s] }) ∧
  (∀ s : State, Inv s → s.BUSY = true →
    memRead 0x001 s = 0x01 ∧ memRead 0x002 s = 0x00 ∧ s.resultsHidden)

/-- What a host write does at every address other than `CMD` while `BUSY = 0`: it stores the byte at a writable
location, changes nothing else, and has no effect at a read-only or reserved location (rules R51, R54, R199). -/
def Obligations.HostWriteStoresOneByte : Prop :=
  ∀ (s : State) (a : Addr) (v : Byte), s.BUSY = false → a ≠ 0x000 →
    (a = 0x003 → memWrite a v s = { s with KLEN := v }) ∧
    (a = 0x004 → memWrite a v s = { s with BLEN := v }) ∧
    (∀ i : Fin 16, a = BitVec.ofNat 9 (0x010 + i.val) → memWrite a v s = { s with DIN := s.DIN.set i v }) ∧
    (∀ i : Fin 32, a = BitVec.ofNat 9 (0x040 + i.val) → memWrite a v s = { s with KEYBUF := s.KEYBUF.set i v }) ∧
    (a ≠ 0x003 ∧ a ≠ 0x004 ∧ ¬(0x010 ≤ a.toNat ∧ a.toNat ≤ 0x01F) ∧ ¬(0x040 ≤ a.toNat ∧ a.toNat ≤ 0x05F) →
      memWrite a v s = s) ∧
    (∀ rest, s.turns = .hostWrite a v :: rest → step s = .next (memWrite a v { s with turns := rest }))

/-- A byte written while `BUSY = 0` to a writable location is read back there, and every other location reads as
before (rules R53, R54). -/
def Obligations.WrittenByteIsReadBackAlone : Prop :=
  ∀ (s : State) (a b : Addr) (v : Byte), s.BUSY = false →
    (a = 0x003 ∨ a = 0x004 ∨ (0x010 ≤ a.toNat ∧ a.toNat ≤ 0x01F) ∨ (0x040 ≤ a.toNat ∧ a.toNat ≤ 0x05F)) →
    memRead a (memWrite a v s) = v ∧ (b ≠ a → memRead b (memWrite a v s) = memRead b s)

/-- Every host write made while `BUSY = 1` is dropped: it changes no state, raises no error and sets no flag
(rule R196); so is a command issued then. -/
def Obligations.WritesWhileBusyAreDropped : Prop :=
  ∀ s : State, s.BUSY = true →
    (∀ (a : Addr) (v : Byte), memWrite a v s = s) ∧
    (∀ (a : Addr) (v : Byte) (rest : List Turn), s.turns = .hostWrite a v :: rest →
      step s = .next { s with turns := rest }) ∧
    (∀ i : Instr, i.format = .command → exec i s = .next s)

/-- A write to `CMD` with `BUSY = 0`, legal or not, discards the previous results at once: the output block and the
schedule window read as zeros (rule R198). -/
def Obligations.CommandWriteDiscardsResults : Prop :=
  ∀ (s : State) (v : Byte) (rest : List Turn), s.BUSY = false → s.turns = .hostWrite 0x000 v :: rest →
    ∃ t, step s = .next t ∧ t.resultsHidden ∧ t.OUT_VALID = false ∧ t.SCHED = .none ∧ t.NK = 0 ∧ t.NR = 0

/-- The core and the host never write the same register (rule R61): a step that is no host write and no reset leaves
the host's registers alone, and a host write leaves the registers the core writes alone but for what acceptance clears
and latches. A turn of the function unit (the model's own: assumption 2) writes no register at all. -/
def Obligations.EveryRegisterHasOneWriter : Prop :=
  ∀ s t : State, step s = .next t →
    ((∀ rest, s.turns ≠ .hostReset :: rest) → (∀ a v rest, s.turns ≠ .hostWrite a v :: rest) →
      t.KEYBUF = s.KEYBUF ∧ t.KLEN = s.KLEN ∧ t.DIN = s.DIN ∧ t.BLEN = s.BLEN) ∧
    (∀ a v rest, s.turns = .hostWrite a v :: rest →
      t.DOUT = s.DOUT ∧ t.S = s.S ∧ t.W = s.W ∧ t.KI = s.KI ∧ t.RND = s.RND ∧
      (a ≠ 0x000 → t.NK = s.NK ∧ t.NR = s.NR ∧ t.statusByte = s.statusByte ∧ t.ERR = s.ERR ∧ t.PH = s.PH ∧
        t.CMDR = s.CMDR)) ∧
    (∀ w b x rest, s.turns = .unit w b x :: rest →
      t = { s with turns := rest, unitByteIn := b, unitWordIn := x, unitOut := t.unitOut })

/-! ## Commands (45_cipher_drivers.md) and errors (60_exceptions.md) -/

/-- Command acceptance (rule R154): for each of the four commands, while `BUSY = 0`, exactly these registers change. -/
def Obligations.CommandAcceptanceStartsTheSequence : Prop :=
  ∀ s : State, s.BUSY = false →
    ∀ i ∈ [Instr.enc, .dec, .kexp, .kexpi],
      exec i s = .next { s with
        DONE := false, ERR := .none, OUT_VALID := false, SCHED := .none, NK := 0, NR := 0,
        CMDR := (encode i).extractLsb' 8 8, BUSY := true, PH := .check }

/-- A byte written to `CMD` that names no command raises `IllegalCommand`: `STATUS` reads 0x02 and `ERR` 4 at once, the
previous results are discarded, `CMDR` is not changed and no micro-operation runs (rules R154, R178). -/
def Obligations.IllegalCommandByteEntersTheError : Prop :=
  ∀ (s : State) (v : Byte) (rest : List Turn), s.BUSY = false → s.turns = .hostWrite 0x000 v :: rest →
    v ∉ [0x01, 0x02, 0x03, 0x04] →
    ∃ t, step s = .next t ∧
      t = { s with
        turns := rest, ERR := .illegalCommand, DONE := true, BUSY := false, OUT_VALID := false, SCHED := .none,
        NK := 0, NR := 0, PH := .idle } ∧
      memRead 0x001 t = 0x02 ∧ memRead 0x002 t = 4 ∧ t.resultsHidden

/-- `CHK` (rule R116, with the order of rule R180): the block test comes first, for `ENC` and `DEC` only; then the key
length; if both pass nothing is written and the sequencer goes on to phase `KLOAD`. -/
def Obligations.ChkTestsBlockLengthThenKeyLength : Prop :=
  encode .chk = 0x1000 ∧ (∀ c : Byte, issue .check c = some 0x1000) ∧
  (∀ s : State, (s.CMDR = 0x01 ∨ s.CMDR = 0x02) → s.BLEN ≠ 16 →
    exec .chk s = .next (errorEntry .invalidBlockLength s)) ∧
  (∀ s : State, ((s.CMDR ≠ 0x01 ∧ s.CMDR ≠ 0x02) ∨ s.BLEN = 16) →
    s.KLEN ≠ 16 → s.KLEN ≠ 24 → s.KLEN ≠ 32 → exec .chk s = .next (errorEntry .invalidKeyLength s)) ∧
  (∀ s : State, ((s.CMDR ≠ 0x01 ∧ s.CMDR ≠ 0x02) ∨ s.BLEN = 16) →
    (s.KLEN = 16 ∨ s.KLEN = 24 ∨ s.KLEN = 32) →
    exec .chk s = .next s ∧
    (s.BUSY = true → s.PH = .check → s.CMDR ∈ [0x01, 0x02, 0x03, 0x04] → s.turns = [] →
      step s = .next { s with PH := .kload }))

/-- The error entry (rule R176): whatever raises, exactly these registers change and the failing operation performs none
of its writes: the write of an illegal command byte, `CHK` with a bad length, and a matrix product on the state or on a
round key whose matrix holds an unsupported constant. -/
def Obligations.EveryRaiseIsTheErrorEntry : Prop :=
  (∀ (e : ErrCode) (s : State), errorEntry e s = { s with
    ERR := e, DONE := true, BUSY := false, OUT_VALID := false, SCHED := .none, NK := 0, NR := 0, PH := .idle } ∧
    memRead 0x001 (errorEntry e s) = 0x02 ∧ memRead 0x002 (errorEntry e s) = e.code ∧
    (errorEntry e s).resultsHidden) ∧
  (∀ (s : State) (v : Byte), s.BUSY = false → v ∉ [0x01, 0x02, 0x03, 0x04] →
    memWrite 0x000 v s = errorEntry .illegalCommand s) ∧
  (∀ (i : Instr) (s t : State), exec i s = .next t → t.ERR ≠ s.ERR → i.format ≠ .command →
    i = .chk ∧ t = errorEntry t.ERR s ∧ (t.ERR.code = 1 ∨ t.ERR.code = 2)) ∧
  (∀ (m : Mat) (s : State), (∃ r c : Fin 4, m[r][c] ∉ [1, 2, 3, 9, 11, 13, 14]) →
    mixState m s = .next (errorEntry .unsupportedFieldMultiplier s) ∧
    (s.RND.toNat ≤ 14 → convertState m s = .next (errorEntry .unsupportedFieldMultiplier s))) ∧
  (∀ (s t : State), s.PH = .check → s.BUSY = true → s.turns = [] → step s = .next t → t.ERR ≠ s.ERR →
    t = errorEntry t.ERR s)

/-- `ERR` and `DONE` stay set until the next write to `CMD` or reset (rule R182): from an idle core no other turn changes
them. An idle core raises nothing (rule R183): an error is only ever entered by the write of an illegal command byte while
`BUSY = 0`, or in the `CHECK` step of a running command, by `CHK` (rule R180: the third error never). -/
def Obligations.ErrorStaysUntilTheNextCommand : Prop :=
  ∀ s t : State, step s = .next t →
    (s.BUSY = false → (∀ rest, s.turns ≠ .hostReset :: rest) → (∀ v rest, s.turns ≠ .hostWrite 0x000 v :: rest) →
      t.ERR = s.ERR ∧ t.DONE = s.DONE ∧ t.BUSY = false) ∧
    (t.ERR ≠ s.ERR → t.ERR ≠ .none → t.BUSY = false ∧ t.DONE = true) ∧
    (t.ERR ≠ s.ERR → t.ERR ≠ .none →
      (t.ERR.code = 4 ∧ s.BUSY = false ∧
        ∃ v rest, s.turns = .hostWrite 0x000 v :: rest ∧ v ∉ [0x01, 0x02, 0x03, 0x04]) ∨
      ((t.ERR.code = 1 ∨ t.ERR.code = 2) ∧ s.BUSY = true ∧ s.PH = .check))

/-- Where the meanings refuse, and that they refuse nowhere else: a register state that rule R40 rules out (U6; assumption
10) or a table index with no entry (rule R78, U4; assumption 11). That a model stops there by name is the model's form of
'refuse'. -/
def Obligations.RefusesOnlyOutsideReachableStates : Prop :=
  (∀ s : State, s.KLEN ∉ [16, 24, 32] → exec .kload s = .refused .unreachableState) ∧
  (∀ s : State, (s.NK ∉ [4, 6, 8] ∨ s.KI.toNat < s.NK.toNat ∨ 60 ≤ s.KI.toNat) →
    exec .kstep s = .refused .unreachableState) ∧
  (∀ s : State, s.RND = 15 →
    exec .kinvr s = .refused .unreachableState ∧ exec .ark s = .refused .unreachableState) ∧
  (∀ (s : State) (j : Byte), 13 < j.toNat → exec (.rcon j) s = .refused (.rconIndexOutOfTable j)) ∧
  (∀ (s : State) (i : Instr) (r : Refusal), exec i s = .refused r →
    (i = .kload ∧ r = .unreachableState ∧ s.KLEN ∉ [16, 24, 32]) ∨
    (i = .kstep ∧ r = .unreachableState ∧ (s.NK ∉ [4, 6, 8] ∨ s.KI.toNat < s.NK.toNat ∨ 60 ≤ s.KI.toNat)) ∨
    ((i = .kinvr ∨ i = .ark) ∧ r = .unreachableState ∧ s.RND = 15) ∨
    ∃ j : Byte, i = .rcon j ∧ r = .rconIndexOutOfTable j ∧ 13 < j.toNat)

/-! ## Key schedule (42_key_schedule.md) -/

/-- `KLOAD` (rules R115, R117): the first `Nk` words are the key, lowest byte first; `NK`, `NR`, `KI` are set; no other
word and no other register changes. -/
def Obligations.KloadSplitsTheKeyIntoWords : Prop :=
  encode .kload = 0x2000 ∧ (∀ c : Byte, issue .kload c = some 0x2000) ∧
  ∀ (s : State) (len nk nr : Nat), s.KLEN.toNat = len → (len, nk, nr) ∈ [(16, 4, 10), (24, 6, 12), (32, 8, 14)] →
    ∃ t, exec .kload s = .next t ∧ t.NK.toNat = nk ∧ t.NR.toNat = nr ∧ t.KI.toNat = nk ∧
      (∀ (j : Fin 8) (b : Fin 4), j.val < nk → t.W[j.val][b] = s.KEYBUF[4 * j.val + b.val]) ∧
      (∀ j : Fin 60, nk ≤ j.val → t.W[j] = s.W[j]) ∧
      t = { s with NK := t.NK, NR := t.NR, KI := t.KI, W := t.W }

/-- `KSTEP` (rule R118), with its three branches written out byte by byte, and its frame. -/
def Obligations.KstepComputesOneScheduleWord : Prop :=
  encode .kstep = 0x2100 ∧ (∀ c : Byte, issue .kexp c = some 0x2100) ∧
  ∀ (s : State) (i nk : Nat) (hi : i < 60) (hn : nk ≤ i), s.KI.toNat = i → s.NK.toNat = nk → nk ∈ [4, 6, 8] →
    ∃ t, exec .kstep s = .next t ∧ t.KI.toNat = i + 1 ∧
      (∀ j : Fin 60, j.val ≠ i → t.W[j] = s.W[j]) ∧
      t = { s with W := t.W, KI := t.KI } ∧
      (i % nk = 0 → ∃ c, rcon (i / nk - 1) = some c ∧
        t.W[i][0] = s.W[i - nk][0] ^^^ (sbox s.W[i - 1][1] ^^^ c) ∧
        t.W[i][1] = s.W[i - nk][1] ^^^ sbox s.W[i - 1][2] ∧
        t.W[i][2] = s.W[i - nk][2] ^^^ sbox s.W[i - 1][3] ∧
        t.W[i][3] = s.W[i - nk][3] ^^^ sbox s.W[i - 1][0]) ∧
      (i % nk ≠ 0 → nk > 6 → i % nk = 4 →
        ∀ b : Fin 4, t.W[i][b] = s.W[i - nk][b] ^^^ sbox s.W[i - 1][b]) ∧
      (i % nk ≠ 0 → ¬(nk > 6 ∧ i % nk = 4) →
        ∀ b : Fin 4, t.W[i][b] = s.W[i - nk][b] ^^^ s.W[i - 1][b])

/-- `KINVR` (rules R119, R143): each word of round key `RND` is multiplied by the inverse mix matrix, the product being
the general field product of rule R101; no other word and no other register changes. -/
def Obligations.KinvrMultipliesOneRoundKey : Prop :=
  encode .kinvr = 0x2200 ∧ (∀ c : Byte, issue .kinv c = some 0x2200) ∧
  ∀ s : State, s.RND.toNat ≤ 14 →
    ∃ t, exec .kinvr s = .next t ∧ t = { s with W := t.W } ∧
      (∀ j : Fin 60, j.val / 4 ≠ s.RND.toNat → t.W[j] = s.W[j]) ∧
      (∀ j : Fin 60, j.val / 4 = s.RND.toNat → ∀ r : Fin 4,
        t.W[j][r] = gfProduct s.W[j][0] invMixMatrix[r][0] ^^^ gfProduct s.W[j][1] invMixMatrix[r][1] ^^^
          gfProduct s.W[j][2] invMixMatrix[r][2] ^^^ gfProduct s.W[j][3] invMixMatrix[r][3])

/-! ## State codec (43_state_codec.md) -/

/-- `LDST` and `STST` (rules R131, R133): byte `i` of the block is row `i mod 4`, column `i div 4` of the state; nothing
else changes. -/
def Obligations.LoadAndStoreAreColumnMajor : Prop :=
  encode .ldst = 0x3000 ∧ (∀ c : Byte, issue .load c = some 0x3000) ∧
  encode .stst = 0x3100 ∧ (∀ c : Byte, issue .store c = some 0x3100) ∧
  (∀ s : State, ∃ t, exec .ldst s = .next t ∧ t = { s with S := t.S } ∧
    ∀ i : Fin 16, t.S[i.val % 4][i.val / 4] = s.DIN[i]) ∧
  (∀ s : State, ∃ t, exec .stst s = .next t ∧ t = { s with DOUT := t.DOUT } ∧
    ∀ i : Fin 16, t.DOUT[i] = s.S[i.val % 4][i.val / 4])

/-- The two codecs are inverse to each other (rules R130, R132), and the round-key matrix (rule R134) has word `4r+c` as
column `c`, so it is the matrix of the round key's 16 bytes in schedule order. -/
def Obligations.CodecsInvertAndRoundKeysAreColumnMajor : Prop :=
  (∀ b : Block, matrixToBlock (blockToMatrix b) = b) ∧ (∀ m : Mat, blockToMatrix (matrixToBlock m) = m) ∧
  ∀ (w : Vector Word 60) (r : Nat) (h : r < 15),
    (∀ row c : Fin 4, (roundKey w r h)[row][c] = w[4 * r + c.val][row]) ∧
    roundKey w r h = blockToMatrix (blockOfWords w[4 * r] w[4 * r + 1] w[4 * r + 2] w[4 * r + 3])

/-! ## Round transforms (44_round_transforms.md) -/

/-- `SUBB` and `ISUBB` (rules R139, R140): every byte replaced through its table, nothing else changed; with the word and
the phase in which it is issued. -/
def Obligations.SubBytesReplacesEveryByte : Prop :=
  encode .subb = 0x4100 ∧ issue .sub 0x01 = some 0x4100 ∧ encode .isubb = 0x5100 ∧ issue .sub 0x02 = some 0x5100 ∧
  (∀ s : State, ∃ t, exec .subb s = .next t ∧ t = { s with S := t.S } ∧
    ∀ r c : Fin 4, t.S[r][c] = sbox s.S[r][c]) ∧
  (∀ s : State, ∃ t, exec .isubb s = .next t ∧ t = { s with S := t.S } ∧
    ∀ r c : Fin 4, t.S[r][c] = isbox s.S[r][c])

/-- `SHROW` and `ISHROW` (rules R141, R142): row `r` rotates left or right by `r`; in block terms new byte `i` is old byte
`(i + 4*(i mod 4)) mod 16`, and the inverse puts it back. -/
def Obligations.ShiftRowsRotatesRows : Prop :=
  encode .shrow = 0x4200 ∧ issue .shift 0x01 = some 0x4200 ∧ encode .ishrow = 0x5200 ∧
  issue .shift 0x02 = some 0x5200 ∧
  (∀ s : State, ∃ t, exec .shrow s = .next t ∧ t = { s with S := t.S } ∧
    (∀ r c : Fin 4, t.S[r][c] = s.S[r][(c.val + r.val) % 4]) ∧
    (∀ i : Fin 16, (matrixToBlock t.S)[i] = (matrixToBlock s.S)[(i.val + 4 * (i.val % 4)) % 16])) ∧
  (∀ s : State, ∃ t, exec .ishrow s = .next t ∧ t = { s with S := t.S } ∧
    (∀ r c : Fin 4, t.S[r][(c.val + r.val) % 4] = s.S[r][c]) ∧
    (∀ i : Fin 16, (matrixToBlock t.S)[(i.val + 4 * (i.val % 4)) % 16] = (matrixToBlock s.S)[i]))

/-- `MIXC` and `IMIXC` (rules R143, R144, R145): every column is the matrix-vector product over the field, computed with
the general field product of rule R101; nothing else changes and nothing raises. The two matrices are those of rule R106,
row by row, and the column of `MIXC` is also written out as rule R143 has it. -/
def Obligations.MixColumnsIsTheFieldProduct : Prop :=
  encode .mixc = 0x4300 ∧ issue .mix 0x01 = some 0x4300 ∧ encode .imixc = 0x5300 ∧ issue .mix 0x02 = some 0x5300 ∧
  mixMatrix.toList.map Vector.toList = [[2, 3, 1, 1], [1, 2, 3, 1], [1, 1, 2, 3], [3, 1, 1, 2]] ∧
  invMixMatrix.toList.map Vector.toList = [[14, 11, 13, 9], [9, 14, 11, 13], [13, 9, 14, 11], [11, 13, 9, 14]] ∧
  (∀ (s t : State) (c : Fin 4), exec .mixc s = .next t →
    t.S[0][c] = gfProduct s.S[0][c] 2 ^^^ gfProduct s.S[1][c] 3 ^^^ s.S[2][c] ^^^ s.S[3][c] ∧
    t.S[1][c] = s.S[0][c] ^^^ gfProduct s.S[1][c] 2 ^^^ gfProduct s.S[2][c] 3 ^^^ s.S[3][c] ∧
    t.S[2][c] = s.S[0][c] ^^^ s.S[1][c] ^^^ gfProduct s.S[2][c] 2 ^^^ gfProduct s.S[3][c] 3 ∧
    t.S[3][c] = gfProduct s.S[0][c] 3 ^^^ s.S[1][c] ^^^ s.S[2][c] ^^^ gfProduct s.S[3][c] 2) ∧
  (∀ s : State, ∃ t, exec .mixc s = .next t ∧ t = { s with S := t.S } ∧
    ∀ r c : Fin 4, t.S[r][c] =
      gfProduct s.S[0][c] mixMatrix[r][0] ^^^ gfProduct s.S[1][c] mixMatrix[r][1] ^^^
        gfProduct s.S[2][c] mixMatrix[r][2] ^^^ gfProduct s.S[3][c] mixMatrix[r][3]) ∧
  (∀ s : State, ∃ t, exec .imixc s = .next t ∧ t = { s with S := t.S } ∧
    ∀ r c : Fin 4, t.S[r][c] =
      gfProduct s.S[0][c] invMixMatrix[r][0] ^^^ gfProduct s.S[1][c] invMixMatrix[r][1] ^^^
        gfProduct s.S[2][c] invMixMatrix[r][2] ^^^ gfProduct s.S[3][c] invMixMatrix[r][3])

/-- `ARK` (rule R146): byte `(r, c)` of the state is XORed with byte `r` of word `4*RND + c`; nothing else changes; the
word is issued in phases `ARK0` and `ARK` for both commands. -/
def Obligations.AddRoundKeyXorsTheRoundKey : Prop :=
  encode .ark = 0x4000 ∧ (∀ c : Byte, issue .ark0 c = some 0x4000 ∧ issue .ark c = some 0x4000) ∧
  ∀ (s : State) (n : Nat) (hn : n < 15), s.RND.toNat = n →
    ∃ t, exec .ark s = .next t ∧ t = { s with S := t.S } ∧
      ∀ r c : Fin 4, t.S[r][c] = s.S[r][c] ^^^ s.W[4 * n + c.val][r]

/-- Lane structure (rule R138): `SUBB`, `ISUBB` and `ARK` act lane by lane, `SHROW` and `ISHROW` permute lanes within a
row, `MIXC` and `IMIXC` act column by column. Two states with the same schedule and round are compared. -/
def Obligations.LanesDependOnlyOnTheirOwn : Prop :=
  ∀ (s s' : State), s.W = s'.W → s.RND = s'.RND →
    (∀ i ∈ [Instr.subb, .isubb, .ark], ∀ t t' r c, exec i s = .next t → exec i s' = .next t' →
      ∀ (hr : r < 4) (hc : c < 4), s.S[r][c] = s'.S[r][c] → t.S[r][c] = t'.S[r][c]) ∧
    (∀ i ∈ [Instr.shrow, .ishrow], ∀ t, exec i s = .next t →
      ∀ r : Fin 4, ∃ p : Fin 4 → Fin 4, (∀ a b, p a = p b → a = b) ∧ ∀ c : Fin 4, t.S[r][c] = s.S[r][p c]) ∧
    (∀ i ∈ [Instr.mixc, .imixc], ∀ t t', exec i s = .next t → exec i s' = .next t' →
      ∀ c : Fin 4, (∀ r : Fin 4, s.S[r][c] = s'.S[r][c]) → ∀ r : Fin 4, t.S[r][c] = t'.S[r][c])

/-- Each transform is undone by its inverse and `ARK` by itself, in both orders and with the whole state restored;
substitution and row shift commute; the mix is linear (rule R147). -/
def Obligations.RoundTransformsUndoEachOther : Prop :=
  (∀ p ∈ [(Instr.subb, Instr.isubb), (.isubb, .subb), (.shrow, .ishrow), (.ishrow, .shrow), (.mixc, .imixc),
      (.imixc, .mixc)], ∀ s : State, ∃ t, exec p.1 s = .next t ∧ exec p.2 t = .next s) ∧
  (∀ s : State, s.RND.toNat ≤ 14 → ∃ t, exec .ark s = .next t ∧ exec .ark t = .next s) ∧
  (∀ p ∈ [(Instr.subb, Instr.shrow), (.isubb, .ishrow)], ∀ s : State, ∃ t u v,
    exec p.1 s = .next t ∧ exec p.2 t = .next u ∧ exec p.2 s = .next v ∧ exec p.1 v = .next u) ∧
  (∀ (u v a b : Word) (m : Mat), mixColumn u m = some a → mixColumn v m = some b →
    mixColumn (xorWord u v) m = some (xorWord a b)) ∧
  (∀ a b k k' : Mat, mixColumns a invMixMatrix = some b → mixColumns k invMixMatrix = some k' →
    mixColumns (xorMat a k) invMixMatrix = some (xorMat b k'))

/-- The two mix matrices are inverse over the field, for every 4-vector (rule R148). -/
def Obligations.MixMatricesAreInverse : Prop :=
  ∀ v : Word,
    (∃ u, mixColumn v mixMatrix = some u ∧ mixColumn u invMixMatrix = some v) ∧
    (∃ u, mixColumn v invMixMatrix = some u ∧ mixColumn u mixMatrix = some v)

/-! ## Field arithmetic and tables (40_gf_arithmetic.md, 41_constant_tables.md) -/

/-- `XTIME` (rule R91): twice the byte, and 0x1B folded in when bit 7 was set; no register changes. -/
def Obligations.XtimeDoublesInTheField : Prop :=
  encode .xtime = 0x6000 ∧
  ∀ s : State, ∃ b, exec .xtime s = .next { s with unitOut := .byte b } ∧
    (s.unitByteIn.toNat < 128 → b.toNat = 2 * s.unitByteIn.toNat) ∧
    (128 ≤ s.unitByteIn.toNat → b = BitVec.ofNat 8 (2 * s.unitByteIn.toNat - 256) ^^^ 0x1B)

/-- `GFMUL k` (rules R92, R95): for a supported constant the field product; for any other constant no result but the
raise of `UnsupportedFieldMultiplier`. No register changes: the error entry is that of the micro-operation that invoked
the multiplier (rule R177; that a raise standing alone ends nothing is assumption 2). -/
def Obligations.GfmulMultipliesOrRaises : Prop :=
  (∀ k : Byte, (encode (.gfmul k)).toNat = 0x6100 + k.toNat) ∧
  ∀ (s : State) (k : Byte),
    (k ∈ [1, 2, 3, 9, 11, 13, 14] →
      exec (.gfmul k) s = .next { s with unitOut := .byte (gfProduct s.unitByteIn k) }) ∧
    (k ∉ [1, 2, 3, 9, 11, 13, 14] →
      exec (.gfmul k) s = .next { s with unitOut := .raised .unsupportedFieldMultiplier })

/-- Laws of the field (rules R93, R94 items 3 to 6): the addition chains compute the products for every byte, doubling and
multiplication by a constant are linear and injective, and the powers of 2 are the Rcon values. -/
def Obligations.FieldLawsAndAdditionChainsHold : Prop :=
  (∀ b : Byte,
    mul b 1 = some b ∧ mul b 2 = some (xtime b) ∧ mul b 3 = some (xtime b ^^^ b) ∧
    mul b 9 = some (xtime (xtime (xtime b)) ^^^ b) ∧
    mul b 11 = some (xtime (xtime (xtime b) ^^^ b) ^^^ b) ∧
    mul b 13 = some (xtime (xtime (xtime b ^^^ b)) ^^^ b) ∧
    mul b 14 = some (xtime (xtime (xtime b ^^^ b) ^^^ b))) ∧
  (∀ a b : Byte, xtime (a ^^^ b) = xtime a ^^^ xtime b) ∧ xtime 0x00 = 0x00 ∧
  (∀ a b k x y z : Byte, mul a k = some x → mul b k = some y → mul (a ^^^ b) k = some z → z = x ^^^ y) ∧
  (∀ a b k x : Byte, mul a k = some x → mul b k = some x → a = b) ∧
  (∃ b : Byte, xtimeN 8 b ≠ b) ∧
  (∀ j : Fin 14, rcon j.val = some (xtimeN j.val 0x01))

/-- `MixColumn(v, M)` has no result exactly when some entry of `M` is unsupported, that is when some `GFMUL M[r][c]`
raises (rules R143, R177), so the two matrices of rule R106 never raise and no step of the machine enters error 3. -/
def Obligations.MixColumnFailsExactlyOnUnsupportedEntries : Prop :=
  (∀ (v : Word) (m : Mat), mixColumn v m = none ↔ ∃ r c : Fin 4, m[r][c] ∉ [1, 2, 3, 9, 11, 13, 14]) ∧
  (∀ (v : Word) (m : Mat) (s : State), mixColumn v m = none ↔ ∃ r c : Fin 4,
    exec (.gfmul m[r][c]) s = .next { s with unitOut := .raised .unsupportedFieldMultiplier }) ∧
  (∀ v : Word, mixColumn v mixMatrix ≠ none ∧ mixColumn v invMixMatrix ≠ none) ∧
  (∀ (i : Instr) (s t : State), exec i s = .next t → t.ERR = .unsupportedFieldMultiplier → t.ERR = s.ERR) ∧
  (∀ s t : State, step s = .next t → t.ERR = .unsupportedFieldMultiplier → t.ERR = s.ERR)

/-- `SBOX` and `ISBOX` on the function unit (rules R100, R102): each looks its byte up, high nibble the row and low nibble
the column; no register changes; each undoes the other. -/
def Obligations.SboxAndIsboxLookUpAndInvert : Prop :=
  encode .sbox = 0x7000 ∧ encode .isbox = 0x7100 ∧
  (∀ s : State, exec .sbox s = .next { s with
    unitOut := .byte sboxTable[s.unitByteIn.toNat / 16][s.unitByteIn.toNat % 16] }) ∧
  (∀ s : State, exec .isbox s = .next { s with
    unitOut := .byte isboxTable[s.unitByteIn.toNat / 16][s.unitByteIn.toNat % 16] }) ∧
  (∀ p ∈ [(Instr.sbox, Instr.isbox), (.isbox, .sbox)], ∀ (s t u : State) (b : Byte),
    exec p.1 s = .next t → t.unitOut = .byte b → exec p.2 { t with unitByteIn := b } = .next u →
    u.unitOut = .byte s.unitByteIn)

/-- The S-box table is the construction of rule R101: the field inverse followed by the affine map, every non-zero byte
having exactly one inverse. -/
def Obligations.SboxIsInverseThenAffine : Prop :=
  sbox 0x00 = sboxAffine 0x00 ∧
  (∀ a : Byte, a ≠ 0x00 → ∃ v : Byte, gfProduct a v = 0x01) ∧
  (∀ a v : Byte, gfProduct a v = 0x01 → sbox a = sboxAffine v ∧ ∀ v', gfProduct a v' = 0x01 → v' = v)

/-- `RCON j` on the function unit (rule R103): the field element `2^j`, for each of the 14 entries; no register changes. -/
def Obligations.RconIsThePowerOfTwo : Prop :=
  (∀ j : Byte, (encode (.rcon j)).toNat = 0x7200 + j.toNat) ∧
  (∀ (s : State) (j : Byte), j.toNat ≤ 13 →
    exec (.rcon j) s = .next { s with unitOut := .byte (xtimeN j.toNat 0x01) }) ∧
  (∀ j : Nat, j ≤ 13 → ∃ c, rcon j = some c ∧ rconWord j = some #v[c, 0x00, 0x00, 0x00])

/-- `ROTW` and `SUBW` on the function unit (rules R104, R105): the rotation by one byte toward index 0 and the forward
S-box on each byte; no register changes. -/
def Obligations.RotwAndSubwActOnBytes : Prop :=
  encode .rotw = 0x7300 ∧ encode .subw = 0x7400 ∧
  (∀ s : State, ∃ w : Word, exec .rotw s = .next { s with unitOut := .word w } ∧
    ∀ b : Fin 4, w[b] = s.unitWordIn[(b.val + 1) % 4]) ∧
  (∀ s : State, ∃ w : Word, exec .subw s = .next { s with unitOut := .word w } ∧
    ∀ b : Fin 4, w[b] = sbox s.unitWordIn[b])

/-- The micro-operations compute with the function unit's operations (rule R73): a byte of `SUBB`/`ISUBB` is what
`SBOX`/`ISBOX` drives, a byte of `MIXC`/`IMIXC` is the XOR of four `GFMUL` results, and the word of a first-branch
`KSTEP` is `W[i-NK]` XOR the results of `ROTW`, `SUBW` and `RCON`. -/
def Obligations.MicroOperationsUseTheFunctionUnit : Prop :=
  (∀ p ∈ [(Instr.subb, Instr.sbox), (.isubb, .isbox)], ∀ (s t u : State) (r c : Fin 4),
    exec p.1 s = .next t → exec p.2 { s with unitByteIn := s.S[r][c] } = .next u → u.unitOut = .byte t.S[r][c]) ∧
  (∀ p ∈ [(Instr.mixc, mixMatrix), (.imixc, invMixMatrix)],
    ∀ (s t : State) (u : Fin 4 → State) (b : Fin 4 → Byte) (r c : Fin 4), exec p.1 s = .next t →
    (∀ j : Fin 4, exec (.gfmul p.2[r][j]) { s with unitByteIn := s.S[j][c] } = .next (u j)) →
    (∀ j : Fin 4, (u j).unitOut = .byte (b j)) → t.S[r][c] = b 0 ^^^ b 1 ^^^ b 2 ^^^ b 3) ∧
  (∀ (s t a b c : State) (rot sub : Word) (con : Byte) (i nk : Nat) (hi : i < 60) (hn : nk ≤ i),
    s.KI.toNat = i → s.NK.toNat = nk → i % nk = 0 → exec .kstep s = .next t →
    exec .rotw { s with unitWordIn := s.W[i - 1] } = .next a → a.unitOut = .word rot →
    exec .subw { s with unitWordIn := rot } = .next b → b.unitOut = .word sub →
    exec (.rcon (BitVec.ofNat 8 (i / nk - 1))) s = .next c → c.unitOut = .byte con →
    t.W[i] = xorWord s.W[i - nk] (xorWord sub #v[con, 0x00, 0x00, 0x00]))

/-! ## The sequencer (45_cipher_drivers.md) -/

/-- The transition table (rules R159, R160): after the issued micro-operation has run without raising, exactly these
sequencing registers change, phase by phase. `u` is the state the micro-operation leaves. -/
def Obligations.TransitionTableNamesTheNextPhase : Prop :=
  ∀ (s u : State) (i : Instr), s.BUSY = true → s.turns = [] → s.phaseReachable = true →
    issuedOp s = some i → exec i s = .next u → u.BUSY = true →
    (s.PH = .check → step s = .next { u with PH := .kload }) ∧
    (s.PH = .kload → step s = .next { u with PH := .kexp }) ∧
    (s.PH = .kexp → u.KI.toNat = 4 * (u.NR.toNat + 1) →
      (s.CMDR = 0x03 → step s = .next { u with
        OUT_VALID := false, SCHED := .forward, BUSY := false, DONE := true, PH := .idle }) ∧
      (s.CMDR = 0x01 → step s = .next { u with PH := .load }) ∧
      (s.CMDR = 0x02 ∨ s.CMDR = 0x04 → step s = .next { u with RND := 1, PH := .kinv })) ∧
    (s.PH = .kexp → u.KI.toNat ≠ 4 * (u.NR.toNat + 1) → step s = .next u) ∧
    (s.PH = .kinv → s.RND = s.NR - 1 →
      (s.CMDR = 0x04 → step s = .next { u with
        OUT_VALID := false, SCHED := .inverse, BUSY := false, DONE := true, PH := .idle }) ∧
      (s.CMDR = 0x02 → step s = .next { u with PH := .load })) ∧
    (s.PH = .kinv → s.RND ≠ s.NR - 1 → step s = .next { u with RND := s.RND + 1 }) ∧
    (s.PH = .load → step s = .next { u with RND := if s.CMDR = 0x01 then 0 else s.NR, PH := .ark0 }) ∧
    (s.PH = .ark0 → step s = .next { u with RND := if s.CMDR = 0x01 then 1 else s.NR - 1, PH := .sub }) ∧
    (s.PH = .sub → step s = .next { u with PH := .shift }) ∧
    (s.PH = .shift →
      ((s.CMDR = 0x01 ∧ s.RND = s.NR) ∨ (s.CMDR = 0x02 ∧ s.RND = 0) → step s = .next { u with PH := .ark }) ∧
      ((s.CMDR = 0x01 ∧ s.RND ≠ s.NR) ∨ (s.CMDR = 0x02 ∧ s.RND ≠ 0) → step s = .next { u with PH := .mix })) ∧
    (s.PH = .mix → step s = .next { u with PH := .ark }) ∧
    (s.PH = .ark →
      ((s.CMDR = 0x01 ∧ s.RND = s.NR) ∨ (s.CMDR = 0x02 ∧ s.RND = 0) → step s = .next { u with PH := .store }) ∧
      (s.CMDR = 0x01 ∧ s.RND ≠ s.NR → step s = .next { u with RND := s.RND + 1, PH := .sub }) ∧
      (s.CMDR = 0x02 ∧ s.RND ≠ 0 → step s = .next { u with RND := s.RND - 1, PH := .sub })) ∧
    (s.PH = .store → step s = .next { u with
      OUT_VALID := true, SCHED := if s.CMDR = 0x01 then .forward else .inverse, BUSY := false, DONE := true,
      PH := .idle })

/-- `ENC` from acceptance to completion (rules R155, R161): with legal lengths the machine ends, after the steps of
rule R164, with `DOUT = Cipher(DIN, key)`, the forward schedule in `W` and the registers as the rule lists them; the
inputs keep their values. -/
def Obligations.EncComputesTheCipher : Prop :=
  ∀ s : State, s.ready → s.inputsLegal .enc →
    ∃ a t c ws, exec .enc s = .next a ∧ run (commandSteps .enc s.declaredNk s.declaredNr) a = .next t ∧
      cipher s.DIN s.key = some c ∧ expandKey s.key = some ws ∧
      t.DOUT = c ∧ wordsAgree t.W ws (4 * s.declaredNr + 4) ∧ ws.length = 4 * s.declaredNr + 4 ∧
      t.NK.toNat = s.declaredNk ∧ t.NR.toNat = s.declaredNr ∧ t.statusByte = 0x0E ∧ t.ERR = .none ∧ t.PH = .idle ∧
      t.RND = t.NR ∧ t.KI.toNat = 4 * (s.declaredNr + 1) ∧ t.S = blockToMatrix t.DOUT ∧ t.CMDR = 0x01 ∧
      t.KEYBUF = s.KEYBUF ∧ t.KLEN = s.KLEN ∧ t.DIN = s.DIN ∧ t.BLEN = s.BLEN

/-- `DEC` from acceptance to completion (rules R156, R162): `DOUT = InvCipher(DIN, key)` and the equivalent inverse
schedule in `W`. -/
def Obligations.DecComputesTheInverseCipher : Prop :=
  ∀ s : State, s.ready → s.inputsLegal .dec →
    ∃ a t c ws, exec .dec s = .next a ∧ run (commandSteps .dec s.declaredNk s.declaredNr) a = .next t ∧
      invCipher s.DIN s.key = some c ∧ expandKeyInv s.key = some ws ∧
      t.DOUT = c ∧ wordsAgree t.W ws (4 * s.declaredNr + 4) ∧ ws.length = 4 * s.declaredNr + 4 ∧
      t.NK.toNat = s.declaredNk ∧ t.NR.toNat = s.declaredNr ∧ t.statusByte = 0x16 ∧ t.ERR = .none ∧ t.PH = .idle ∧
      t.RND = 0 ∧ t.KI.toNat = 4 * (s.declaredNr + 1) ∧ t.S = blockToMatrix t.DOUT ∧ t.CMDR = 0x02 ∧
      t.KEYBUF = s.KEYBUF ∧ t.KLEN = s.KLEN ∧ t.DIN = s.DIN ∧ t.BLEN = s.BLEN

/-- `KEXP` from acceptance to completion (rules R157, R120): the forward schedule in `W`; `S`, `DOUT` and `RND` keep
their values and `DOUT` reads zeros. -/
def Obligations.KexpBuildsTheForwardSchedule : Prop :=
  ∀ s : State, s.ready → s.inputsLegal .kexp →
    ∃ a t ws, exec .kexp s = .next a ∧ run (commandSteps .kexp s.declaredNk s.declaredNr) a = .next t ∧
      expandKey s.key = some ws ∧ wordsAgree t.W ws (4 * s.declaredNr + 4) ∧ ws.length = 4 * s.declaredNr + 4 ∧
      t.NK.toNat = s.declaredNk ∧ t.NR.toNat = s.declaredNr ∧ t.statusByte = 0x0A ∧ t.ERR = .none ∧ t.PH = .idle ∧
      t.KI.toNat = 4 * (s.declaredNr + 1) ∧ t.S = s.S ∧ t.DOUT = s.DOUT ∧ t.RND = s.RND ∧ t.CMDR = 0x03 ∧
      (∀ j : Fin 60, 4 * s.declaredNr + 4 ≤ j.val → t.W[j] = s.W[j]) ∧
      t.KEYBUF = s.KEYBUF ∧ t.KLEN = s.KLEN ∧ t.DIN = s.DIN ∧ t.BLEN = s.BLEN

/-- `KEXPI` from acceptance to completion (rules R158, R121): the equivalent inverse schedule in `W`. -/
def Obligations.KexpiBuildsTheInverseSchedule : Prop :=
  ∀ s : State, s.ready → s.inputsLegal .kexpi →
    ∃ a t ws, exec .kexpi s = .next a ∧ run (commandSteps .kexpi s.declaredNk s.declaredNr) a = .next t ∧
      expandKeyInv s.key = some ws ∧ wordsAgree t.W ws (4 * s.declaredNr + 4) ∧ ws.length = 4 * s.declaredNr + 4 ∧
      t.NK.toNat = s.declaredNk ∧ t.NR.toNat = s.declaredNr ∧ t.statusByte = 0x12 ∧ t.ERR = .none ∧ t.PH = .idle ∧
      t.RND.toNat + 1 = s.declaredNr ∧ t.KI.toNat = 4 * (s.declaredNr + 1) ∧ t.S = s.S ∧ t.DOUT = s.DOUT ∧
      t.CMDR = 0x04 ∧ t.KEYBUF = s.KEYBUF ∧ t.KLEN = s.KLEN ∧ t.DIN = s.DIN ∧ t.BLEN = s.BLEN

/-- Step counts (rule R164): a successful command is busy for exactly the listed number of steps, one that fails in
`CHK` for one step, and an illegal command for none. -/
def Obligations.CommandsTakeTheListedSteps : Prop :=
  (∀ (s a : State) (i : Instr), i.format = .command → s.ready → s.inputsLegal i → exec i s = .next a →
    (∀ m, m < commandSteps i s.declaredNk s.declaredNr → ∃ u, run m a = .next u ∧ u.BUSY = true) ∧
    ∃ t, run (commandSteps i s.declaredNk s.declaredNr) a = .next t ∧ t.BUSY = false ∧ t.DONE = true ∧ t.ERR = .none) ∧
  (∀ (s a : State) (i : Instr), i.format = .command → s.ready → ¬s.inputsLegal i → exec i s = .next a →
    a.BUSY = true ∧ ∃ t, run 1 a = .next t ∧ t.BUSY = false ∧ t.DONE = true ∧ t.ERR ≠ .none) ∧
  (∀ (s : State) (v : Byte), s.BUSY = false → v ∉ [0x01, 0x02, 0x03, 0x04] → (memWrite 0x000 v s).BUSY = false) ∧
  ([Instr.kexp, .kexpi, .enc, .dec].map fun i => [4, 6, 8].map fun nk => commandSteps i nk (nk + 6)) =
    [[42, 48, 54], [51, 59, 67], [84, 98, 112], [93, 109, 125]]

/-- Command expansion (rule R82): the operations issued by an accepted command are the fixed sequence of the rule, and
`CHK` alone when it raises. -/
def Obligations.CommandsIssueTheirExpansion : Prop :=
  (∀ (s a : State) (i : Instr), i.format = .command → s.ready → s.inputsLegal i → exec i s = .next a →
    issuedOps (commandSteps i s.declaredNk s.declaredNr) a = commandOps i s.declaredNk s.declaredNr) ∧
  (∀ (s a : State) (i : Instr) (n : Nat), i.format = .command → s.ready → ¬s.inputsLegal i → exec i s = .next a →
    issuedOps (n + 1) a = [.chk])

/-- Round trip (rule R163): for every key of 16, 24 or 32 bytes and every block, each cipher undoes the other. -/
def Obligations.CiphersUndoEachOther : Prop :=
  ∀ (key : List Byte) (p : Block), key.length = 16 ∨ key.length = 24 ∨ key.length = 32 →
    (∃ c, cipher p key = some c ∧ invCipher c key = some p) ∧
    (∃ q, invCipher p key = some q ∧ cipher q key = some p)

/-! ## Whole-machine rules -/

/-- The invariant of rule R40 holds after reset. -/
def Obligations.ResetSatisfiesTheInvariant : Prop := Inv State.reset ∧ ScheduleInv State.reset

/-- Every step keeps the invariant (rule R40 items 1, 2, 3, 5, and the register part of item 4), from every state that
has it and whatever turn comes next. -/
def Obligations.EveryStepKeepsTheInvariant : Prop :=
  ∀ s t : State, Inv s → step s = .next t → Inv t

/-- Every step keeps the contents of the schedule memory in order (rule R40 item 4): what `W` holds is a part or the whole
of the schedule that the phase or `SCHED` names. -/
def Obligations.EveryStepKeepsTheSchedule : Prop :=
  ∀ s t : State, Inv s → ScheduleInv s → step s = .next t → ScheduleInv t

/-- Progress (rule R203): in a state that has the invariant the core, while busy, always has an enabled step, which needs
no host action; and no turn other than one of the function unit is ever refused. -/
def Obligations.BusyCoreAlwaysHasAStep : Prop :=
  ∀ s : State, Inv s →
    (s.BUSY = true → ∃ t, coreStep s = .next t) ∧
    ((∀ w b x rest, s.turns ≠ .unit w b x :: rest) → ∃ t, step s = .next t)

/-- Every running command ends (rules R165, R203): from a busy state that has the invariant, at most 125 steps of the core
alone lead to a state with `BUSY = 0` and `DONE = 1`, and then `ERR = 0` exactly if `SCHED` is set. -/
def Obligations.EveryRunningCommandEnds : Prop :=
  ∀ s : State, Inv s → s.BUSY = true → s.turns = [] →
    ∃ n t, n ≤ 125 ∧ run n s = .next t ∧ t.BUSY = false ∧ t.DONE = true ∧ (t.ERR = .none ↔ t.SCHED ≠ .none) ∧
      (t.OUT_VALID = true ↔ t.ERR = .none ∧ (s.CMDR = 0x01 ∨ s.CMDR = 0x02))

/-- Interleaving independence (rule R201): while the core stays busy, host reads and writes among its steps change
nothing: the registers are those of the core's steps alone. -/
def Obligations.InterleavingDoesNotChangeTheRun : Prop :=
  ∀ (s u : State) (ts : List Turn), s.BUSY = true → s.turns = ts → ts.all Turn.ordinary = true →
    run (ts.filter (· == .core)).length { s with turns := ts.filter (· == .core) } = .next u → u.BUSY = true →
    ∃ v, run ts.length s = .next v ∧ sameRegisters v u

/-- The path through the transition table depends on the command and the key length and never on key or block contents
(rule R159): two states that agree on the control registers step to states that agree on them. -/
def Obligations.ControlFlowIgnoresKeyAndBlockContents : Prop :=
  ∀ s s' t : State, sameControl s s' → step s = .next t → ∃ t', step s' = .next t' ∧ sameControl t t'

/-- Key bytes beyond the declared length never influence a command (rules R21, R200): while the core runs with a legal
key length, two states that differ only there step to states that differ only there. -/
def Obligations.KeyBytesBeyondTheLengthAreIgnored : Prop :=
  ∀ s s' t : State, keyLengthLegal s.KLEN = true → sameDeclaredKey s s' → coreStep s = .next t →
    ∃ t', coreStep s' = .next t' ∧ sameDeclaredKey t t'

/-- Instances are independent (rule R185): a step of one instance is a step of that instance's own state and leaves every
other instance as it is. -/
def Obligations.InstancesDoNotInteract : Prop :=
  ∀ (sys sys' : System) (k : Nat) (s : State), sys[k]? = some s → System.step k sys = .next sys' →
    (∃ t, step s = .next t ∧ sys'[k]? = some t) ∧ sys'.length = sys.length ∧ ∀ j, j ≠ k → sys'[j]? = sys[j]?
end

