-- ==== Sys2Proof/Laws/Gf.lean ====
section
/-! SUPPORT. Laws/Gf: the small lemmas of the field arithmetic and of the matrix product (rules R90 to R95, R143). -/

namespace Sys2Proof.Machine

/-! ### Linearity (rule R94 items 2 to 4) -/

theorem xtime_eq (b : Byte) : xtime b = (b <<< 1) ^^^ (if b.getLsbD 7 then 0x1B else 0x00) := by
  unfold xtime
  cases b.getLsbD 7 <;> simp

theorem xtime_xor (a b : Byte) : xtime (a ^^^ b) = xtime a ^^^ xtime b := by
  rw [xtime_eq, xtime_eq, xtime_eq, BitVec.shiftLeft_xor_distrib, BitVec.getLsbD_xor]
  generalize a <<< 1 = x
  generalize b <<< 1 = y
  generalize (0x1B : Byte) = c
  have h : ∀ x y z : Byte, x ^^^ (y ^^^ z) = y ^^^ (x ^^^ z) := fun x y z => by ac_rfl
  cases a.getLsbD 7 <;> cases b.getLsbD 7 <;> simp [BitVec.xor_assoc, h _ c]
  all_goals try ac_rfl

@[simp] theorem xtime_zero : xtime 0 = 0 := by decide

theorem xtimeN_xor (n : Nat) (a b : Byte) : xtimeN n (a ^^^ b) = xtimeN n a ^^^ xtimeN n b := by
  induction n with
  | zero => rfl
  | succ n ih => simp only [xtimeN, ih, xtime_xor]

theorem gfTerm_xor (n : Nat) (a b k : Byte) : gfTerm (a ^^^ b) k n = gfTerm a k n ^^^ gfTerm b k n := by
  unfold gfTerm
  split <;> simp [xtimeN_xor]

theorem foldl_gfTerm_xor (ns : List Nat) (a b k x y : Byte) :
    ns.foldl (fun r n => r ^^^ gfTerm (a ^^^ b) k n) (x ^^^ y) =
      ns.foldl (fun r n => r ^^^ gfTerm a k n) x ^^^ ns.foldl (fun r n => r ^^^ gfTerm b k n) y := by
  induction ns generalizing x y with
  | nil => rfl
  | cons n ns ih =>
    simp only [List.foldl_cons]
    rw [← ih, gfTerm_xor]
    congr 1
    ac_rfl

/-- The general field product is linear in its first operand. -/
theorem gfProduct_xor (a b k : Byte) : gfProduct (a ^^^ b) k = gfProduct a k ^^^ gfProduct b k := by
  have h := foldl_gfTerm_xor (List.range 8) a b k 0 0
  simpa [gfProduct] using h

@[simp] theorem gfProduct_one (b : Byte) : gfProduct b 1#8 = b := by
  simp [gfProduct, gfTerm, List.range_succ, xtimeN]

/-! ### The multiplier (rules R92, R95) -/

theorem mem_supported (k : Byte) :
    supportedMultipliers.contains k = true ↔
      k = 1 ∨ k = 2 ∨ k = 3 ∨ k = 9 ∨ k = 11 ∨ k = 13 ∨ k = 14 := by
  simp [supportedMultipliers]

/-- Everything `mul` can answer with a result: the field product, for a supported constant. -/
theorem mul_of_supported (b k : Byte) (h : supportedMultipliers.contains k = true) :
    mul b k = some (gfProduct b k) := by
  rw [mul, if_pos h]
  rw [mem_supported] at h
  rcases h with h | h | h | h | h | h | h <;> subst h <;> simp [gfProduct, gfTerm, List.range_succ]

theorem mul_of_unsupported (b k : Byte) (h : supportedMultipliers.contains k = false) : mul b k = none := by
  rw [mul, if_neg (by rw [h]; decide)]

theorem mul_eq_none_iff (b k : Byte) : mul b k = none ↔ supportedMultipliers.contains k = false := by
  unfold mul
  split <;> simp_all

/-! ### The matrix product (rule R143) -/

/-- Row times column with the general product: what `mixByte` answers when the row's constants are supported. -/
def rowProduct (v : Word) (row : Vector Byte 4) : Byte :=
  gfProduct v[0] row[0] ^^^ gfProduct v[1] row[1] ^^^ gfProduct v[2] row[2] ^^^ gfProduct v[3] row[3]

theorem mixByte_of_supported (v : Word) (row : Vector Byte 4)
    (h : ∀ i : Fin 4, supportedMultipliers.contains row[i] = true) : mixByte v row = some (rowProduct v row) := by
  have h0 : mul v[0] row[0] = _ := mul_of_supported _ _ (h 0)
  have h1 : mul v[1] row[1] = _ := mul_of_supported _ _ (h 1)
  have h2 : mul v[2] row[2] = _ := mul_of_supported _ _ (h 2)
  have h3 : mul v[3] row[3] = _ := mul_of_supported _ _ (h 3)
  simp only [mixByte, h0, h1, h2, h3]
  rfl

theorem mixColumn_of_supported (v : Word) (m : Mat)
    (h : ∀ r c : Fin 4, supportedMultipliers.contains m[r][c] = true) :
    mixColumn v m = some #v[rowProduct v m[0], rowProduct v m[1], rowProduct v m[2], rowProduct v m[3]] := by
  have h0 : mixByte v m[0] = _ := mixByte_of_supported v m[0] (h 0)
  have h1 : mixByte v m[1] = _ := mixByte_of_supported v m[1] (h 1)
  have h2 : mixByte v m[2] = _ := mixByte_of_supported v m[2] (h 2)
  have h3 : mixByte v m[3] = _ := mixByte_of_supported v m[3] (h 3)
  simp only [mixColumn, h0, h1, h2, h3]
  rfl

@[simp] theorem rotatedRows_get (top : Vector Byte 4) (r c : Nat) (hr : r < 4) (hc : c < 4) :
    (rotatedRows top)[r][c] = top[(c + 4 - r) % 4] := by
  simp [rotatedRows]

theorem mixMatrix_supported : ∀ r c : Fin 4, supportedMultipliers.contains mixMatrix[r][c] = true := by decide

theorem invMixMatrix_supported : ∀ r c : Fin 4, supportedMultipliers.contains invMixMatrix[r][c] = true := by decide

/-- The matrix product as a total function, for a matrix of supported constants. -/
def mixed (v : Word) (m : Mat) : Word :=
  #v[rowProduct v m[0], rowProduct v m[1], rowProduct v m[2], rowProduct v m[3]]

/-- `MixColumn(v, MIX)` always has a result (rules R95, R106). -/
theorem mixColumn_mix (v : Word) : mixColumn v mixMatrix = some (mixed v mixMatrix) :=
  mixColumn_of_supported v _ mixMatrix_supported

/-- `MixColumn(v, INVMIX)` always has a result (rules R95, R106). -/
theorem mixColumn_inv (v : Word) : mixColumn v invMixMatrix = some (mixed v invMixMatrix) :=
  mixColumn_of_supported v _ invMixMatrix_supported

/-- Every column of a matrix replaced by its product. -/
def mixedColumns (s m : Mat) : Mat :=
  ofColumns (mixed (column s 0) m) (mixed (column s 1) m) (mixed (column s 2) m) (mixed (column s 3) m)

theorem mixColumns_mix (s : Mat) : mixColumns s mixMatrix = some (mixedColumns s mixMatrix) := by
  simp [mixColumns, mixColumn_mix, mixedColumns]

theorem mixColumns_inv (s : Mat) : mixColumns s invMixMatrix = some (mixedColumns s invMixMatrix) := by
  simp [mixColumns, mixColumn_inv, mixedColumns]

/-- The conversion of a round key by `KINVR` always has a result (rule R119). -/
theorem convertRoundKey_inv (w : Vector Word 60) (r : Nat) (h : r < 15) :
    ∃ t, convertRoundKey w r h invMixMatrix = some t := by
  simp [convertRoundKey, mixColumn_inv]

/-! ### Reading entries of built matrices -/

@[simp] theorem matOf_get (f : Fin 4 → Fin 4 → Byte) (r c : Nat) (hr : r < 4) (hc : c < 4) :
    (matOf f)[r][c] = f ⟨r, hr⟩ ⟨c, hc⟩ := by
  simp [matOf]

theorem mat_ext (a b : Mat) (h : ∀ r c : Fin 4, a[r][c] = b[r][c]) : a = b := by
  ext r hr c hc : 2
  exact h ⟨r, hr⟩ ⟨c, hc⟩

end Sys2Proof.Machine
end

