-- ==== Sys2Proof/Laws/State.lean ====
section
/-! SUPPORT. Laws/State: one lemma per field for each shared update of State, true by unfolding, so that no later proof
unfolds a record update. -/

namespace Sys2Proof.Machine

/-! ### Fields after error entry (rule R176) -/

@[simp] theorem errorEntry_KEYBUF (e : ErrCode) (s : State) : (errorEntry e s).KEYBUF = s.KEYBUF := rfl
@[simp] theorem errorEntry_KLEN (e : ErrCode) (s : State) : (errorEntry e s).KLEN = s.KLEN := rfl
@[simp] theorem errorEntry_DIN (e : ErrCode) (s : State) : (errorEntry e s).DIN = s.DIN := rfl
@[simp] theorem errorEntry_BLEN (e : ErrCode) (s : State) : (errorEntry e s).BLEN = s.BLEN := rfl
@[simp] theorem errorEntry_DOUT (e : ErrCode) (s : State) : (errorEntry e s).DOUT = s.DOUT := rfl
@[simp] theorem errorEntry_S (e : ErrCode) (s : State) : (errorEntry e s).S = s.S := rfl
@[simp] theorem errorEntry_W (e : ErrCode) (s : State) : (errorEntry e s).W = s.W := rfl
@[simp] theorem errorEntry_NK (e : ErrCode) (s : State) : (errorEntry e s).NK = 0 := rfl
@[simp] theorem errorEntry_NR (e : ErrCode) (s : State) : (errorEntry e s).NR = 0 := rfl
@[simp] theorem errorEntry_BUSY (e : ErrCode) (s : State) : (errorEntry e s).BUSY = false := rfl
@[simp] theorem errorEntry_DONE (e : ErrCode) (s : State) : (errorEntry e s).DONE = true := rfl
@[simp] theorem errorEntry_OUT_VALID (e : ErrCode) (s : State) : (errorEntry e s).OUT_VALID = false := rfl
@[simp] theorem errorEntry_SCHED (e : ErrCode) (s : State) : (errorEntry e s).SCHED = .none := rfl
@[simp] theorem errorEntry_ERR (e : ErrCode) (s : State) : (errorEntry e s).ERR = e := rfl
@[simp] theorem errorEntry_PH (e : ErrCode) (s : State) : (errorEntry e s).PH = .idle := rfl
@[simp] theorem errorEntry_KI (e : ErrCode) (s : State) : (errorEntry e s).KI = s.KI := rfl
@[simp] theorem errorEntry_RND (e : ErrCode) (s : State) : (errorEntry e s).RND = s.RND := rfl
@[simp] theorem errorEntry_CMDR (e : ErrCode) (s : State) : (errorEntry e s).CMDR = s.CMDR := rfl
@[simp] theorem errorEntry_unitByteIn (e : ErrCode) (s : State) : (errorEntry e s).unitByteIn = s.unitByteIn := rfl
@[simp] theorem errorEntry_unitWordIn (e : ErrCode) (s : State) : (errorEntry e s).unitWordIn = s.unitWordIn := rfl
@[simp] theorem errorEntry_unitOut (e : ErrCode) (s : State) : (errorEntry e s).unitOut = s.unitOut := rfl
@[simp] theorem errorEntry_turns (e : ErrCode) (s : State) : (errorEntry e s).turns = s.turns := rfl
@[simp] theorem errorEntry_received (e : ErrCode) (s : State) : (errorEntry e s).received = s.received := rfl

/-! ### Fields after the clearing of rule R154 -/

@[simp] theorem clearResults_KEYBUF (s : State) : (clearResults s).KEYBUF = s.KEYBUF := rfl
@[simp] theorem clearResults_KLEN (s : State) : (clearResults s).KLEN = s.KLEN := rfl
@[simp] theorem clearResults_DIN (s : State) : (clearResults s).DIN = s.DIN := rfl
@[simp] theorem clearResults_BLEN (s : State) : (clearResults s).BLEN = s.BLEN := rfl
@[simp] theorem clearResults_DOUT (s : State) : (clearResults s).DOUT = s.DOUT := rfl
@[simp] theorem clearResults_S (s : State) : (clearResults s).S = s.S := rfl
@[simp] theorem clearResults_W (s : State) : (clearResults s).W = s.W := rfl
@[simp] theorem clearResults_NK (s : State) : (clearResults s).NK = 0 := rfl
@[simp] theorem clearResults_NR (s : State) : (clearResults s).NR = 0 := rfl
@[simp] theorem clearResults_BUSY (s : State) : (clearResults s).BUSY = s.BUSY := rfl
@[simp] theorem clearResults_DONE (s : State) : (clearResults s).DONE = false := rfl
@[simp] theorem clearResults_OUT_VALID (s : State) : (clearResults s).OUT_VALID = false := rfl
@[simp] theorem clearResults_SCHED (s : State) : (clearResults s).SCHED = .none := rfl
@[simp] theorem clearResults_ERR (s : State) : (clearResults s).ERR = .none := rfl
@[simp] theorem clearResults_PH (s : State) : (clearResults s).PH = s.PH := rfl
@[simp] theorem clearResults_KI (s : State) : (clearResults s).KI = s.KI := rfl
@[simp] theorem clearResults_RND (s : State) : (clearResults s).RND = s.RND := rfl
@[simp] theorem clearResults_CMDR (s : State) : (clearResults s).CMDR = s.CMDR := rfl
@[simp] theorem clearResults_unitByteIn (s : State) : (clearResults s).unitByteIn = s.unitByteIn := rfl
@[simp] theorem clearResults_unitWordIn (s : State) : (clearResults s).unitWordIn = s.unitWordIn := rfl
@[simp] theorem clearResults_unitOut (s : State) : (clearResults s).unitOut = s.unitOut := rfl
@[simp] theorem clearResults_turns (s : State) : (clearResults s).turns = s.turns := rfl
@[simp] theorem clearResults_received (s : State) : (clearResults s).received = s.received := rfl

/-! ### Fields after completion (rule R160) -/

@[simp] theorem finish_KEYBUF (o : Bool) (k : Sched) (s : State) : (finish o k s).KEYBUF = s.KEYBUF := rfl
@[simp] theorem finish_KLEN (o : Bool) (k : Sched) (s : State) : (finish o k s).KLEN = s.KLEN := rfl
@[simp] theorem finish_DIN (o : Bool) (k : Sched) (s : State) : (finish o k s).DIN = s.DIN := rfl
@[simp] theorem finish_BLEN (o : Bool) (k : Sched) (s : State) : (finish o k s).BLEN = s.BLEN := rfl
@[simp] theorem finish_DOUT (o : Bool) (k : Sched) (s : State) : (finish o k s).DOUT = s.DOUT := rfl
@[simp] theorem finish_S (o : Bool) (k : Sched) (s : State) : (finish o k s).S = s.S := rfl
@[simp] theorem finish_W (o : Bool) (k : Sched) (s : State) : (finish o k s).W = s.W := rfl
@[simp] theorem finish_NK (o : Bool) (k : Sched) (s : State) : (finish o k s).NK = s.NK := rfl
@[simp] theorem finish_NR (o : Bool) (k : Sched) (s : State) : (finish o k s).NR = s.NR := rfl
@[simp] theorem finish_BUSY (o : Bool) (k : Sched) (s : State) : (finish o k s).BUSY = false := rfl
@[simp] theorem finish_DONE (o : Bool) (k : Sched) (s : State) : (finish o k s).DONE = true := rfl
@[simp] theorem finish_OUT_VALID (o : Bool) (k : Sched) (s : State) : (finish o k s).OUT_VALID = o := rfl
@[simp] theorem finish_SCHED (o : Bool) (k : Sched) (s : State) : (finish o k s).SCHED = k := rfl
@[simp] theorem finish_ERR (o : Bool) (k : Sched) (s : State) : (finish o k s).ERR = s.ERR := rfl
@[simp] theorem finish_PH (o : Bool) (k : Sched) (s : State) : (finish o k s).PH = .idle := rfl
@[simp] theorem finish_KI (o : Bool) (k : Sched) (s : State) : (finish o k s).KI = s.KI := rfl
@[simp] theorem finish_RND (o : Bool) (k : Sched) (s : State) : (finish o k s).RND = s.RND := rfl
@[simp] theorem finish_CMDR (o : Bool) (k : Sched) (s : State) : (finish o k s).CMDR = s.CMDR := rfl
@[simp] theorem finish_unitByteIn (o : Bool) (k : Sched) (s : State) : (finish o k s).unitByteIn = s.unitByteIn := rfl
@[simp] theorem finish_unitWordIn (o : Bool) (k : Sched) (s : State) : (finish o k s).unitWordIn = s.unitWordIn := rfl
@[simp] theorem finish_unitOut (o : Bool) (k : Sched) (s : State) : (finish o k s).unitOut = s.unitOut := rfl
@[simp] theorem finish_turns (o : Bool) (k : Sched) (s : State) : (finish o k s).turns = s.turns := rfl
@[simp] theorem finish_received (o : Bool) (k : Sched) (s : State) : (finish o k s).received = s.received := rfl

/-! ### Fields after reset (rule R190) -/

@[simp] theorem resetRegs_KEYBUF (s : State) : (resetRegs s).KEYBUF = State.reset.KEYBUF := rfl
@[simp] theorem resetRegs_KLEN (s : State) : (resetRegs s).KLEN = State.reset.KLEN := rfl
@[simp] theorem resetRegs_DIN (s : State) : (resetRegs s).DIN = State.reset.DIN := rfl
@[simp] theorem resetRegs_BLEN (s : State) : (resetRegs s).BLEN = State.reset.BLEN := rfl
@[simp] theorem resetRegs_DOUT (s : State) : (resetRegs s).DOUT = State.reset.DOUT := rfl
@[simp] theorem resetRegs_S (s : State) : (resetRegs s).S = State.reset.S := rfl
@[simp] theorem resetRegs_W (s : State) : (resetRegs s).W = State.reset.W := rfl
@[simp] theorem resetRegs_NK (s : State) : (resetRegs s).NK = State.reset.NK := rfl
@[simp] theorem resetRegs_NR (s : State) : (resetRegs s).NR = State.reset.NR := rfl
@[simp] theorem resetRegs_BUSY (s : State) : (resetRegs s).BUSY = State.reset.BUSY := rfl
@[simp] theorem resetRegs_DONE (s : State) : (resetRegs s).DONE = State.reset.DONE := rfl
@[simp] theorem resetRegs_OUT_VALID (s : State) : (resetRegs s).OUT_VALID = State.reset.OUT_VALID := rfl
@[simp] theorem resetRegs_SCHED (s : State) : (resetRegs s).SCHED = State.reset.SCHED := rfl
@[simp] theorem resetRegs_ERR (s : State) : (resetRegs s).ERR = State.reset.ERR := rfl
@[simp] theorem resetRegs_PH (s : State) : (resetRegs s).PH = State.reset.PH := rfl
@[simp] theorem resetRegs_KI (s : State) : (resetRegs s).KI = State.reset.KI := rfl
@[simp] theorem resetRegs_RND (s : State) : (resetRegs s).RND = State.reset.RND := rfl
@[simp] theorem resetRegs_CMDR (s : State) : (resetRegs s).CMDR = State.reset.CMDR := rfl
@[simp] theorem resetRegs_unitByteIn (s : State) : (resetRegs s).unitByteIn = s.unitByteIn := rfl
@[simp] theorem resetRegs_unitWordIn (s : State) : (resetRegs s).unitWordIn = s.unitWordIn := rfl
@[simp] theorem resetRegs_unitOut (s : State) : (resetRegs s).unitOut = s.unitOut := rfl
@[simp] theorem resetRegs_turns (s : State) : (resetRegs s).turns = s.turns := rfl
@[simp] theorem resetRegs_received (s : State) : (resetRegs s).received = s.received := rfl

/-! ### Fields after a byte received by the host -/

@[simp] theorem receive_KEYBUF (b : Byte) (s : State) : (receive b s).KEYBUF = s.KEYBUF := rfl
@[simp] theorem receive_KLEN (b : Byte) (s : State) : (receive b s).KLEN = s.KLEN := rfl
@[simp] theorem receive_DIN (b : Byte) (s : State) : (receive b s).DIN = s.DIN := rfl
@[simp] theorem receive_BLEN (b : Byte) (s : State) : (receive b s).BLEN = s.BLEN := rfl
@[simp] theorem receive_DOUT (b : Byte) (s : State) : (receive b s).DOUT = s.DOUT := rfl
@[simp] theorem receive_S (b : Byte) (s : State) : (receive b s).S = s.S := rfl
@[simp] theorem receive_W (b : Byte) (s : State) : (receive b s).W = s.W := rfl
@[simp] theorem receive_NK (b : Byte) (s : State) : (receive b s).NK = s.NK := rfl
@[simp] theorem receive_NR (b : Byte) (s : State) : (receive b s).NR = s.NR := rfl
@[simp] theorem receive_BUSY (b : Byte) (s : State) : (receive b s).BUSY = s.BUSY := rfl
@[simp] theorem receive_DONE (b : Byte) (s : State) : (receive b s).DONE = s.DONE := rfl
@[simp] theorem receive_OUT_VALID (b : Byte) (s : State) : (receive b s).OUT_VALID = s.OUT_VALID := rfl
@[simp] theorem receive_SCHED (b : Byte) (s : State) : (receive b s).SCHED = s.SCHED := rfl
@[simp] theorem receive_ERR (b : Byte) (s : State) : (receive b s).ERR = s.ERR := rfl
@[simp] theorem receive_PH (b : Byte) (s : State) : (receive b s).PH = s.PH := rfl
@[simp] theorem receive_KI (b : Byte) (s : State) : (receive b s).KI = s.KI := rfl
@[simp] theorem receive_RND (b : Byte) (s : State) : (receive b s).RND = s.RND := rfl
@[simp] theorem receive_CMDR (b : Byte) (s : State) : (receive b s).CMDR = s.CMDR := rfl
@[simp] theorem receive_unitByteIn (b : Byte) (s : State) : (receive b s).unitByteIn = s.unitByteIn := rfl
@[simp] theorem receive_unitWordIn (b : Byte) (s : State) : (receive b s).unitWordIn = s.unitWordIn := rfl
@[simp] theorem receive_unitOut (b : Byte) (s : State) : (receive b s).unitOut = s.unitOut := rfl
@[simp] theorem receive_turns (b : Byte) (s : State) : (receive b s).turns = s.turns := rfl
@[simp] theorem receive_received (b : Byte) (s : State) : (receive b s).received = s.received ++ [b] := rfl

/-! ### Fields after command acceptance (rule R154) -/

theorem accept_of_legal (v : Byte) (s : State) (h : commandLegal v = true) :
    accept v s = { clearResults s with CMDR := v, BUSY := true, PH := .check } := by simp [accept, h]

theorem accept_of_illegal (v : Byte) (s : State) (h : commandLegal v = false) :
    accept v s = errorEntry .illegalCommand (clearResults s) := by simp [accept, h]

@[simp] theorem accept_KEYBUF (v : Byte) (s : State) : (accept v s).KEYBUF = (s.KEYBUF) := by
  cases h : commandLegal v <;> simp [accept, h]
@[simp] theorem accept_KLEN (v : Byte) (s : State) : (accept v s).KLEN = (s.KLEN) := by
  cases h : commandLegal v <;> simp [accept, h]
@[simp] theorem accept_DIN (v : Byte) (s : State) : (accept v s).DIN = (s.DIN) := by
  cases h : commandLegal v <;> simp [accept, h]
@[simp] theorem accept_BLEN (v : Byte) (s : State) : (accept v s).BLEN = (s.BLEN) := by
  cases h : commandLegal v <;> simp [accept, h]
@[simp] theorem accept_DOUT (v : Byte) (s : State) : (accept v s).DOUT = (s.DOUT) := by
  cases h : commandLegal v <;> simp [accept, h]
@[simp] theorem accept_S (v : Byte) (s : State) : (accept v s).S = (s.S) := by
  cases h : commandLegal v <;> simp [accept, h]
@[simp] theorem accept_W (v : Byte) (s : State) : (accept v s).W = (s.W) := by
  cases h : commandLegal v <;> simp [accept, h]
@[simp] theorem accept_NK (v : Byte) (s : State) : (accept v s).NK = (0) := by
  cases h : commandLegal v <;> simp [accept, h]
@[simp] theorem accept_NR (v : Byte) (s : State) : (accept v s).NR = (0) := by
  cases h : commandLegal v <;> simp [accept, h]
@[simp] theorem accept_BUSY (v : Byte) (s : State) : (accept v s).BUSY = (commandLegal v) := by
  cases h : commandLegal v <;> simp [accept, h]
@[simp] theorem accept_DONE (v : Byte) (s : State) : (accept v s).DONE = (!commandLegal v) := by
  cases h : commandLegal v <;> simp [accept, h]
@[simp] theorem accept_OUT_VALID (v : Byte) (s : State) : (accept v s).OUT_VALID = (false) := by
  cases h : commandLegal v <;> simp [accept, h]
@[simp] theorem accept_SCHED (v : Byte) (s : State) : (accept v s).SCHED = (.none) := by
  cases h : commandLegal v <;> simp [accept, h]
@[simp] theorem accept_ERR (v : Byte) (s : State) : (accept v s).ERR = (if commandLegal v then .none else .illegalCommand) := by
  cases h : commandLegal v <;> simp [accept, h]
@[simp] theorem accept_PH (v : Byte) (s : State) : (accept v s).PH = (if commandLegal v then .check else .idle) := by
  cases h : commandLegal v <;> simp [accept, h]
@[simp] theorem accept_KI (v : Byte) (s : State) : (accept v s).KI = (s.KI) := by
  cases h : commandLegal v <;> simp [accept, h]
@[simp] theorem accept_RND (v : Byte) (s : State) : (accept v s).RND = (s.RND) := by
  cases h : commandLegal v <;> simp [accept, h]
@[simp] theorem accept_CMDR (v : Byte) (s : State) : (accept v s).CMDR = (if commandLegal v then v else s.CMDR) := by
  cases h : commandLegal v <;> simp [accept, h]
@[simp] theorem accept_unitByteIn (v : Byte) (s : State) : (accept v s).unitByteIn = (s.unitByteIn) := by
  cases h : commandLegal v <;> simp [accept, h]
@[simp] theorem accept_unitWordIn (v : Byte) (s : State) : (accept v s).unitWordIn = (s.unitWordIn) := by
  cases h : commandLegal v <;> simp [accept, h]
@[simp] theorem accept_unitOut (v : Byte) (s : State) : (accept v s).unitOut = (s.unitOut) := by
  cases h : commandLegal v <;> simp [accept, h]
@[simp] theorem accept_turns (v : Byte) (s : State) : (accept v s).turns = (s.turns) := by
  cases h : commandLegal v <;> simp [accept, h]
@[simp] theorem accept_received (v : Byte) (s : State) : (accept v s).received = (s.received) := by
  cases h : commandLegal v <;> simp [accept, h]

/-! ### The status byte depends on the four status fields only (rule R31) -/

theorem statusByte_congr (s t : State) (hb : s.BUSY = t.BUSY) (hd : s.DONE = t.DONE) (ho : s.OUT_VALID = t.OUT_VALID)
    (hs : s.SCHED = t.SCHED) : s.statusByte = t.statusByte := by
  simp only [State.statusByte, hb, hd, ho, hs]

/-- Bit 0 of the status byte is `BUSY` (rule R31). -/
@[simp] theorem statusByte_busy (s : State) : s.statusByte.getLsbD 0 = s.BUSY := by
  cases hb : s.BUSY <;> cases hd : s.DONE <;> cases ho : s.OUT_VALID <;> cases hs : s.SCHED <;>
    simp [State.statusByte, hb, hd, ho, hs, Sched.code]

end Sys2Proof.Machine
end

