-- ==== Sys2Proof/Laws/Ops.lean ====
section
/-! SUPPORT. Laws/Ops: what each shared operation over registers can do, said once. -/

namespace Sys2Proof.Machine

/-- The address of a register: `base + i` as a 9-bit address reads back as that number. -/
@[simp] theorem addr_toNat (n : Nat) (h : n < 512) : (BitVec.ofNat 9 n).toNat = n := by
  simp [BitVec.toNat_ofNat, Nat.mod_eq_of_lt h]

/-! ### Command acceptance (rules R154, R178, R196) -/

theorem writeCmd_busy (v : Byte) (s : State) (h : s.BUSY = true) : writeCmd v s = s := by simp [writeCmd, h]

theorem writeCmd_idle (v : Byte) (s : State) (h : s.BUSY = false) : writeCmd v s = accept v s := by simp [writeCmd, h]

/-! ### Host writes (rule R54) -/

/-- While `BUSY = 1` a write has no effect (rule R196). -/
theorem memWrite_busy (a : Addr) (v : Byte) (s : State) (h : s.BUSY = true) : memWrite a v s = s := by
  simp [memWrite, h]

theorem memWrite_cmd (v : Byte) (s : State) (h : s.BUSY = false) : memWrite 0x000 v s = accept v s := by
  simp [memWrite, h]

/-- Everything a host write can do. -/
theorem memWrite_cases (a : Addr) (v : Byte) (s : State) :
    memWrite a v s = s ∨
    (s.BUSY = false ∧ a = 0x000 ∧ memWrite a v s = accept v s) ∨
    (s.BUSY = false ∧ a = 0x003 ∧ memWrite a v s = { s with KLEN := v }) ∨
    (s.BUSY = false ∧ a = 0x004 ∧ memWrite a v s = { s with BLEN := v }) ∨
    (s.BUSY = false ∧ ∃ i : Fin 16, a.toNat = 0x010 + i.val ∧ memWrite a v s = { s with DIN := s.DIN.set i v }) ∨
    (s.BUSY = false ∧ ∃ i : Fin 32, a.toNat = 0x040 + i.val ∧
      memWrite a v s = { s with KEYBUF := s.KEYBUF.set i v }) := by
  have eqv : ∀ k : Nat, k < 512 → a.toNat = k → a = BitVec.ofNat 9 k := by
    intro k hk h
    apply BitVec.eq_of_toNat_eq
    simp [h, Nat.mod_eq_of_lt hk]
  cases hb : s.BUSY
  · by_cases h0 : a.toNat = 0x000
    · exact .inr (.inl ⟨rfl, eqv 0x000 (by decide) h0, by simp [memWrite, hb, h0]⟩)
    by_cases h3 : a.toNat = 0x003
    · exact .inr (.inr (.inl ⟨rfl, eqv 0x003 (by decide) h3, by simp [memWrite, hb, h3]⟩))
    by_cases h4 : a.toNat = 0x004
    · exact .inr (.inr (.inr (.inl ⟨rfl, eqv 0x004 (by decide) h4, by simp [memWrite, hb, h4]⟩)))
    by_cases hd : 0x010 ≤ a.toNat ∧ a.toNat ≤ 0x01F
    · refine .inr (.inr (.inr (.inr (.inl ⟨rfl, ⟨a.toNat - 0x010, by omega⟩, by simp; omega, ?_⟩))))
      simp [memWrite, hb, h0, h3, h4, hd]
    by_cases hk : 0x040 ≤ a.toNat ∧ a.toNat ≤ 0x05F
    · refine .inr (.inr (.inr (.inr (.inr ⟨rfl, ⟨a.toNat - 0x040, by omega⟩, by simp; omega, ?_⟩))))
      simp [memWrite, hb, h0, h3, h4, hd, hk]
    · exact .inl (by simp [memWrite, hb, h0, h3, h4, hd, hk])
  · exact .inl (memWrite_busy a v s hb)

/-- No host write changes what only the core writes (rule R61), but for the clearing of acceptance. -/
theorem memWrite_core_registers (a : Addr) (v : Byte) (s : State) :
    (memWrite a v s).DOUT = s.DOUT ∧ (memWrite a v s).S = s.S ∧ (memWrite a v s).W = s.W ∧
      (memWrite a v s).KI = s.KI ∧ (memWrite a v s).RND = s.RND := by
  rcases memWrite_cases a v s with h | ⟨_, _, h⟩ | ⟨_, _, h⟩ | ⟨_, _, h⟩ | ⟨_, _, _, h⟩ | ⟨_, _, _, h⟩ <;> simp [h]

/-- A host write does not consume or add a turn, and the host receives nothing. -/
@[simp] theorem memWrite_turns (a : Addr) (v : Byte) (s : State) : (memWrite a v s).turns = s.turns := by
  rcases memWrite_cases a v s with h | ⟨_, _, h⟩ | ⟨_, _, h⟩ | ⟨_, _, h⟩ | ⟨_, _, _, h⟩ | ⟨_, _, _, h⟩ <;> simp [h]

@[simp] theorem memWrite_received (a : Addr) (v : Byte) (s : State) : (memWrite a v s).received = s.received := by
  rcases memWrite_cases a v s with h | ⟨_, _, h⟩ | ⟨_, _, h⟩ | ⟨_, _, h⟩ | ⟨_, _, _, h⟩ | ⟨_, _, _, h⟩ <;> simp [h]

/-! ### Host reads (rule R53) -/

@[simp] theorem memRead_status (s : State) : memRead 0x001 s = s.statusByte := by simp [memRead]

@[simp] theorem memRead_err (s : State) : memRead 0x002 s = s.ERR.code := by simp [memRead]

@[simp] theorem memRead_klen (s : State) : memRead 0x003 s = s.KLEN := by simp [memRead]

@[simp] theorem memRead_blen (s : State) : memRead 0x004 s = s.BLEN := by simp [memRead]

end Sys2Proof.Machine
end

