-- ==== Sys2Proof/Laws/Exec.lean ====
section
/-! SUPPORT. Laws/Exec: one equation per meaning, and what the meanings have in common. -/

namespace Sys2Proof.Machine

/-! ### One equation per meaning -/

theorem exec_chk_pass (s : State) (h : checkError s = none) : exec .chk s = .next s := by
  simp [exec, execChk, h]

theorem exec_chk_raise (s : State) (e : ErrCode) (h : checkError s = some e) :
    exec .chk s = .next (errorEntry e s) := by
  simp [exec, execChk, h]

/-- What `CHK` can raise (rules R116, R180). -/
theorem checkError_cases (s : State) :
    (checkError s = some .invalidBlockLength ∧ commandUsesBlock s.CMDR = true ∧ s.BLEN ≠ 16) ∨
    (checkError s = some .invalidKeyLength ∧ ¬(commandUsesBlock s.CMDR = true ∧ s.BLEN ≠ 16) ∧
      keyLengthLegal s.KLEN = false) ∨
    (checkError s = none ∧ ¬(commandUsesBlock s.CMDR = true ∧ s.BLEN ≠ 16) ∧ keyLengthLegal s.KLEN = true) := by
  unfold checkError
  cases commandUsesBlock s.CMDR <;> cases hk : keyLengthLegal s.KLEN <;> by_cases hb : s.BLEN = 16 <;> simp [hb]
  all_goals exact (Classical.em _).symm

theorem keyLengthLegal_iff (n : Byte) :
    keyLengthLegal n = true ↔ n.toNat = 16 ∨ n.toNat = 24 ∨ n.toNat = 32 := by
  simp only [keyLengthLegal, Bool.or_eq_true, beq_iff_eq, ← BitVec.toNat_inj, or_assoc]
  rfl

theorem nrOf_of_legal (n : Byte) (h : keyLengthLegal n = true) : nrOf n.toNat = some (nkOf n.toNat + 6) := by
  rw [keyLengthLegal_iff] at h
  rcases h with h | h | h <;> simp [nrOf, nkOf, h]

theorem nrOf_of_illegal (n : Byte) (h : keyLengthLegal n = false) : nrOf n.toNat = none := by
  have h' : ¬keyLengthLegal n = true := by simp [h]
  rw [keyLengthLegal_iff] at h'
  simp only [not_or] at h'
  simp [nrOf, h'.1, h'.2.1, h'.2.2]

/-- `KLOAD` with a legal key length (rule R117). -/
theorem exec_kload (s : State) (h : keyLengthLegal s.KLEN = true) :
    exec .kload s = .next { s with
      NK := BitVec.ofNat 4 (nkOf s.KLEN.toNat)
      NR := BitVec.ofNat 4 (nkOf s.KLEN.toNat + 6)
      W := loadKey s.KEYBUF (nkOf s.KLEN.toNat) s.W
      KI := BitVec.ofNat 6 (nkOf s.KLEN.toNat) } := by
  simp [exec, execKload, nrOf_of_legal _ h]

theorem exec_kstep (s : State) (x : Word) (h : nextWord s = some x) :
    exec .kstep s = .next { s with W := s.W.setIfInBounds s.KI.toNat x, KI := s.KI + 1 } := by
  simp [exec, execKstep, h]

/-- The round constant index is always in the table (rule R122 item 1). -/
theorem rcon_index_lt (nk i : Nat) (h4 : 4 ≤ nk) (h : i < 60) : i / nk - 1 < 14 := by
  have : i / nk ≤ i / 4 := Nat.div_le_div_left h4 (by omega)
  omega

theorem expandTemp_isSome (nk i : Nat) (p : Word) (h4 : 4 ≤ nk) (h : i < 60) : ∃ x, expandTemp nk i p = some x := by
  have hr := rcon_index_lt nk i h4 h
  unfold expandTemp
  split
  · simp [rconWord, rcon, hr]
  · split <;> exact ⟨_, rfl⟩

/-- `KSTEP` computes a word whenever its indices are in range (rules R118, R135). -/
theorem nextWord_eq (s : State) (hn : s.NK.toNat ∈ [4, 6, 8]) (hk : s.NK.toNat ≤ s.KI.toNat) (h : s.KI.toNat < 60) :
    nextWord s = (expandTemp s.NK.toNat s.KI.toNat s.W[s.KI.toNat - 1]).map
      (xorWord s.W[s.KI.toNat - s.NK.toNat]) := by
  have h1 : s.KI.toNat - 1 < 60 := by omega
  have h2 : s.KI.toNat - s.NK.toNat < 60 := by omega
  simp only [nextWord, hn, hk, h, and_self, if_true, Vector.getElem?_eq_getElem h1, Vector.getElem?_eq_getElem h2,
    Option.bind_eq_bind, Option.bind_some]
  cases expandTemp s.NK.toNat s.KI.toNat s.W[s.KI.toNat - 1] <;> rfl

/-- Outside those ranges it does not (U6). -/
theorem nextWord_none (s : State) (h : ¬(s.NK.toNat ∈ [4, 6, 8] ∧ s.NK.toNat ≤ s.KI.toNat ∧ s.KI.toNat < 60)) :
    nextWord s = none := by
  simp only [nextWord, if_neg h]

theorem exec_kinvr (s : State) (h : s.RND.toNat < 15) :
    ∃ w, convertRoundKey s.W s.RND.toNat h invMixMatrix = some w ∧ exec .kinvr s = .next { s with W := w } := by
  obtain ⟨w, hw⟩ := convertRoundKey_inv s.W s.RND.toNat h
  exact ⟨w, hw, by simp [exec, execKinvr, convertState, h, hw]⟩

theorem exec_ldst (s : State) : exec .ldst s = .next { s with S := blockToMatrix s.DIN } := rfl

theorem exec_stst (s : State) : exec .stst s = .next { s with DOUT := matrixToBlock s.S } := rfl

theorem exec_ark (s : State) (h : s.RND.toNat < 15) :
    exec .ark s = .next { s with S := xorMat s.S (roundKey s.W s.RND.toNat h) } := by
  simp [exec, execArk, h]

theorem exec_subb (s : State) : exec .subb s = .next { s with S := subBytes s.S } := rfl

theorem exec_isubb (s : State) : exec .isubb s = .next { s with S := invSubBytes s.S } := rfl

theorem exec_shrow (s : State) : exec .shrow s = .next { s with S := shiftRows s.S } := rfl

theorem exec_ishrow (s : State) : exec .ishrow s = .next { s with S := invShiftRows s.S } := rfl

theorem exec_mixc (s : State) : exec .mixc s = .next { s with S := mixedColumns s.S mixMatrix } := by
  simp [exec, execMixc, mixState, mixColumns_mix]

theorem exec_imixc (s : State) : exec .imixc s = .next { s with S := mixedColumns s.S invMixMatrix } := by
  simp [exec, execImixc, mixState, mixColumns_inv]

theorem exec_gfmul_supported (k : Byte) (s : State) (h : supportedMultipliers.contains k = true) :
    exec (.gfmul k) s = .next { s with unitOut := .byte (gfProduct s.unitByteIn k) } := by
  simp only [exec, execGfmul, mul_of_supported _ _ h]

theorem exec_gfmul_unsupported (k : Byte) (s : State) (h : supportedMultipliers.contains k = false) :
    exec (.gfmul k) s = .next { s with unitOut := .raised .unsupportedFieldMultiplier } := by
  simp only [exec, execGfmul, mul_of_unsupported _ _ h]

theorem exec_rcon (j : Byte) (s : State) (h : j.toNat < 14) :
    exec (.rcon j) s = .next { s with unitOut := .byte rconTable[j.toNat] } := by
  simp [exec, execRcon, rcon, h]

/-! ### What the meanings have in common -/

/-- Everything `exec` can do to a state when it answers a next state: a command is a write to `CMD`; `CHK` may raise, and
that is the error entry; any other micro-operation changes no input register, no status field and no sequencing register
but `KI`; a function-unit operation changes the unit's output only (rules R21 to R36, R73, R176). -/
theorem exec_next_cases (i : Instr) (s t : State) (h : exec i s = .next t) :
    (i.format = .command ∧ t = writeCmd i.opByte s) ∨
    (i = .chk ∧ ∃ e, checkError s = some e ∧ t = errorEntry e s) ∨
    (i.format = .micro ∧ t = { s with DOUT := t.DOUT, S := t.S, W := t.W, NK := t.NK, NR := t.NR, KI := t.KI }) ∨
    (i.format = .unit ∧ t = { s with unitOut := t.unitOut }) := by
  cases i
  case enc => cases h; exact .inl ⟨rfl, rfl⟩
  case dec => cases h; exact .inl ⟨rfl, rfl⟩
  case kexp => cases h; exact .inl ⟨rfl, rfl⟩
  case kexpi => cases h; exact .inl ⟨rfl, rfl⟩
  case chk =>
    cases hc : checkError s with
    | none => rw [exec_chk_pass s hc] at h; cases h; exact .inr (.inr (.inl ⟨rfl, rfl⟩))
    | some e => rw [exec_chk_raise s e hc] at h; cases h; exact .inr (.inl ⟨rfl, e, rfl, rfl⟩)
  case kload =>
    simp only [exec, execKload] at h
    split at h
    · cases h
    · cases h; exact .inr (.inr (.inl ⟨rfl, rfl⟩))
  case kstep =>
    simp only [exec, execKstep] at h
    split at h
    · cases h; exact .inr (.inr (.inl ⟨rfl, rfl⟩))
    · cases h
  case kinvr =>
    by_cases hr : s.RND.toNat < 15
    · obtain ⟨w, _, he⟩ := exec_kinvr s hr
      rw [he] at h; cases h; exact .inr (.inr (.inl ⟨rfl, rfl⟩))
    · simp [exec, execKinvr, convertState, hr] at h
  case ark =>
    simp only [exec, execArk] at h
    split at h
    · cases h; exact .inr (.inr (.inl ⟨rfl, rfl⟩))
    · cases h
  case mixc => rw [exec_mixc] at h; cases h; exact .inr (.inr (.inl ⟨rfl, rfl⟩))
  case imixc => rw [exec_imixc] at h; cases h; exact .inr (.inr (.inl ⟨rfl, rfl⟩))
  case gfmul k =>
    cases hk : supportedMultipliers.contains k
    · rw [exec_gfmul_unsupported k s hk] at h; cases h; exact .inr (.inr (.inr ⟨rfl, rfl⟩))
    · rw [exec_gfmul_supported k s hk] at h; cases h; exact .inr (.inr (.inr ⟨rfl, rfl⟩))
  case rcon j =>
    simp only [exec, execRcon] at h
    split at h
    · cases h; exact .inr (.inr (.inr ⟨rfl, rfl⟩))
    · cases h
  case xtime | sbox | isbox | rotw | subw => cases h; exact .inr (.inr (.inr ⟨rfl, rfl⟩))
  all_goals (cases h; exact .inr (.inr (.inl ⟨rfl, rfl⟩)))

/-- No meaning answers a fault: the fault type is empty. -/
theorem exec_no_fault (i : Instr) (s : State) (f : Fault) : exec i s ≠ .fault f := nomatch f

end Sys2Proof.Machine
end

