-- ==== Sys2Proof/Laws/PerInstr.lean ====
section
/-! SUPPORT. Laws/PerInstr: statements about every instruction as syntax, one lemma per constructor.
WordFormat (rules R70 to R73): the unit nibble of the operation word says who may issue it, and the `arg` byte is 0x00
but for `GFMUL` and `RCON`. -/

namespace Sys2Proof.Laws.WordFormat

open Sys2Proof

/-- Unit nibble 0x0 is format C, 0x1 to 0x5 format U, 0x6 and 0x7 format F, and the word is `op*256 + arg` (rule R70). -/
abbrev Statement (i : Instr) : Prop :=
  (encode i).toNat = i.opByte.toNat * 256 + i.argByte.toNat ∧
  (i.format = .command ↔ i.opByte.toNat / 16 = 0) ∧
  (i.format = .micro ↔ 1 ≤ i.opByte.toNat / 16 ∧ i.opByte.toNat / 16 ≤ 5) ∧
  (i.format = .unit ↔ 6 ≤ i.opByte.toNat / 16 ∧ i.opByte.toNat / 16 ≤ 7) ∧
  (i.argByte ≠ 0x00 → i.opByte = 0x61 ∨ i.opByte = 0x72)

theorem enc : Statement .enc := by decide
theorem dec : Statement .dec := by decide
theorem kexp : Statement .kexp := by decide
theorem kexpi : Statement .kexpi := by decide
theorem chk : Statement .chk := by decide
theorem kload : Statement .kload := by decide
theorem kstep : Statement .kstep := by decide
theorem kinvr : Statement .kinvr := by decide
theorem ldst : Statement .ldst := by decide
theorem stst : Statement .stst := by decide
theorem ark : Statement .ark := by decide
theorem subb : Statement .subb := by decide
theorem shrow : Statement .shrow := by decide
theorem mixc : Statement .mixc := by decide
theorem isubb : Statement .isubb := by decide
theorem ishrow : Statement .ishrow := by decide
theorem imixc : Statement .imixc := by decide
theorem xtime : Statement .xtime := by decide
theorem sbox : Statement .sbox := by decide
theorem isbox : Statement .isbox := by decide
theorem rotw : Statement .rotw := by decide
theorem subw : Statement .subw := by decide
theorem gfmul (k : Byte) : Statement (.gfmul k) := by revert k; decide
theorem rcon (j : Byte) : Statement (.rcon j) := by revert j; decide

end Sys2Proof.Laws.WordFormat
end

