-- ==== Sys2Proof/Laws/Sequencer.lean ====
section
/-! SUPPORT. Laws/Sequencer: what a core step and a turn can do, said once, and the core step of each phase as one
equation (rules R77, R159, R160). -/

namespace Sys2Proof.Machine

/-! ### Turns -/

theorem step_next_turn (s : State) (t : Turn) (rest : List Turn) (h : s.turns = t :: rest) :
    step s = takeTurn t { s with turns := rest } := by
  simp [step, runTurn, h]

theorem step_no_turn (s : State) (h : s.turns = []) : step s = coreTurn s := by
  simp [step, runTurn, h]

theorem coreTurn_busy (s : State) (h : s.BUSY = true) : coreTurn s = coreStep s := by simp [coreTurn, h]

theorem coreTurn_idle (s : State) (h : s.BUSY = false) : coreTurn s = .next s := by simp [coreTurn, h]

/-! ### The words the sequencer issues (rule R77) -/

/-- Every word of `Issue` decodes to a micro-operation. -/
theorem issue_decodes (ph : Phase) (cmdr : Byte) (w : OpWord) (h : issue ph cmdr = some w) :
    ∃ i, decodeWord w = .ok i ∧ i.format = .micro := by
  cases ph <;> simp only [issue] at h
  case idle => cases h
  case sub | shift | mix =>
    split at h
    · cases h; exact ⟨_, rfl, rfl⟩
    · split at h
      · cases h; exact ⟨_, rfl, rfl⟩
      · cases h
  all_goals (cases h; exact ⟨_, rfl, rfl⟩)

/-! ### The core step -/

/-- Everything a core step can do when it answers a next state: the issued micro-operation, then the update of the
sequencing registers. -/
theorem coreStep_next_cases (s t : State) (h : coreStep s = .next t) :
    s.phaseReachable = true ∧ ∃ w i u, issue s.PH s.CMDR = some w ∧ decodeWord w = .ok i ∧ i.format = .micro ∧
      exec i s = .next u ∧ t = advance u := by
  unfold coreStep at h
  split at h
  · rename_i hr
    refine ⟨hr, ?_⟩
    split at h
    · cases h
    · rename_i w hw
      obtain ⟨i, hi, hm⟩ := issue_decodes _ _ _ hw
      rw [hi] at h
      simp only at h
      split at h
      · rename_i u hu
        cases h
        exact ⟨w, i, u, hw, hi, hm, hu, rfl⟩
      · cases h
      · cases h
  · cases h

/-- A core step from its parts. -/
theorem coreStep_of (s u : State) (w : OpWord) (i : Instr) (hr : s.phaseReachable = true)
    (hw : issue s.PH s.CMDR = some w) (hi : decodeWord w = .ok i) (hu : exec i s = .next u) :
    coreStep s = .next (advance u) := by
  simp [coreStep, hr, hw, hi, hu]

/-- `advance` reads only the registers it names: equal control registers give equal successors. -/
theorem advance_idle (s : State) (h : s.PH = .idle) : advance s = s := by simp [advance, h]

/-! One equation per phase. `hr` says that the phase is one the table covers in this state. -/

theorem coreStep_check (s : State) (h : s.PH = .check) (hr : s.phaseReachable = true) :
    coreStep s = .next (match checkError s with
      | some e => errorEntry e s
      | none => { s with PH := .kload }) := by
  cases hc : checkError s with
  | none =>
    rw [coreStep_of s s 0x1000 .chk hr (by simp [issue, h]) (by decide) (exec_chk_pass s hc)]
    simp [advance, h]
  | some e =>
    rw [coreStep_of s _ 0x1000 .chk hr (by simp [issue, h]) (by decide) (exec_chk_raise s e hc)]
    simp [advance]

theorem coreStep_kload (s : State) (h : s.PH = .kload) (hr : s.phaseReachable = true)
    (hk : keyLengthLegal s.KLEN = true) :
    coreStep s = .next { s with
      NK := BitVec.ofNat 4 (nkOf s.KLEN.toNat)
      NR := BitVec.ofNat 4 (nkOf s.KLEN.toNat + 6)
      W := loadKey s.KEYBUF (nkOf s.KLEN.toNat) s.W
      KI := BitVec.ofNat 6 (nkOf s.KLEN.toNat)
      PH := .kexp } := by
  rw [coreStep_of s _ 0x2000 .kload hr (by simp [issue, h]) (by decide) (exec_kload s hk)]
  simp [advance, h]

theorem coreStep_kexp (s : State) (x : Word) (h : s.PH = .kexp) (hr : s.phaseReachable = true)
    (hx : nextWord s = some x) :
    coreStep s = .next (advance { s with W := s.W.setIfInBounds s.KI.toNat x, KI := s.KI + 1 }) :=
  coreStep_of s _ 0x2100 .kstep hr (by simp [issue, h]) (by decide) (exec_kstep s x hx)

theorem coreStep_kinv (s : State) (h : s.PH = .kinv) (hr : s.phaseReachable = true) (hn : s.RND.toNat < 15) :
    ∃ w, convertRoundKey s.W s.RND.toNat hn invMixMatrix = some w ∧
      coreStep s = .next (advance { s with W := w }) := by
  obtain ⟨w, hw, he⟩ := exec_kinvr s hn
  exact ⟨w, hw, coreStep_of s _ 0x2200 .kinvr hr (by simp [issue, h]) (by decide) he⟩

theorem coreStep_load (s : State) (h : s.PH = .load) (hr : s.phaseReachable = true) :
    coreStep s = .next { s with
      S := blockToMatrix s.DIN, RND := if s.isEnc then 0 else s.NR, PH := .ark0 } := by
  rw [coreStep_of s _ 0x3000 .ldst hr (by simp [issue, h]) (by decide) (exec_ldst s)]
  simp [advance, h, State.isEnc]

theorem coreStep_ark0 (s : State) (h : s.PH = .ark0) (hr : s.phaseReachable = true) (hn : s.RND.toNat < 15) :
    coreStep s = .next { s with
      S := xorMat s.S (roundKey s.W s.RND.toNat hn), RND := if s.isEnc then 1 else s.NR - 1, PH := .sub } := by
  rw [coreStep_of s _ 0x4000 .ark hr (by simp [issue, h]) (by decide) (exec_ark s hn)]
  simp [advance, h, State.isEnc]

/-- In the phases of the rounds `CMDR` is `ENC` or `DEC`. -/
theorem commandUsesBlock_iff (v : Byte) : commandUsesBlock v = true ↔ v = 0x01 ∨ v = 0x02 := by
  simp [commandUsesBlock]

theorem coreStep_sub (s : State) (h : s.PH = .sub) (hr : s.phaseReachable = true) :
    coreStep s = .next { s with S := if s.isEnc then subBytes s.S else invSubBytes s.S, PH := .shift } := by
  have hc : commandUsesBlock s.CMDR = true := by simp [State.phaseReachable, h] at hr; exact hr.1
  rcases (commandUsesBlock_iff _).1 hc with hc | hc
  · rw [coreStep_of s _ 0x4100 .subb hr (by simp [issue, h, hc]) (by decide) (exec_subb s)]
    simp [advance, h, State.isEnc, hc]
  · rw [coreStep_of s _ 0x5100 .isubb hr (by simp [issue, h, hc]) (by decide) (exec_isubb s)]
    simp [advance, h, State.isEnc, hc]

theorem coreStep_shift (s : State) (h : s.PH = .shift) (hr : s.phaseReachable = true) :
    coreStep s = .next { s with
      S := if s.isEnc then shiftRows s.S else invShiftRows s.S, PH := if s.isFinal then .ark else .mix } := by
  have hc : commandUsesBlock s.CMDR = true := by simp [State.phaseReachable, h] at hr; exact hr.1
  rcases (commandUsesBlock_iff _).1 hc with hc | hc
  · rw [coreStep_of s _ 0x4200 .shrow hr (by simp [issue, h, hc]) (by decide) (exec_shrow s)]
    simp [advance, h, State.isEnc, State.isFinal, hc]
  · rw [coreStep_of s _ 0x5200 .ishrow hr (by simp [issue, h, hc]) (by decide) (exec_ishrow s)]
    simp [advance, h, State.isEnc, State.isFinal, hc]

theorem coreStep_mix (s : State) (h : s.PH = .mix) (hr : s.phaseReachable = true) :
    coreStep s = .next { s with
      S := mixedColumns s.S (if s.isEnc then mixMatrix else invMixMatrix), PH := .ark } := by
  have hc : commandUsesBlock s.CMDR = true := by simp [State.phaseReachable, h] at hr; exact hr.1
  rcases (commandUsesBlock_iff _).1 hc with hc | hc
  · rw [coreStep_of s _ 0x4300 .mixc hr (by simp [issue, h, hc]) (by decide) (exec_mixc s)]
    simp [advance, h, State.isEnc, hc]
  · rw [coreStep_of s _ 0x5300 .imixc hr (by simp [issue, h, hc]) (by decide) (exec_imixc s)]
    simp [advance, h, State.isEnc, hc]

theorem coreStep_ark (s : State) (h : s.PH = .ark) (hr : s.phaseReachable = true) (hn : s.RND.toNat < 15) :
    coreStep s = .next (
      if s.isFinal then { s with S := xorMat s.S (roundKey s.W s.RND.toNat hn), PH := .store }
      else { s with
        S := xorMat s.S (roundKey s.W s.RND.toNat hn)
        RND := if s.isEnc then s.RND + 1 else s.RND - 1
        PH := .sub }) := by
  rw [coreStep_of s _ 0x4000 .ark hr (by simp [issue, h]) (by decide) (exec_ark s hn)]
  simp only [advance, h]
  rfl

theorem coreStep_store (s : State) (h : s.PH = .store) (hr : s.phaseReachable = true) :
    coreStep s = .next { s with
      DOUT := matrixToBlock s.S
      OUT_VALID := true
      SCHED := if s.isEnc then .forward else .inverse
      BUSY := false
      DONE := true
      PH := .idle } := by
  rw [coreStep_of s _ 0x3100 .stst hr (by simp [issue, h]) (by decide) (exec_stst s)]
  simp [advance, h, State.isEnc, finish]

end Sys2Proof.Machine
end

