-- ==== Sys2Proof/Laws/Turns.lean ====
section
/-! SUPPORT. Laws/Turns: the host's write turn in closed form, everything a step can do turn by turn, and what the
invariant says of the registers `NK`, `NR` while a command runs. -/

namespace Sys2Proof.Machine

theorem decodeCommand_some (v : Byte) (i : Instr) (h : decodeCommand v = some i) :
    i.format = .command ∧ i.opByte = v ∧ commandLegal v = true := by
  have key : ∀ v : Byte, (match decodeCommand v with
      | none => true
      | some i => decide (i.format = .command ∧ i.opByte = v ∧ commandLegal v = true)) = true := by decide
  have h2 := key v
  rw [h] at h2
  simpa using h2

theorem decodeCommand_none (v : Byte) (h : decodeCommand v = none) : commandLegal v = false := by
  have key : ∀ v : Byte, decodeCommand v = none → commandLegal v = false := by decide
  exact key v h

/-- Issuing a command is the write of its op byte (rule R71). -/
theorem exec_command (i : Instr) (s : State) (h : i.format = .command) :
    exec i s = .next (writeCmd i.opByte s) := by
  cases i <;> simp [Instr.format] at h <;> rfl

/-- Every host write, of a command or not, is rule R54's `MemWrite`. -/
theorem hostWriteTurn_eq (a : Addr) (v : Byte) (s : State) : hostWriteTurn a v s = .next (memWrite a v s) := by
  unfold hostWriteTurn
  split
  · rename_i h
    subst h
    split
    · rename_i i hi
      obtain ⟨hf, ho, _⟩ := decodeCommand_some _ _ hi
      rw [exec_command i s hf, ho]
      cases hb : s.BUSY
      · rw [writeCmd_idle _ _ hb, memWrite_cmd _ _ hb]
      · rw [writeCmd_busy _ _ hb, memWrite_busy _ _ _ hb]
    · rfl
  · rfl

/-- Everything a step can do: one case a turn, and the core's step when no turn is scheduled. -/
theorem step_next_cases (s t : State) (h : step s = .next t) :
    (∃ a v rest, s.turns = .hostWrite a v :: rest ∧ t = memWrite a v { s with turns := rest }) ∨
    (∃ a rest, s.turns = .hostRead a :: rest ∧ t = receive (memRead a s) { s with turns := rest }) ∨
    (∃ rest, s.turns = .hostReset :: rest ∧ t = resetRegs { s with turns := rest }) ∨
    (∃ rest ts, s.turns = .hostWait :: rest ∧ t = receive s.statusByte { s with turns := ts } ∧
      ts = if s.BUSY then .core :: .hostWait :: rest else rest) ∨
    (∃ rest, (s.turns = .core :: rest ∨ s.turns = [] ∧ rest = []) ∧
      ((s.BUSY = true ∧ coreStep { s with turns := rest } = .next t) ∨
       (s.BUSY = false ∧ t = { s with turns := rest }))) ∨
    (∃ w b x rest i, s.turns = .unit w b x :: rest ∧ decodeWord w = .ok i ∧ i.format = .unit ∧
      exec i { s with turns := rest, unitByteIn := b, unitWordIn := x } = .next t) := by
  unfold step runTurn at h
  split at h
  · rename_i tn rest ht
    cases tn with
    | hostWrite a v =>
      rw [takeTurn, hostWriteTurn_eq] at h
      exact .inl ⟨a, v, rest, ht, by cases h; rfl⟩
    | hostRead a => exact .inr (.inl ⟨a, rest, ht, by cases h; rfl⟩)
    | hostReset => exact .inr (.inr (.inl ⟨rest, ht, by cases h; rfl⟩))
    | hostWait =>
      refine .inr (.inr (.inr (.inl ⟨rest, _, ht, ?_, rfl⟩)))
      simp only [takeTurn, hostWaitTurn, memRead_status, statusByte_busy] at h
      cases hb : s.BUSY <;> simp [hb] at h <;> subst h <;> simp [State.statusByte, receive, hb]
    | core =>
      refine .inr (.inr (.inr (.inr (.inl ⟨rest, .inl ht, ?_⟩))))
      cases hb : s.BUSY
      · exact .inr ⟨rfl, by simpa [takeTurn, coreTurn, hb] using h.symm⟩
      · exact .inl ⟨rfl, by simpa [takeTurn, coreTurn, hb] using h⟩
    | unit w b x =>
      refine .inr (.inr (.inr (.inr (.inr ?_))))
      simp only [takeTurn, unitTurn] at h
      split at h
      · rename_i i hi
        split at h
        · rename_i hf
          exact ⟨w, b, x, rest, i, ht, hi, hf, h⟩
        · cases h
      · cases h
  · rename_i ht
    refine .inr (.inr (.inr (.inr (.inl ⟨[], .inr ⟨ht, rfl⟩, ?_⟩))))
    have e : { s with turns := [] } = s := by rw [← ht]
    rw [e]
    cases hb : s.BUSY
    · exact .inr ⟨rfl, by rw [coreTurn_idle s hb] at h; cases h; rfl⟩
    · exact .inl ⟨rfl, by rwa [coreTurn_busy s hb] at h⟩

theorem loadedPair_cases (nk nr : BitVec 4) (h : loadedPair nk nr = true) :
    (nk = 4 ∧ nr = 10) ∨ (nk = 6 ∧ nr = 12) ∨ (nk = 8 ∧ nr = 14) := by
  simpa [loadedPair, or_assoc] using h

theorem loaded_bounds {s : State} (h : s.loaded) :
    s.NR.toNat ≤ 14 ∧ 10 ≤ s.NR.toNat ∧ s.NK.toNat ∈ [4, 6, 8] ∧ s.NR.toNat = s.NK.toNat + 6 := by
  rcases loadedPair_cases _ _ h.1 with ⟨h1, h2⟩ | ⟨h1, h2⟩ | ⟨h1, h2⟩ <;> simp [h1, h2]

/-- In a state with the invariant the transition table is read where rule R159 defines it. -/
theorem phaseReachable_of_inv (s : State) (hi : Inv s) (hb : s.BUSY = true) : s.phaseReachable = true := by
  have hp := hi.phase
  have hc := (hi.busy_flags hb).2.2.2.2
  have hne := hi.busy_iff_phase.1 hb
  unfold State.phaseReachable
  cases h : s.PH <;> simp [h] at hne ⊢ <;> simp [State.phaseInv, h, State.loaded] at hp <;> simp [hc, hp]

end Sys2Proof.Machine
end

