-- ==== Sys2Proof/Tests/Slice0.lean ====
section
/-! SUPPORT. Tests/Slice0: the well-formedness smoke tests, every constructor's decoding by a word written out from
rules R71 to R73, one-step tests on the vectors of spec/95_test_vectors.md, and, for each statement that has
hypotheses, a state and operands that meet them. -/

open Sys2Proof Sys2Proof.Machine

namespace Sys2Proof.Tests

/-! ## Helpers -/

/-- The block with the given 32 hexadecimal digits, first byte first (rule R7). -/
def blk (n : Nat) : Block := Vector.ofFn fun i : Fin 16 => BitVec.ofNat 8 (n / 256 ^ (15 - i.val))

/-- The word with the given 8 hexadecimal digits, byte 0 first (rule R9). -/
def wd (n : Nat) : Word := Vector.ofFn fun i : Fin 4 => BitVec.ofNat 8 (n / 256 ^ (3 - i.val))

/-- The state matrix written as a block (rule R10). -/
def mat (n : Nat) : Mat := blockToMatrix (blk n)

/-- The state reached, if the outcome is one. -/
def after (o : Out) : Option State :=
  match o with
  | .next s => some s
  | .fault _ => none
  | .refused _ => none

/-- The refusal, if the outcome is one. -/
def refusal (o : Out) : Option Refusal :=
  match o with
  | .next _ => none
  | .fault _ => none
  | .refused r => some r

/-- A field of the state reached. -/
def look {α : Type} (o : Out) (f : State → α) : Option α := (after o).map f

/-- The bytes of a matrix in block order. -/
def bytesOf (m : Mat) : List Byte := (matrixToBlock m).toList

/-- The machine with key bytes 00, 01, ... and the document's plaintext, lengths as given. -/
def loadedInputs (klen blen : Byte) : State :=
  { State.reset with
    KEYBUF := Vector.ofFn fun i => BitVec.ofNat 8 i.val, KLEN := klen, BLEN := blen,
    DIN := blk 0x00112233445566778899aabbccddeeff }

/-- The core running command `c` in phase `p`, with a key of `klen` bytes loaded and the inputs legal. -/
def running (c : Byte) (p : Phase) (klen : Byte) (ki rnd : Nat) : State :=
  { loadedInputs klen 16 with
    BUSY := true, PH := p, CMDR := c, NK := BitVec.ofNat 4 (klen.toNat / 4), NR := BitVec.ofNat 4 (klen.toNat / 4 + 6),
    KI := BitVec.ofNat 6 ki, RND := BitVec.ofNat 4 rnd }

/-- The core about to run `CHK` of command `c`. -/
def checking (c klen blen : Byte) : State :=
  { loadedInputs klen blen with BUSY := true, PH := .check, CMDR := c }

/-- The state after a successful `KEXP` or `ENC` as the flags show it. -/
def finished (c : Byte) : State :=
  { loadedInputs 16 16 with
    DONE := true, OUT_VALID := true, SCHED := .forward, CMDR := c, NK := 4, NR := 10, DOUT := blk 1 }

/-- The state after an error of code 2. -/
def failed : State := { loadedInputs 20 16 with DONE := true, ERR := .invalidKeyLength, CMDR := 0x01 }

/-- The same state with turns scheduled. -/
def withTurns (s : State) (ts : List Turn) : State := { s with turns := ts }

/-! ## Well-formedness smoke: ill-formed terms are refused (rules R74, R78) -/

theorem test_rcon_14_ill_formed : Instr.wellFormed (.rcon 14) = false := by decide
theorem test_rcon_255_ill_formed : Instr.wellFormed (.rcon 255) = false := by decide
theorem test_rcon_14_illegal : Instr.legal (.rcon 14) = false := by decide
theorem test_gfmul_0_illegal : Instr.legal (.gfmul 0) = false := by decide
theorem test_gfmul_15_illegal : Instr.legal (.gfmul 15) = false := by decide
theorem test_gfmul_14_legal : Instr.legal (.gfmul 14) = true := by decide

/-! ## Decoding: the words of rules R71, R72, R73 -/

theorem test_decode_commands :
    decodeTableWord 16 0b0000000100000000 = some .enc ∧ decodeTableWord 16 0b0000001000000000 = some .dec ∧
    decodeTableWord 16 0b0000001100000000 = some .kexp ∧ decodeTableWord 16 0b0000010000000000 = some .kexpi := by
  decide

theorem test_decode_check_and_schedule :
    decodeTableWord 16 0b0001000000000000 = some .chk ∧ decodeTableWord 16 0b0010000000000000 = some .kload ∧
    decodeTableWord 16 0b0010000100000000 = some .kstep ∧ decodeTableWord 16 0b0010001000000000 = some .kinvr := by
  decide

theorem test_decode_codec :
    decodeTableWord 16 0b0011000000000000 = some .ldst ∧ decodeTableWord 16 0b0011000100000000 = some .stst := by
  decide

theorem test_decode_forward_pipeline :
    decodeTableWord 16 0b0100000000000000 = some .ark ∧ decodeTableWord 16 0b0100000100000000 = some .subb ∧
    decodeTableWord 16 0b0100001000000000 = some .shrow ∧ decodeTableWord 16 0b0100001100000000 = some .mixc := by
  decide

theorem test_decode_inverse_pipeline :
    decodeTableWord 16 0b0101000100000000 = some .isubb ∧ decodeTableWord 16 0b0101001000000000 = some .ishrow ∧
    decodeTableWord 16 0b0101001100000000 = some .imixc := by
  decide

theorem test_decode_multiplier :
    decodeTableWord 16 0b0110000000000000 = some .xtime ∧ decodeTableWord 16 0b0110000100001110 = some (.gfmul 14) ∧
    decodeTableWord 16 0b0110000111111111 = some (.gfmul 255) := by
  decide

theorem test_decode_tables :
    decodeTableWord 16 0b0111000000000000 = some .sbox ∧ decodeTableWord 16 0b0111000100000000 = some .isbox ∧
    decodeTableWord 16 0b0111001000001101 = some (.rcon 13) ∧ decodeTableWord 16 0b0111001100000000 = some .rotw ∧
    decodeTableWord 16 0b0111010000000000 = some .subw := by
  decide

/-- Dots of rule R76's map, a non-zero `arg`, and `RCON 14` are rejected, each by its name (rule R78). -/
theorem test_decode_rejections :
    rejectWord 0x0000 = .unassignedOp 0x00 ∧ decodeTableWord 16 0x0000 = none ∧ decodeTableWord 16 0x0500 = none ∧
    decodeTableWord 16 0x1100 = none ∧ decodeTableWord 16 0x5000 = none ∧ decodeTableWord 16 0x7500 = none ∧
    decodeTableWord 16 0x8000 = none ∧ rejectWord 0x1001 = .nonzeroArg 0x10 0x01 ∧
    decodeTableWord 16 0x1001 = none ∧ decodeTableWord 16 0x720e = none := by
  decide

/-- The host cannot issue a format U or F word: `CMD` writes of 0x21 and 0x60 name no command (rule R78). -/
theorem test_command_bytes :
    decodeCommand 0x02 = some .dec ∧ decodeCommand 0x21 = none ∧ decodeCommand 0x60 = none ∧
    decodeCommand 0x00 = none ∧ decodeCommand 0x05 = none := by
  decide

/-! ## The operations, on the spec's vectors -/

/-- Rule R154: acceptance. -/
theorem test_enc_acceptance :
    look (exec .enc failed) (fun t => (t.statusByte, t.ERR.code, t.CMDR, t.PH)) = some (0x01, 0, 0x01, .check) := by
  decide

theorem test_dec_acceptance :
    look (exec .dec (finished 0x01)) (fun t => (t.statusByte, t.NK, t.NR, t.CMDR)) = some (0x01, 0, 0, 0x02) := by
  decide

theorem test_kexp_acceptance : look (exec .kexp State.reset) (fun t => (t.BUSY, t.CMDR)) = some (true, 0x03) := by
  decide

/-- Rule R196: a command written while busy is dropped. -/
theorem test_kexpi_dropped_while_busy :
    look (exec .kexpi (checking 0x01 16 16)) (fun t => (t.PH, t.CMDR)) = some (.check, 0x01) := by
  decide

/-- V23, the row with both lengths wrong. -/
theorem test_chk_block_length_first :
    look (exec .chk (checking 0x01 20 15)) (fun t => (t.ERR.code, t.statusByte, t.PH)) = some (1, 0x02, .idle) := by
  decide

/-- V23, `KEXPI` with `BLEN` 15 and `KLEN` 20. -/
theorem test_chk_kexpi_tests_no_block :
    look (exec .chk (checking 0x04 20 15)) (fun t => (t.ERR.code, t.statusByte)) = some (2, 0x02) := by
  decide

/-- V18, the 24-byte row. -/
theorem test_kload_24 :
    look (exec .kload (checking 0x03 24 0)) (fun t => (t.NK, t.NR, t.KI, t.W[5].toList, t.W[6].toList)) =
      some (6, 12, 6, (wd 0x14151617).toList, (wd 0).toList) := by
  decide

/-- Rule R118's table, 128-bit key, `i = 4`. -/
theorem test_kstep_first_branch :
    look (exec .kstep { running 0x01 .kexp 16 4 0 with
        W := (State.reset.W.set 0 (wd 0x00010203)).set 3 (wd 0x0c0d0e0f) })
      (fun t => (t.KI, t.W[4].toList)) = some (5, (wd 0xd6aa74fd).toList) := by
  decide

/-- Rule R118's table, 256-bit key, `i = 12`. -/
theorem test_kstep_second_branch :
    look (exec .kstep { running 0x01 .kexp 32 12 0 with
        W := (State.reset.W.set 4 (wd 0x10111213)).set 11 (wd 0xa572c09c) })
      (fun t => (t.KI, t.W[12].toList)) = some (13, (wd 0x1651a8cd).toList) := by
  decide

/-- V20, first row. -/
theorem test_kinvr_round_1 :
    look (exec .kinvr { running 0x04 .kinv 16 44 1 with
        W := ((State.reset.W.set 4 (wd 0xd6aa74fd)).set 7 (wd 0xd6ab76fe)).set 8 (wd 0xb692cf0b) })
      (fun t => (t.W[4].toList, t.W[7].toList, t.W[8].toList)) =
      some ((wd 0x8c56dff0).toList, (wd 0x8659d7fd).toList, (wd 0xb692cf0b).toList) := by
  decide

/-- V22: column-major, `S[1][0] = 11` and `S[0][1] = 44`. -/
theorem test_ldst_column_major :
    look (exec .ldst (loadedInputs 16 16)) (fun t => (t.S[1][0], t.S[0][1], t.S[3][2])) = some (0x11, 0x44, 0xbb) := by
  decide

theorem test_stst_column_major :
    look (exec .stst { State.reset with S := mat 0x000102030405060708090a0b0c0d0e0f })
      (fun t => t.DOUT.toList) = some (blk 0x000102030405060708090a0b0c0d0e0f).toList := by
  decide

/-- V27, second row: `RND = 1`. -/
theorem test_ark_round_1 :
    look (exec .ark { State.reset with
        RND := 1, S := mat 0x5f72641557f5bc92f7be3b291db9f91a,
        W := (((State.reset.W.set 4 (wd 0xd6aa74fd)).set 5 (wd 0xd2af72fa)).set 6 (wd 0xdaa678f1)).set 7
          (wd 0xd6ab76fe) })
      (fun t => bytesOf t.S) = some (blk 0x89d810e8855ace682d1843d8cb128fe4).toList := by
  decide

/-- V24. -/
theorem test_subb :
    look (exec .subb { State.reset with S := mat 0x00102030405060708090a0b0c0d0e0f0 }) (fun t => bytesOf t.S) =
      some (blk 0x63cab7040953d051cd60e0e7ba70e18c).toList := by
  decide

theorem test_isubb :
    look (exec .isubb { State.reset with S := mat 0x7ad5fda789ef4e272bca100b3d9ff59f }) (fun t => bytesOf t.S) =
      some (blk 0xbdb52189f261b63d0b107c9e8b6e776e).toList := by
  decide

/-- V25. -/
theorem test_shrow :
    look (exec .shrow { State.reset with S := mat 0x000102030405060708090a0b0c0d0e0f }) (fun t => bytesOf t.S) =
      some (blk 0x00050a0f04090e03080d02070c01060b).toList := by
  decide

theorem test_ishrow :
    look (exec .ishrow { State.reset with S := mat 0x000102030405060708090a0b0c0d0e0f }) (fun t => bytesOf t.S) =
      some (blk 0x000d0a0704010e0b0805020f0c090603).toList := by
  decide

/-- V26, whole states. -/
theorem test_mixc :
    look (exec .mixc { State.reset with S := mat 0x6353e08c0960e104cd70b751bacad0e7 }) (fun t => bytesOf t.S) =
      some (blk 0x5f72641557f5bc92f7be3b291db9f91a).toList := by
  decide

theorem test_imixc :
    look (exec .imixc { State.reset with S := mat 0xbd6e7c3df2b5779e0b61216e8b10b689 }) (fun t => bytesOf t.S) =
      some (blk 0x4773b91ff72f354361cb018ea1e6cf2c).toList := by
  decide

/-- V12, with and without the reduction. -/
theorem test_xtime :
    look (exec .xtime { State.reset with unitByteIn := 0xff }) (·.unitOut) = some (.byte 0xe5) ∧
    look (exec .xtime { State.reset with unitByteIn := 0x7f }) (·.unitOut) = some (.byte 0xfe) := by
  decide

/-- V13, row 57. -/
theorem test_gfmul :
    look (exec (.gfmul 14) { State.reset with unitByteIn := 0x57 }) (·.unitOut) = some (.byte 0x67) ∧
    look (exec (.gfmul 11) { State.reset with unitByteIn := 0x57 }) (·.unitOut) = some (.byte 0x77) := by
  decide

/-- V14: the unsupported constant raises and drives no byte; standing alone it writes no register (R177, R183). -/
theorem test_gfmul_raises :
    look (step (withTurns failed [.unit 0x6104 0x57 (wd 0)])) (fun t => (t.ERR.code, t.statusByte, t.unitOut)) =
      some (2, 0x02, .raised .unsupportedFieldMultiplier) := by
  decide

/-- V14: the generic matrix product, with a matrix holding 4, ends the micro-operation by the error entry. -/
theorem test_mix_with_unsupported_matrix_raises :
    look (mixState (rotatedRows #v[2, 4, 1, 1]) (running 0x01 .mix 16 44 1))
      (fun t => (t.ERR.code, t.statusByte, t.NK, t.PH)) = some (3, 0x02, 0, .idle) := by
  decide

/-- Rule R106: the fourth row of each matrix. -/
theorem test_mix_matrix_rows :
    mixMatrix[3].toList = [3, 1, 1, 2] ∧ invMixMatrix[3].toList = [11, 13, 9, 14] := by
  decide

/-- V15. -/
theorem test_sbox :
    look (exec .sbox { State.reset with unitByteIn := 0x53 }) (·.unitOut) = some (.byte 0xed) ∧
    look (exec .sbox { State.reset with unitByteIn := 0x9a }) (·.unitOut) = some (.byte 0xb8) := by
  decide

theorem test_isbox :
    look (exec .isbox { State.reset with unitByteIn := 0xed }) (·.unitOut) = some (.byte 0x53) ∧
    look (exec .isbox { State.reset with unitByteIn := 0xfe }) (·.unitOut) = some (.byte 0x0c) := by
  decide

/-- V16. -/
theorem test_rcon :
    look (exec (.rcon 8) State.reset) (·.unitOut) = some (.byte 0x1b) ∧
    look (exec (.rcon 13) State.reset) (·.unitOut) = some (.byte 0x4d) := by
  decide

/-- V17. -/
theorem test_rotw :
    look (exec .rotw { State.reset with unitWordIn := wd 0x0c0d0e0f }) (·.unitOut) =
      some (.word (wd 0x0d0e0f0c)) := by
  decide

theorem test_subw :
    look (exec .subw { State.reset with unitWordIn := wd 0xd6ab76fe }) (·.unitOut) =
      some (.word (wd 0xf66238bb)) := by
  decide

/-! ## The sequencer, the host port and the placing of words -/

/-- V28, step 84: `STST` and `finish` in one step. -/
theorem test_store_step_finishes :
    look (step { running 0x01 .store 16 44 10 with S := mat 0x69c4e0d86a7b0430d8cdb78070b4c55a })
      (fun t => (t.statusByte, t.DOUT[0], t.PH)) = some (0x0e, 0x69, .idle) := by
  decide

/-- Rule R159, `KEXP` phase: after the last word of a 128-bit schedule `DEC` goes on to `KINV` with `RND = 1`. -/
theorem test_last_kstep_of_dec :
    look (step (running 0x02 .kexp 16 43 0)) (fun t => (t.KI, t.RND, t.PH)) = some (44, 1, .kinv) := by
  decide

/-- Rules R55, R56: the gates. -/
theorem test_reads_are_gated :
    memRead 0x02f (finished 0x01) = 0x01 ∧ memRead 0x02f { finished 0x01 with OUT_VALID := false } = 0x00 ∧
    memRead 0x001 (finished 0x01) = 0x0e ∧ memRead 0x005 (finished 0x01) = 4 := by
  decide

/-- From reset, the very next step runs a placed word: a command, a micro-operation and a function-unit word. -/
theorem test_placed_words_run :
    look (step (State.reset.withFetchWord 16 0x0100)) (fun t => (t.BUSY, t.CMDR, t.PH)) = some (true, 0x01, .check) ∧
    look (step (State.reset.withFetchWord 16 0x4200)) (fun t => t.PH) = some .mix ∧
    look (step (State.reset.withFetchWord 16 0x7209)) (·.unitOut) = some (.byte 0x36) := by
  decide

/-! ## Witnesses: for each statement with hypotheses, a state and operands that meet them together -/

theorem witness_DecodeInvertsEncode :
    Instr.wellFormed .enc = true ∧ Instr.wellFormed (.gfmul 0) = true ∧ Instr.wellFormed (.gfmul 255) = true ∧
    Instr.wellFormed (.rcon 0) = true ∧ Instr.wellFormed (.rcon 13) = true := by decide

theorem witness_DecodedWordIsItsEncoding : decodeWord 0x720d = .ok (.rcon 13) ∧ decodeWord 0x61ff = .ok (.gfmul 255) :=
  ⟨rfl, rfl⟩

theorem witness_StepRuns_sequencer :
    let s := running 0x01 .shift 16 44 10
    s.BUSY = true ∧ s.turns = [] ∧ s.phaseReachable = true ∧ issue s.PH s.CMDR = some 0x4200 ∧
      decodeWord 0x4200 = .ok .shrow ∧ ∃ u, exec .shrow s = .next u :=
  ⟨rfl, rfl, by decide, rfl, rfl, _, rfl⟩

theorem witness_StepRuns_scheduled_core_turn :
    let s := withTurns (checking 0x03 16 0) [.core, .hostRead 0x001]
    s.BUSY = true ∧ s.turns = .core :: [.hostRead 0x001] ∧ s.phaseReachable = true ∧
      issue s.PH s.CMDR = some 0x1000 ∧ decodeWord 0x1000 = .ok .chk ∧
      ∃ u, exec .chk { s with turns := [.hostRead 0x001] } = .next u :=
  ⟨rfl, rfl, by decide, rfl, rfl, _, rfl⟩

theorem witness_StepRuns_command :
    (withTurns State.reset [.hostWrite 0x000 0x04]).turns = .hostWrite 0x000 0x04 :: [] ∧
      decodeWord (0x04#8 ++ 0x00#8) = .ok .kexpi ∧ Instr.format .kexpi = .command := ⟨rfl, rfl, rfl⟩

theorem witness_StepRuns_unit :
    (withTurns State.reset [.unit 0x610e 0x57 (wd 0)]).turns = .unit 0x610e 0x57 (wd 0) :: [] ∧
      decodeWord 0x610e = .ok (.gfmul 14) ∧ Instr.format (.gfmul 14) = .unit := ⟨rfl, rfl, rfl⟩

/-- A reset during a command. -/
theorem witness_HostResetFromAnyState :
    (withTurns (running 0x02 .mix 24 52 3) [.hostReset, .core]).turns = .hostReset :: [.core] ∧
      (running 0x02 .mix 24 52 3).BUSY = true := ⟨rfl, rfl⟩

theorem witness_FlagsRise_busy :
    let s := withTurns State.reset [.hostWrite 0x000 0x01]
    s.BUSY = false ∧ ∃ t, step s = .next t ∧ t.BUSY = true := ⟨rfl, _, rfl, rfl⟩

theorem witness_FlagsRise_outValid_sched_done :
    let s := running 0x01 .store 16 44 10
    s.turns = [] ∧ s.OUT_VALID = false ∧ s.SCHED = .none ∧ s.BUSY = true ∧
      ∃ t, step s = .next t ∧ t.OUT_VALID = true ∧ t.SCHED = .forward ∧ t.BUSY = false :=
  ⟨rfl, rfl, rfl, rfl, _, rfl, rfl, rfl, rfl⟩

theorem witness_RegistersWritten :
    let s := running 0x01 .kexp 32 59 0
    look (exec .kstep s) (fun t => decide (t.KI = s.KI + 1)) = some true ∧
      look (exec .stst s) (fun t => t.RND) = some s.RND ∧
      look (exec (.gfmul 4) s) (fun t => (t.NK, t.NR)) = some (s.NK, s.NR) ∧
      look (exec .chk (checking 0x01 20 16)) (fun t => t.ERR.code) = some 2 ∧
      look (exec .enc failed) (fun t => (t.BUSY, t.NK)) = some (true, 0) ∧
      Instr.format (.gfmul 4) ≠ .command ∧ Instr.gfmul 4 ≠ .chk := by decide

theorem witness_HostRead_turn :
    (withTurns State.reset [.hostRead 0x1FF]).turns = .hostRead 0x1FF :: [] := rfl

/-- The boundaries of the unlisted ranges. -/
theorem witness_HostRead_reserved :
    ∀ a ∈ ([0x007, 0x00F, 0x030, 0x03F, 0x060, 0x0FF, 0x1F0, 0x1FF] : List Addr),
      (0x007 ≤ a.toNat ∧ a.toNat ≤ 0x00F) ∨ (0x030 ≤ a.toNat ∧ a.toNat ≤ 0x03F) ∨
        (0x060 ≤ a.toNat ∧ a.toNat ≤ 0x0FF) ∨ 0x1F0 ≤ a.toNat := by decide

/-- A busy state with the invariant. -/
theorem inv_checking : Inv (checking 0x01 16 16) where
  busy_iff_phase := by decide
  busy_flags := by decide
  out_valid := by decide
  sched_set := by decide
  err_set := by decide
  done_ok := by decide
  idle_clear := by decide
  phase := ⟨rfl, rfl⟩

theorem witness_HostRead_busy : Inv (checking 0x01 16 16) ∧ (checking 0x01 16 16).BUSY = true := ⟨inv_checking, rfl⟩

theorem witness_HostWriteStoresOneByte :
    (finished 0x01).BUSY = false ∧
    (∀ a ∈ ([0x003, 0x004, 0x010, 0x01F, 0x040, 0x05F, 0x001, 0x020, 0x1FF] : List Addr), a ≠ 0x000) ∧
    (0x010 : Addr) = BitVec.ofNat 9 (0x010 + (0 : Fin 16).val) ∧ (0x01F : Addr) = BitVec.ofNat 9 (0x010 + (15 : Fin 16).val) ∧
    (0x040 : Addr) = BitVec.ofNat 9 (0x040 + (0 : Fin 32).val) ∧ (0x05F : Addr) = BitVec.ofNat 9 (0x040 + (31 : Fin 32).val) ∧
    (∀ a ∈ ([0x001, 0x002, 0x005, 0x00F, 0x020, 0x03F, 0x060, 0x100, 0x1EF, 0x1FF] : List Addr),
      a ≠ 0x003 ∧ a ≠ 0x004 ∧ ¬(0x010 ≤ a.toNat ∧ a.toNat ≤ 0x01F) ∧ ¬(0x040 ≤ a.toNat ∧ a.toNat ≤ 0x05F)) ∧
    (withTurns (finished 0x01) [.hostWrite 0x05F 0xAA]).turns = .hostWrite 0x05F 0xAA :: [] := by decide

theorem witness_WrittenByteIsReadBackAlone :
    State.reset.BUSY = false ∧ (0x040 ≤ (0x05F : Addr).toNat ∧ (0x05F : Addr).toNat ≤ 0x05F) ∧
    (0x010 ≤ (0x010 : Addr).toNat ∧ (0x010 : Addr).toNat ≤ 0x01F) ∧ (0x05E : Addr) ≠ 0x05F := by decide

theorem witness_WritesWhileBusyAreDropped :
    (withTurns (checking 0x01 16 16) [.hostWrite 0x000 0x21]).BUSY = true ∧
    (withTurns (checking 0x01 16 16) [.hostWrite 0x000 0x21]).turns = .hostWrite 0x000 0x21 :: [] ∧
    Instr.format .dec = .command := ⟨rfl, rfl, rfl⟩

theorem witness_CommandWriteDiscardsResults :
    (withTurns (finished 0x01) [.hostWrite 0x000 0x00]).BUSY = false ∧
    (withTurns (finished 0x01) [.hostWrite 0x000 0x00]).turns = .hostWrite 0x000 0x00 :: [] ∧
    (finished 0x01).OUT_VALID = true := ⟨rfl, rfl, rfl⟩

theorem witness_EveryRegisterHasOneWriter_core :
    let s := running 0x03 .kexp 16 5 0
    (∃ t, step s = .next t) ∧ s.turns = [] := ⟨⟨_, rfl⟩, rfl⟩

theorem witness_EveryRegisterHasOneWriter_host :
    let s := withTurns (finished 0x03) [.hostWrite 0x01F 0x5A]
    (∃ t, step s = .next t) ∧ s.turns = .hostWrite 0x01F 0x5A :: [] ∧ (0x01F : Addr) ≠ 0x000 :=
  ⟨⟨_, rfl⟩, rfl, by decide⟩

theorem witness_EveryRegisterHasOneWriter_unit :
    let s := withTurns failed [.unit 0x61ff 0x57 (wd 0)]
    (∃ t, step s = .next t) ∧ s.turns = .unit 0x61ff 0x57 (wd 0) :: [] := ⟨⟨_, rfl⟩, rfl⟩

theorem witness_CommandAcceptanceStartsTheSequence :
    failed.BUSY = false ∧ Instr.kexpi ∈ [Instr.enc, .dec, .kexp, .kexpi] := by decide

theorem witness_IllegalCommandByteEntersTheError :
    (withTurns (finished 0x01) [.hostWrite 0x000 0x05]).BUSY = false ∧
    (withTurns (finished 0x01) [.hostWrite 0x000 0x05]).turns = .hostWrite 0x000 0x05 :: [] ∧
    (0x05 : Byte) ∉ ([0x01, 0x02, 0x03, 0x04] : List Byte) ∧ (0x00 : Byte) ∉ ([0x01, 0x02, 0x03, 0x04] : List Byte) ∧
    (0x21 : Byte) ∉ ([0x01, 0x02, 0x03, 0x04] : List Byte) := by decide

theorem witness_Chk_block_error :
    (checking 0x02 20 17).CMDR = 0x02 ∧ (checking 0x02 20 17).BLEN ≠ 16 := by decide

theorem witness_Chk_key_error :
    (checking 0x03 31 15).CMDR ≠ 0x01 ∧ (checking 0x03 31 15).CMDR ≠ 0x02 ∧ (checking 0x03 31 15).KLEN ≠ 16 ∧
    (checking 0x03 31 15).KLEN ≠ 24 ∧ (checking 0x03 31 15).KLEN ≠ 32 := by decide

theorem witness_Chk_passes :
    (checking 0x01 32 16).BLEN = 16 ∧ (checking 0x01 32 16).KLEN = 32 ∧ (checking 0x01 32 16).BUSY = true ∧
    (checking 0x01 32 16).PH = .check ∧ (checking 0x01 32 16).CMDR ∈ ([0x01, 0x02, 0x03, 0x04] : List Byte) ∧
    (checking 0x01 32 16).turns = [] := by decide

theorem witness_EveryRaise_chk :
    let s := checking 0x01 16 15
    (∃ t, exec .chk s = .next t ∧ t.ERR ≠ s.ERR) ∧ Instr.format .chk ≠ .command ∧ s.PH = .check ∧ s.BUSY = true ∧
      s.turns = [] ∧ ∃ t, step s = .next t ∧ t.ERR ≠ s.ERR :=
  ⟨⟨_, rfl, by decide⟩, by decide, rfl, rfl, rfl, _, rfl, by decide⟩

theorem witness_EveryRaise_matrix :
    (∃ r c : Fin 4, (rotatedRows #v[2, 4, 1, 1])[r][c] ∉ ([1, 2, 3, 9, 11, 13, 14] : List Byte)) ∧
    (running 0x02 .kinv 32 60 14).RND.toNat ≤ 14 := by decide

theorem witness_EveryRaise_command :
    failed.BUSY = false ∧ (0x05 : Byte) ∉ ([0x01, 0x02, 0x03, 0x04] : List Byte) := by decide

theorem witness_ErrorStaysUntilTheNextCommand :
    let s := withTurns failed [.unit 0x6104 0x57 (wd 0)]
    (∃ t, step s = .next t) ∧ s.BUSY = false ∧ (∀ rest, s.turns ≠ .hostReset :: rest) ∧
      (∀ v rest, s.turns ≠ .hostWrite 0x000 v :: rest) := by
  refine ⟨⟨_, rfl⟩, rfl, ?_, ?_⟩ <;> simp [withTurns]

theorem witness_ErrorStays_raises :
    (∃ t, step (withTurns failed [.hostWrite 0x000 0x00]) = .next t ∧ t.ERR ≠ failed.ERR ∧ t.ERR ≠ .none) ∧
    ∃ t, step (checking 0x02 16 17) = .next t ∧ t.ERR ≠ (checking 0x02 16 17).ERR ∧ t.ERR ≠ .none :=
  ⟨⟨_, rfl, by decide, by decide⟩, _, rfl, by decide, by decide⟩

theorem witness_Refuses_kload : (checking 0x01 17 16).KLEN ∉ ([16, 24, 32] : List Byte) := by decide

theorem witness_Refuses_kstep :
    State.reset.NK ∉ ([4, 6, 8] : List (BitVec 4)) ∧
    (running 0x01 .kexp 32 7 0).KI.toNat < (running 0x01 .kexp 32 7 0).NK.toNat ∧
    60 ≤ (running 0x01 .kexp 32 60 0).KI.toNat := by decide

theorem witness_Refuses_round_and_rcon :
    (running 0x01 .ark 32 60 15).RND = 15 ∧ 13 < (14 : Byte).toNat ∧ 13 < (255 : Byte).toNat ∧
    refusal (exec (.rcon 14) State.reset) = some (.rconIndexOutOfTable 14) ∧
    refusal (exec .kload (checking 0x01 17 16)) = some .unreachableState ∧
    refusal (exec .kstep (running 0x01 .kexp 32 60 0)) = some .unreachableState ∧
    refusal (exec .ark (running 0x01 .ark 32 60 15)) = some .unreachableState := by decide

theorem witness_Kload :
    (checking 0x01 16 16).KLEN.toNat = 16 ∧ (checking 0x01 24 16).KLEN.toNat = 24 ∧ (checking 0x01 32 16).KLEN.toNat = 32 ∧
    (32, 8, 14) ∈ [(16, 4, 10), (24, 6, 12), (32, 8, 14)] := by decide

/-- Each of the three branches, at the first and at the last index. -/
theorem witness_Kstep :
    (running 0x01 .kexp 16 4 0).KI.toNat = 4 ∧ (running 0x01 .kexp 16 4 0).NK.toNat = 4 ∧ 4 ∈ [4, 6, 8] ∧ 4 % 4 = 0 ∧
    (running 0x01 .kexp 32 52 0).KI.toNat = 52 ∧ (running 0x01 .kexp 32 52 0).NK.toNat = 8 ∧ 52 % 8 ≠ 0 ∧
      (8 > 6 ∧ 52 % 8 = 4) ∧
    (running 0x01 .kexp 32 59 0).KI.toNat = 59 ∧ (59 : Nat) < 60 ∧ 8 ≤ 59 ∧ 59 % 8 ≠ 0 ∧ ¬(8 > 6 ∧ 59 % 8 = 4) ∧
    (running 0x01 .kexp 24 10 0).KI.toNat = 10 ∧ (running 0x01 .kexp 24 10 0).NK.toNat = 6 ∧ 10 % 6 ≠ 0 ∧
      ¬(6 > 6 ∧ 10 % 6 = 4) := by decide

theorem witness_Kinvr :
    (running 0x04 .kinv 16 44 0).RND.toNat ≤ 14 ∧ (running 0x04 .kinv 32 60 14).RND.toNat ≤ 14 := by decide

theorem witness_CodecsInvertAndRoundKeys : (0 : Nat) < 15 ∧ (14 : Nat) < 15 := by decide

theorem witness_AddRoundKey :
    (running 0x01 .ark0 16 44 0).RND.toNat = 0 ∧ (running 0x01 .ark 32 60 14).RND.toNat = 14 ∧ (14 : Nat) < 15 := by decide

theorem witness_LanesDependOnlyOnTheirOwn :
    let s := { running 0x01 .ark 16 44 1 with S := mat 0x000102030405060708090a0b0c0d0e0f }
    let s' := { s with S := mat 0x00010203040506070809aabb0c0d0e0f }
    s.W = s'.W ∧ s.RND = s'.RND ∧ (∃ t t', exec .subb s = .next t ∧ exec .subb s' = .next t') ∧
      (∃ t t', exec .ark s = .next t ∧ exec .ark s' = .next t') ∧ s.S[3][3] = s'.S[3][3] ∧
      (∃ t, exec .ishrow s = .next t) ∧ (∃ t t', exec .mixc s = .next t ∧ exec .mixc s' = .next t') ∧
      ∀ r : Fin 4, s.S[r][(3 : Fin 4)] = s'.S[r][(3 : Fin 4)] :=
  ⟨rfl, rfl, ⟨_, _, rfl, rfl⟩, ⟨_, _, rfl, rfl⟩, by decide, ⟨_, rfl⟩, ⟨_, _, rfl, rfl⟩, by decide⟩

theorem witness_RoundTransforms :
    (running 0x02 .ark 32 60 14).RND.toNat ≤ 14 ∧
    (mixColumns (mat 1) invMixMatrix).isSome = true ∧ (mixColumns (mat 2) invMixMatrix).isSome = true ∧
    (mixColumn (wd 0xdb135345) mixMatrix).isSome = true ∧ (mixColumn (wd 0xf20a225c) mixMatrix).isSome = true := by
  decide

theorem witness_Xtime :
    ({ State.reset with unitByteIn := 127 } : State).unitByteIn.toNat < 128 ∧
    128 ≤ ({ State.reset with unitByteIn := 128 } : State).unitByteIn.toNat := by decide

theorem witness_Gfmul :
    (14 : Byte) ∈ ([1, 2, 3, 9, 11, 13, 14] : List Byte) ∧ (0 : Byte) ∉ ([1, 2, 3, 9, 11, 13, 14] : List Byte) ∧
    (255 : Byte) ∉ ([1, 2, 3, 9, 11, 13, 14] : List Byte) := by decide

theorem witness_FieldLaws :
    mul 0x57 3 = some 0xf9 ∧ mul 0x01 3 = some 0x03 ∧ mul (0x57 ^^^ 0x01) 3 = some 0xfa := by decide

theorem witness_MixColumnFails :
    (∃ t, exec .mixc { failed with ERR := .unsupportedFieldMultiplier } = .next t ∧
      t.ERR = .unsupportedFieldMultiplier) ∧
    ∃ t, step { failed with ERR := .unsupportedFieldMultiplier } = .next t ∧ t.ERR = .unsupportedFieldMultiplier :=
  ⟨⟨_, rfl, rfl⟩, _, rfl, rfl⟩

theorem witness_MixColumns_written_out : ∃ t, exec .mixc State.reset = .next t := ⟨_, rfl⟩

theorem witness_SboxAndIsbox :
    (∃ t u b, exec .sbox State.reset = .next t ∧ t.unitOut = .byte b ∧
      exec .isbox { t with unitByteIn := b } = .next u) ∧
    ∃ t u b, exec .isbox State.reset = .next t ∧ t.unitOut = .byte b ∧
      exec .sbox { t with unitByteIn := b } = .next u :=
  ⟨⟨_, _, _, rfl, rfl, rfl⟩, _, _, _, rfl, rfl, rfl⟩

theorem witness_SboxIsInverseThenAffine : gfProduct 0x53 0xca = 0x01 ∧ (0x53 : Byte) ≠ 0x00 := by decide

theorem witness_Rcon : (13 : Byte).toNat ≤ 13 ∧ (0 : Byte).toNat ≤ 13 := by decide

theorem witness_MicroOperations_tables :
    (∃ t, exec .subb State.reset = .next t) ∧
    (∃ u, exec .sbox { State.reset with unitByteIn := State.reset.S[3][3] } = .next u) ∧
    (∃ t, exec .imixc State.reset = .next t) ∧
    ∃ (u : Fin 4 → State) (b : Fin 4 → Byte), ∀ j : Fin 4,
      exec (.gfmul invMixMatrix[(3 : Fin 4)][j]) { State.reset with unitByteIn := State.reset.S[j][(3 : Fin 4)] } =
        .next (u j) ∧ (u j).unitOut = .byte (b j) :=
  ⟨⟨_, rfl⟩, ⟨_, rfl⟩, ⟨_, rfl⟩,
    fun j => { State.reset with unitByteIn := State.reset.S[j][(3 : Fin 4)], unitOut := .byte 0 }, fun _ => 0, fun j => by
      fin_cases j <;> exact ⟨rfl, rfl⟩⟩

theorem witness_MicroOperations_kstep :
    let s := running 0x01 .kexp 16 40 0
    s.KI.toNat = 40 ∧ s.NK.toNat = 4 ∧ 40 % 4 = 0 ∧ (∃ t, exec .kstep s = .next t) ∧
      ∃ a b c rot sub con, exec .rotw { s with unitWordIn := s.W[39] } = .next a ∧ a.unitOut = .word rot ∧
        exec .subw { s with unitWordIn := rot } = .next b ∧ b.unitOut = .word sub ∧
        exec (.rcon (BitVec.ofNat 8 (40 / 4 - 1))) s = .next c ∧ c.unitOut = .byte con :=
  ⟨by decide, by decide, by decide, ⟨_, rfl⟩, _, _, _, _, _, _, rfl, rfl, rfl, rfl, rfl, rfl⟩

/-- The hypotheses common to the clauses of the transition table, in a given state. -/
def TransitionPremises (s : State) (i : Instr) : Prop :=
  s.BUSY = true ∧ s.turns = [] ∧ s.phaseReachable = true ∧ issuedOp s = some i ∧
    ∃ u, exec i s = .next u ∧ u.BUSY = true

theorem witness_Transition_check : TransitionPremises (checking 0x02 24 16) .chk :=
  ⟨rfl, rfl, by decide, rfl, _, rfl, rfl⟩
theorem witness_Transition_kload : TransitionPremises (running 0x04 .kload 32 0 0) .kload :=
  ⟨rfl, rfl, by decide, rfl, _, rfl, rfl⟩

/-- `KEXP` phase: the last word for each command, and a word before the last. -/
theorem witness_Transition_kexp :
    (∀ c ∈ ([0x01, 0x02, 0x03, 0x04] : List Byte), (running c .kexp 16 43 0).phaseReachable = true ∧
      issuedOp (running c .kexp 16 43 0) = some .kstep ∧
      look (exec .kstep (running c .kexp 16 43 0)) (fun u => (u.BUSY, u.KI.toNat)) = some (true, 44)) ∧
    look (exec .kstep (running 0x01 .kexp 16 42 0)) (fun u => (u.BUSY, u.KI.toNat)) = some (true, 43) := by decide

/-- `KINV` phase: the last round for each command, and a round before the last. -/
theorem witness_Transition_kinv :
    TransitionPremises (running 0x04 .kinv 16 44 9) .kinvr ∧ TransitionPremises (running 0x02 .kinv 16 44 9) .kinvr ∧
    TransitionPremises (running 0x02 .kinv 16 44 1) .kinvr ∧
    (running 0x04 .kinv 16 44 9).RND = (running 0x04 .kinv 16 44 9).NR - 1 :=
  ⟨⟨rfl, rfl, by decide, rfl, _, rfl, rfl⟩, ⟨rfl, rfl, by decide, rfl, _, rfl, rfl⟩,
    ⟨rfl, rfl, by decide, rfl, _, rfl, rfl⟩, by decide⟩

theorem witness_Transition_rounds :
    TransitionPremises (running 0x01 .load 16 44 0) .ldst ∧ TransitionPremises (running 0x02 .ark0 16 44 10) .ark ∧
    TransitionPremises (running 0x02 .sub 16 44 9) .isubb ∧ TransitionPremises (running 0x01 .shift 16 44 10) .shrow ∧
    TransitionPremises (running 0x02 .shift 16 44 0) .ishrow ∧ TransitionPremises (running 0x01 .shift 16 44 9) .shrow ∧
    TransitionPremises (running 0x02 .mix 16 44 1) .imixc ∧ TransitionPremises (running 0x01 .ark 16 44 10) .ark ∧
    TransitionPremises (running 0x01 .ark 16 44 9) .ark ∧ TransitionPremises (running 0x02 .ark 16 44 1) .ark ∧
    TransitionPremises (running 0x02 .store 16 44 0) .stst :=
  ⟨⟨rfl, rfl, by decide, rfl, _, rfl, rfl⟩, ⟨rfl, rfl, by decide, rfl, _, rfl, rfl⟩,
    ⟨rfl, rfl, by decide, rfl, _, rfl, rfl⟩, ⟨rfl, rfl, by decide, rfl, _, rfl, rfl⟩,
    ⟨rfl, rfl, by decide, rfl, _, rfl, rfl⟩, ⟨rfl, rfl, by decide, rfl, _, rfl, rfl⟩,
    ⟨rfl, rfl, by decide, rfl, _, rfl, rfl⟩, ⟨rfl, rfl, by decide, rfl, _, rfl, rfl⟩,
    ⟨rfl, rfl, by decide, rfl, _, rfl, rfl⟩, ⟨rfl, rfl, by decide, rfl, _, rfl, rfl⟩,
    ⟨rfl, rfl, by decide, rfl, _, rfl, rfl⟩⟩

/-- An idle core with legal lengths, for each key length (the four commands' statements and rules R82, R164). -/
theorem witness_ready_and_legal :
    ∀ k ∈ ([16, 24, 32] : List Byte), ∀ i ∈ [Instr.enc, .dec, .kexp, .kexpi],
      (loadedInputs k 16).ready ∧ (loadedInputs k 16).inputsLegal i ∧ i.format = .command ∧
        look (exec i (loadedInputs k 16)) (·.BUSY) = some true := by
  unfold State.ready State.inputsLegal; decide

/-- Illegal lengths, and the acceptance that precedes the failing `CHK`. -/
theorem witness_ready_and_illegal :
    (loadedInputs 20 16).ready ∧ ¬(loadedInputs 20 16).inputsLegal .kexp ∧ (loadedInputs 16 15).ready ∧
      ¬(loadedInputs 16 15).inputsLegal .dec ∧ (∃ a, exec .kexp (loadedInputs 20 16) = .next a) ∧
      ∃ a, exec .dec (loadedInputs 16 15) = .next a := by
  unfold State.ready State.inputsLegal
  exact ⟨by decide, by decide, by decide, by decide, ⟨_, rfl⟩, _, rfl⟩

theorem witness_CiphersUndoEachOther :
    (List.replicate 16 (0 : Byte)).length = 16 ∧ (List.replicate 32 (0 : Byte)).length = 32 := by decide

/-- Busy, with the invariant, and a next state. -/
theorem witness_EveryStepKeepsTheInvariant :
    Inv (checking 0x01 16 16) ∧ ∃ t, step (checking 0x01 16 16) = .next t := ⟨inv_checking, _, rfl⟩

theorem scheduleInv_checking : ScheduleInv (checking 0x01 16 16) where
  kexp := fun h => absurd h (by decide)
  kinv := fun h => absurd h (by decide)
  rounds := fun h => absurd h (by decide)
  forward := fun h => absurd h (by decide)
  inverse := fun h => absurd h (by decide)

theorem witness_EveryStepKeepsTheSchedule :
    Inv (checking 0x01 16 16) ∧ ScheduleInv (checking 0x01 16 16) ∧ ∃ t, step (checking 0x01 16 16) = .next t :=
  ⟨inv_checking, scheduleInv_checking, _, rfl⟩

/-- The zero key just loaded by `KLOAD` under `KEXP`: the first four words of its schedule. -/
def zeroKeyLoaded : State := { running 0x03 .kexp 16 4 0 with KEYBUF := State.reset.KEYBUF }

theorem inv_zeroKeyLoaded : Inv zeroKeyLoaded where
  busy_iff_phase := by decide
  busy_flags := by decide
  out_valid := by decide
  sched_set := by decide
  err_set := by decide
  done_ok := by decide
  idle_clear := by decide
  phase := ⟨⟨by decide, by decide, by decide⟩, by decide, by decide⟩

theorem scheduleInv_zeroKeyLoaded : ScheduleInv zeroKeyLoaded where
  kexp := fun _ => by
    refine ⟨(expandKey zeroKeyLoaded.key).getD [], by rfl, by decide, ?_⟩
    unfold wordsAgree
    decide
  kinv := fun h => absurd h (by decide)
  rounds := fun h => absurd h (by decide)
  forward := fun h => absurd h (by decide)
  inverse := fun h => absurd h (by decide)

theorem witness_EveryStepKeepsTheSchedule_kexp :
    Inv zeroKeyLoaded ∧ ScheduleInv zeroKeyLoaded ∧ ∃ t, step zeroKeyLoaded = .next t :=
  ⟨inv_zeroKeyLoaded, scheduleInv_zeroKeyLoaded, _, rfl⟩

theorem witness_BusyCore_and_RunningCommand :
    Inv (checking 0x01 16 16) ∧ (checking 0x01 16 16).BUSY = true ∧ (checking 0x01 16 16).turns = [] ∧
      ∀ w b x rest, (checking 0x01 16 16).turns ≠ .unit w b x :: rest := by
  refine ⟨inv_checking, rfl, rfl, ?_⟩; simp [checking, loadedInputs, State.reset]

theorem witness_Interleaving :
    let ts : List Turn := [.hostRead 0x001, .core, .hostWrite 0x003 24, .core]
    let s := withTurns (checking 0x01 16 16) ts
    s.BUSY = true ∧ s.turns = ts ∧ ts.all Turn.ordinary = true ∧
      ∃ u, run (ts.filter (· == .core)).length { s with turns := ts.filter (· == .core) } = .next u ∧ u.BUSY = true :=
  ⟨rfl, rfl, rfl, _, rfl, rfl⟩

theorem witness_ControlFlow :
    let s := running 0x01 .sub 16 44 1
    let s' := { s with S := mat 7, KEYBUF := State.reset.KEYBUF }
    sameControl s s' ∧ (∃ t, step s = .next t) ∧ s.KEYBUF[1] ≠ s'.KEYBUF[1] :=
  ⟨⟨rfl, rfl, rfl, rfl, rfl, rfl, rfl, rfl, rfl, rfl, rfl, rfl, rfl, rfl⟩, ⟨_, rfl⟩, by decide⟩

theorem witness_KeyBytesBeyond :
    let s := running 0x01 .kload 16 0 0
    let s' := { s with KEYBUF := s.KEYBUF.set 16 0xAA }
    keyLengthLegal s.KLEN = true ∧ sameDeclaredKey s s' ∧ (∃ t, coreStep s = .next t) ∧ s.KEYBUF[16] ≠ s'.KEYBUF[16] :=
  ⟨by decide, ⟨rfl, by decide⟩, ⟨_, rfl⟩, by decide⟩

theorem witness_Instances :
    (System.reset 2)[1]? = some State.reset ∧ ∃ sys', System.step 1 (System.reset 2) = .next sys' := ⟨rfl, _, rfl⟩

end Sys2Proof.Tests
end

/-! ## O6: a step runs the decoded instruction (rules R71, R73, R159) -/

namespace Sys2Proof.Machine

/-- The byte written to `CMD` names the command its operation word decodes to (rule R71). -/
theorem decodeCommand_of_decodeWord (v : Byte) (i : Instr) (hi : decodeWord (v ++ 0x00#8) = .ok i)
    (hf : i.format = .command) : decodeCommand v = some i := by
  simp [decodeCommand, hi, hf]

/-- A host write to `CMD` of a byte that names a command executes that command (rule R71). -/
theorem hostWriteTurn_command (v : Byte) (i : Instr) (s : State) (h : decodeCommand v = some i) :
    hostWriteTurn 0x000 v s = exec i s := by
  simp [hostWriteTurn, h]

/-- A format F word on the function unit's inputs executes its operation on them (rule R73). -/
theorem unitTurn_of_unit (w : OpWord) (b : Byte) (x : Word) (i : Instr) (s : State) (hi : decodeWord w = .ok i)
    (hf : i.format = .unit) : unitTurn w b x s = exec i { s with unitByteIn := b, unitWordIn := x } := by
  simp [unitTurn, hi, hf]

/-- A busy core's turn executes the issued word, then updates the sequencing registers (rule R159). -/
theorem coreTurn_of (s u : State) (w : OpWord) (i : Instr) (hb : s.BUSY = true) (hr : s.phaseReachable = true)
    (hw : issue s.PH s.CMDR = some w) (hi : decodeWord w = .ok i) (hu : exec i s = .next u) :
    coreTurn s = .next (advance u) :=
  (coreTurn_busy s hb).trans (coreStep_of s u w i hr hw hi hu)

/-- Settles O6: each clause reduces the step to its turn, and the turn to the decoded instruction's execution. -/
theorem stepRunsTheDecodedInstruction : Obligations.StepRunsTheDecodedInstruction := by
  unfold Obligations.StepRunsTheDecodedInstruction
  refine ⟨?unscheduledCore, ?scheduledCore, ?command, ?unit⟩
  case unscheduledCore =>
    intro s u w i hb ht hr hw hi hu
    rw [step_no_turn s ht]
    exact coreTurn_of s u w i hb hr hw hi hu
  case scheduledCore =>
    intro s u rest w i hb ht hr hw hi hu
    rw [step_next_turn s .core rest ht]
    exact coreTurn_of { s with turns := rest } u w i hb hr hw hi hu
  case command =>
    intro s rest v i ht hi hf
    rw [step_next_turn s _ rest ht]
    exact hostWriteTurn_command v i _ (decodeCommand_of_decodeWord v i hi hf)
  case unit =>
    intro s rest w b x i ht hi hf
    rw [step_next_turn s _ rest ht]
    exact unitTurn_of_unit w b x i _ hi hf

end Sys2Proof.Machine

/-! ## O53: every step keeps the invariant (rules R40, R154, R159, R160, R176) -/

namespace Sys2Proof.Machine

/-! ### The sequencer's update where it branches (rules R159, R160) -/

theorem commandLegal_iff (v : Byte) :
    commandLegal v = true ↔ v = 0x01 ∨ v = 0x02 ∨ v = 0x03 ∨ v = 0x04 := by
  simp [commandLegal, or_assoc]

/-- Before the last schedule word the phase `KEXP` goes on. -/
theorem advance_kexp_more (u : State) (h : u.PH = .kexp) (hk : u.KI.toNat ≠ scheduleWords u.NR.toNat) :
    advance u = u := by
  simp [advance, h, hk]

/-- After the last schedule word the command decides what follows. -/
theorem advance_kexp_last (u : State) (h : u.PH = .kexp) (hk : u.KI.toNat = scheduleWords u.NR.toNat) :
    advance u =
      if u.CMDR = 0x03 then finish false .forward u
      else if u.CMDR = 0x01 then { u with PH := .load }
      else { u with RND := 1, PH := .kinv } := by
  simp [advance, h, hk]

/-- Before the last inner round key the phase `KINV` goes on. -/
theorem advance_kinv_more (u : State) (h : u.PH = .kinv) (hr : u.RND ≠ u.NR - 1) :
    advance u = { u with RND := u.RND + 1 } := by
  simp only [advance, h, if_neg hr]

/-- After the last inner round key the command decides what follows. -/
theorem advance_kinv_last (u : State) (h : u.PH = .kinv) (hr : u.RND = u.NR - 1) :
    advance u = if u.CMDR = 0x04 then finish false .inverse u else { u with PH := .load } := by
  simp [advance, h, hr]

/-! ### Building the invariant of rule R40 -/

/-- The flags, the error code and the latched command of the two states are the same. -/
def sameStatus (s t : State) : Prop :=
  t.BUSY = s.BUSY ∧ t.DONE = s.DONE ∧ t.OUT_VALID = s.OUT_VALID ∧ t.SCHED = s.SCHED ∧ t.ERR = s.ERR ∧ t.CMDR = s.CMDR

/-- Data, lines, turns and received bytes take no part in the invariant. -/
theorem Inv.of_data {s t : State} (hi : Inv s)
    (h : t = { s with
      KEYBUF := t.KEYBUF, DIN := t.DIN, DOUT := t.DOUT, S := t.S, W := t.W, unitByteIn := t.unitByteIn,
      unitWordIn := t.unitWordIn, unitOut := t.unitOut, turns := t.turns, received := t.received }) : Inv t := by
  rw [h]
  exact ⟨hi.busy_iff_phase, hi.busy_flags, hi.out_valid, hi.sched_set, hi.err_set, hi.done_ok, hi.idle_clear, hi.phase⟩

theorem Inv.phase_idle {s : State} (hi : Inv s) (hb : s.BUSY = false) : s.PH = .idle := by
  have h := hi.busy_iff_phase
  rw [hb] at h
  simpa using h

theorem Inv.busy_sched {s : State} (hi : Inv s) (hb : s.BUSY = true) : s.SCHED = .none := by
  obtain ⟨-, -, h, -⟩ := hi.busy_flags hb
  exact h

theorem Inv.busy_err {s : State} (hi : Inv s) (hb : s.BUSY = true) : s.ERR = .none := by
  obtain ⟨-, -, -, h, -⟩ := hi.busy_flags hb
  exact h

theorem Inv.busy_command {s : State} (hi : Inv s) (hb : s.BUSY = true) : commandLegal s.CMDR = true := by
  obtain ⟨-, -, -, -, h⟩ := hi.busy_flags hb
  exact h

/-- While the core is idle the declared lengths take no part in the invariant. -/
theorem Inv.of_lengths {s : State} (hi : Inv s) (hb : s.BUSY = false) (k b : Byte) :
    Inv { s with KLEN := k, BLEN := b } :=
  ⟨hi.busy_iff_phase, hi.busy_flags, hi.out_valid, hi.sched_set, hi.err_set, hi.done_ok, hi.idle_clear,
    by simp [State.phaseInv, hi.phase_idle hb]⟩

/-- A busy core with clear results has the invariant when its phase's clause holds. -/
theorem inv_of_running {t : State} (hb : t.BUSY = true)
    (hf : t.DONE = false ∧ t.OUT_VALID = false ∧ t.SCHED = .none ∧ t.ERR = .none ∧ commandLegal t.CMDR = true)
    (hne : t.PH ≠ .idle) (hp : t.phaseInv) : Inv t := by
  obtain ⟨hd, ho, hs, he, hc⟩ := hf
  constructor <;> simp_all

/-- A running command that only goes on keeps the invariant when the next phase's clause holds. -/
theorem Inv.running {s t : State} (hi : Inv s) (hb : s.BUSY = true) (hst : sameStatus s t) (hne : t.PH ≠ .idle)
    (hp : t.phaseInv) : Inv t := by
  obtain ⟨hB, hD, hO, hS, hE, hC⟩ := hst
  refine inv_of_running (hB.trans hb) ?_ hne hp
  rw [hD, hO, hS, hE, hC]
  exact hi.busy_flags hb

/-- The error entry leaves the invariant, whatever state raised (rule R176). -/
theorem inv_errorEntry (e : ErrCode) (he : e ≠ .none) (s : State) : Inv (errorEntry e s) := by
  constructor <;> simp [he, State.phaseInv]

/-- Completion leaves the invariant when no error is recorded and `NK`, `NR` are loaded (rule R160). -/
theorem inv_finish (out : Bool) (sched : Sched) (s : State) (hs : sched ≠ .none) (he : s.ERR = .none)
    (hl : loadedPair s.NK s.NR = true) (ho : out = true → commandUsesBlock s.CMDR = true) :
    Inv (finish out sched s) := by
  constructor <;> simp_all [State.phaseInv]

/-- Acceptance leaves the invariant from any idle state, legal or not (rules R154, R178). -/
theorem inv_accept (v : Byte) (s : State) : Inv (accept v s) := by
  cases hv : commandLegal v with
  | false =>
    rw [accept_of_illegal v s hv]
    exact inv_errorEntry _ (by decide) _
  | true =>
    rw [accept_of_legal v s hv]
    exact inv_of_running rfl ⟨rfl, rfl, rfl, rfl, hv⟩ (by simp) (by simp [State.phaseInv])

/-- The invariant holds after reset (rules R39, R40). -/
theorem inv_reset : Inv State.reset := by
  constructor <;> simp [State.reset, State.phaseInv]

/-! ### The turns of the host -/

theorem inv_memWrite (a : Addr) (v : Byte) (s : State) (hi : Inv s) : Inv (memWrite a v s) := by
  rcases memWrite_cases a v s with h | ⟨_, _, h⟩ | ⟨hb, _, h⟩ | ⟨hb, _, h⟩ | ⟨_, _, _, h⟩ | ⟨_, _, _, h⟩ <;> rw [h]
  case inl => exact hi
  case inr.inl => exact inv_accept v s
  case inr.inr.inl => exact hi.of_lengths hb v s.BLEN
  case inr.inr.inr.inl => exact hi.of_lengths hb s.KLEN v
  case inr.inr.inr.inr.inl => exact hi.of_data rfl
  case inr.inr.inr.inr.inr => exact hi.of_data rfl

theorem inv_resetRegs (s : State) : Inv (resetRegs s) := inv_reset.of_data rfl

/-! ### The core's step, phase by phase (rule R159) -/

section
variable {s t : State} (hi : Inv s) (hb : s.BUSY = true)
include hi hb

theorem inv_step_check (h : s.PH = .check) (ht : coreStep s = .next t) : Inv t := by
  rw [coreStep_check s h (phaseReachable_of_inv s hi hb)] at ht
  have hp := hi.phase
  simp only [State.phaseInv, h] at hp
  rcases checkError_cases s with ⟨hc, -⟩ | ⟨hc, -⟩ | ⟨hc, hbl, hkl⟩ <;> rw [hc] at ht <;> cases ht
  · exact inv_errorEntry _ (by decide) s
  · exact inv_errorEntry _ (by decide) s
  · exact hi.running hb ⟨rfl, rfl, rfl, rfl, rfl, rfl⟩ (by simp) ⟨hp.1, hp.2, hkl, by simpa using hbl⟩

/-- The registers `KLOAD` leaves for a legal key length are a loaded pair, with words still to compute (rule R115). -/
theorem inv_step_kload (h : s.PH = .kload) (ht : coreStep s = .next t) : Inv t := by
  have hp := hi.phase
  simp only [State.phaseInv, h] at hp
  obtain ⟨-, -, hkl, hbl⟩ := hp
  rw [coreStep_kload s h (phaseReachable_of_inv s hi hb) hkl] at ht
  cases ht
  refine hi.running hb ⟨rfl, rfl, rfl, rfl, rfl, rfl⟩ (by simp) ?_
  rw [keyLengthLegal_iff] at hkl
  rcases hkl with hk | hk | hk <;>
    simp [State.phaseInv, State.loaded, loadedPair, nkOf, scheduleWords, hk] <;> exact hbl

end

/-! ### The two loops of the key schedule, with what the invariant says of their counters -/

/-- The state `KSTEP` leaves when it computes the word `x` (rule R118). -/
def kstepResult (x : Word) (s : State) : State :=
  { s with W := s.W.setIfInBounds s.KI.toNat x, KI := s.KI + 1 }

/-- The indices that `KSTEP` needs in range (rules R118, R135). -/
def kstepDefined (s : State) : Prop := s.NK.toNat ∈ [4, 6, 8] ∧ s.NK.toNat ≤ s.KI.toNat ∧ s.KI.toNat < 60

theorem nextWord_isSome {s : State} (h : kstepDefined s) : ∃ x, nextWord s = some x := by
  obtain ⟨hn, hk, h60⟩ := h
  obtain ⟨tmp, ht⟩ := expandTemp_isSome s.NK.toNat s.KI.toNat s.W[s.KI.toNat - 1] (by simp at hn; omega) h60
  exact ⟨_, by rw [nextWord_eq s hn hk h60, ht, Option.map_some]⟩

/-- In phase `KEXP` the index stays within the schedule and within `W` (rules R118, R135). -/
theorem kexp_bounds {s : State} (hi : Inv s) (h : s.PH = .kexp) :
    s.loaded ∧ kstepDefined s ∧ s.KI.toNat < scheduleWords s.NR.toNat ∧ (s.KI + 1).toNat = s.KI.toNat + 1 := by
  have hp := hi.phase
  simp only [State.phaseInv, h] at hp
  obtain ⟨hl, hnk, hki⟩ := hp
  obtain ⟨hnr, -, hmem, -⟩ := loaded_bounds hl
  have h60 : s.KI.toNat < 60 := by simp only [scheduleWords] at hki; omega
  exact ⟨hl, ⟨hmem, hnk, h60⟩, hki, by rw [BitVec.toNat_add]; simp; omega⟩

/-- Everything a `KEXP` step can do: one more word, and after the last one the end of `KEXP`, the cipher of `ENC`, or
the conversion for `DEC` and `KEXPI` (rule R159). -/
theorem coreStep_kexp_cases {s t : State} (hi : Inv s) (hb : s.BUSY = true) (h : s.PH = .kexp)
    (ht : coreStep s = .next t) : ∃ x, nextWord s = some x ∧
      ((s.KI.toNat + 1 = scheduleWords s.NR.toNat ∧
        (s.CMDR = 0x03 ∧ t = finish false .forward (kstepResult x s) ∨
         s.CMDR = 0x01 ∧ t = { kstepResult x s with PH := .load } ∨
         (s.CMDR = 0x02 ∨ s.CMDR = 0x04) ∧ t = { kstepResult x s with RND := 1, PH := .kinv })) ∨
       (s.KI.toNat + 1 < scheduleWords s.NR.toNat ∧ t = kstepResult x s)) := by
  obtain ⟨-, hdef, hki, hsucc⟩ := kexp_bounds hi h
  obtain ⟨x, hx⟩ := nextWord_isSome hdef
  refine ⟨x, hx, ?_⟩
  rw [coreStep_kexp s _ h (phaseReachable_of_inv s hi hb) hx] at ht
  change Host.Outcome.next (advance (kstepResult x s)) = _ at ht
  obtain rfl := Host.Outcome.next.inj ht
  have hph : (kstepResult x s).PH = .kexp := h
  by_cases hlast : s.KI.toNat + 1 = scheduleWords s.NR.toNat
  · refine .inl ⟨hlast, ?_⟩
    rw [advance_kexp_last _ hph (hsucc.trans hlast)]
    have hc := (commandLegal_iff _).1 (hi.busy_command hb)
    rcases hc with hc | hc | hc | hc <;> simp [kstepResult, hc]
  · refine .inr ⟨by omega, ?_⟩
    exact advance_kexp_more _ hph (fun he => hlast (hsucc.symm.trans he))

/-- In phase `KINV` the round number is within the inner rounds (rules R35, R119). -/
theorem kinv_bounds {s : State} (hi : Inv s) (h : s.PH = .kinv) :
    s.loaded ∧ s.expanded ∧ (s.CMDR = 0x02 ∨ s.CMDR = 0x04) ∧ 1 ≤ s.RND.toNat ∧ s.RND.toNat + 1 ≤ s.NR.toNat ∧
      s.NR.toNat ≤ 14 := by
  have hp := hi.phase
  simp only [State.phaseInv, h] at hp
  obtain ⟨hl, he, hc, h1, h2⟩ := hp
  exact ⟨hl, he, hc, h1, h2, (loaded_bounds hl).1⟩

/-- Everything a `KINV` step can do: one more round key, and after the last one the end of `KEXPI` or the cipher of
`DEC` (rule R159). -/
theorem coreStep_kinv_cases {s t : State} (hi : Inv s) (hb : s.BUSY = true) (h : s.PH = .kinv)
    (ht : coreStep s = .next t) : ∃ (hr : s.RND.toNat < 15) (w : _),
      convertRoundKey s.W s.RND.toNat hr invMixMatrix = some w ∧
      ((s.RND.toNat + 1 = s.NR.toNat ∧
        (s.CMDR = 0x04 ∧ t = finish false .inverse { s with W := w } ∨
         s.CMDR = 0x02 ∧ t = { s with W := w, PH := .load })) ∨
       (s.RND.toNat + 1 < s.NR.toNat ∧ t = { s with W := w, RND := s.RND + 1 })) := by
  obtain ⟨-, -, hc, h1, h2, h14⟩ := kinv_bounds hi h
  have hr : s.RND.toNat < 15 := by omega
  obtain ⟨w, hw, he⟩ := coreStep_kinv s h (phaseReachable_of_inv s hi hb) hr
  refine ⟨hr, w, hw, ?_⟩
  rw [he] at ht
  obtain rfl := Host.Outcome.next.inj ht
  have hlast : s.RND = s.NR - 1 ↔ s.RND.toNat + 1 = s.NR.toNat := by
    constructor <;> intro hx
    · rw [hx]; bv_omega
    · bv_omega
  by_cases hx : s.RND.toNat + 1 = s.NR.toNat
  · refine .inl ⟨hx, ?_⟩
    rw [advance_kinv_last { s with W := w } h (hlast.2 hx)]
    rcases hc with hc | hc <;> simp [hc]
  · refine .inr ⟨by omega, ?_⟩
    exact advance_kinv_more _ h (fun he => hx (hlast.1 he))

/-! ### The round counter in the rounds (rule R35) -/

theorem roundInRange_enc {s : State} (h : s.isEnc = true) :
    s.roundInRange ↔ 1 ≤ s.RND.toNat ∧ s.RND.toNat ≤ s.NR.toNat := by
  simp [State.roundInRange, h]

theorem roundInRange_dec {s : State} (h : s.isEnc = false) : s.roundInRange ↔ s.RND.toNat + 1 ≤ s.NR.toNat := by
  simp [State.roundInRange, h]

/-- Where `ARK` is issued, the round key `RND` lies in the schedule (rules R35, R135). -/
theorem ark_round_lt {s : State} (hi : Inv s) (h : s.PH = .ark0 ∨ s.PH = .ark) : s.RND.toNat < 15 := by
  have hp := hi.phase
  rcases h with h | h <;> simp only [State.phaseInv, h] at hp <;> obtain ⟨hl, -, -, hr⟩ := hp <;>
    have h14 := (loaded_bounds hl).1
  · rw [hr]
    split
    · decide
    · omega
  · cases henc : s.isEnc
    · have := (roundInRange_dec henc).1 hr
      omega
    · have := (roundInRange_enc henc).1 hr
      omega

/-- The counter with which `ARK0` enters the rounds names a round in progress (rule R159). -/
theorem first_roundInRange {s t : State} (hl : s.loaded) (hnr : t.NR = s.NR) (hc : t.CMDR = s.CMDR)
    (ht : t.RND = if s.isEnc then 1 else s.NR - 1) : t.roundInRange := by
  obtain ⟨-, h10, -⟩ := loaded_bounds hl
  have hte : t.isEnc = s.isEnc := by rw [State.isEnc, hc, State.isEnc]
  cases henc : s.isEnc <;> rw [henc] at hte <;> simp only [henc] at ht
  · rw [roundInRange_dec hte, ht, hnr]
    simp only [Bool.false_eq_true, if_false]
    bv_omega
  · rw [roundInRange_enc hte, ht, hnr]
    simp only [if_true]
    exact ⟨by decide, show 1 ≤ s.NR.toNat by omega⟩

/-- After a round that is not the last one the counter moves to another round in progress (rule R159). -/
theorem next_roundInRange {s t : State} (hl : s.loaded) (hr : s.roundInRange) (hf : s.isFinal = false)
    (hnr : t.NR = s.NR) (hc : t.CMDR = s.CMDR) (ht : t.RND = if s.isEnc then s.RND + 1 else s.RND - 1) :
    t.roundInRange := by
  have h14 := (loaded_bounds hl).1
  have hte : t.isEnc = s.isEnc := by rw [State.isEnc, hc, State.isEnc]
  cases henc : s.isEnc <;> rw [henc] at hte <;> simp only [henc] at ht
  · rw [roundInRange_dec henc] at hr
    rw [roundInRange_dec hte, ht, hnr]
    simp only [State.isFinal, henc, Bool.false_eq_true, if_false, beq_eq_false_iff_ne] at hf ⊢
    bv_omega
  · rw [roundInRange_enc henc] at hr
    rw [roundInRange_enc hte, ht, hnr]
    simp only [State.isFinal, henc, if_true, beq_eq_false_iff_ne] at hf ⊢
    bv_omega

section
variable {s t : State} (hi : Inv s) (hb : s.BUSY = true)
include hi hb

theorem inv_step_kexp (h : s.PH = .kexp) (ht : coreStep s = .next t) : Inv t := by
  obtain ⟨hl, ⟨-, hnk, -⟩, -, hsucc⟩ := kexp_bounds hi h
  obtain ⟨x, -, ⟨hlast, ⟨hc, rfl⟩ | ⟨hc, rfl⟩ | ⟨hc, rfl⟩⟩ | ⟨hmore, rfl⟩⟩ := coreStep_kexp_cases hi hb h ht
  · exact inv_finish _ _ _ (by decide) (hi.busy_err hb) hl.1 (by simp)
  · refine hi.running hb ⟨rfl, rfl, rfl, rfl, rfl, rfl⟩ (by simp) ⟨hl, hsucc.trans hlast, ?_⟩
    exact (commandUsesBlock_iff _).2 (.inl hc)
  · refine hi.running hb ⟨rfl, rfl, rfl, rfl, rfl, rfl⟩ (by simp) ⟨hl, hsucc.trans hlast, hc, ?_, ?_⟩
    · simp
    · obtain ⟨-, h10, -⟩ := loaded_bounds hl
      show 1 + 1 ≤ s.NR.toNat
      omega
  · refine hi.running hb ⟨rfl, rfl, rfl, rfl, rfl, rfl⟩ (by simp [kstepResult, h]) ?_
    simp only [State.phaseInv, kstepResult, h, hsucc]
    exact ⟨hl, by omega, hmore⟩

theorem inv_step_kinv (h : s.PH = .kinv) (ht : coreStep s = .next t) : Inv t := by
  obtain ⟨hl, he, hc, h1, -, h14⟩ := kinv_bounds hi h
  obtain ⟨-, w, -, ⟨-, ⟨-, rfl⟩ | ⟨hd, rfl⟩⟩ | ⟨hmore, rfl⟩⟩ := coreStep_kinv_cases hi hb h ht
  · exact inv_finish _ _ _ (by decide) (hi.busy_err hb) hl.1 (by simp)
  · refine hi.running hb ⟨rfl, rfl, rfl, rfl, rfl, rfl⟩ (by simp) ⟨hl, he, ?_⟩
    exact (commandUsesBlock_iff _).2 (.inr hd)
  · refine hi.running hb ⟨rfl, rfl, rfl, rfl, rfl, rfl⟩ (by simp [h]) ?_
    simp only [State.phaseInv, h]
    exact ⟨hl, he, hc, by bv_omega, by bv_omega⟩

theorem inv_step_load (h : s.PH = .load) (ht : coreStep s = .next t) : Inv t := by
  rw [coreStep_load s h (phaseReachable_of_inv s hi hb)] at ht
  cases ht
  have hp := hi.phase
  simp only [State.phaseInv, h] at hp
  obtain ⟨hl, he, hc⟩ := hp
  exact hi.running hb ⟨rfl, rfl, rfl, rfl, rfl, rfl⟩ (by simp) ⟨hl, he, hc, rfl⟩

theorem inv_step_ark0 (h : s.PH = .ark0) (ht : coreStep s = .next t) : Inv t := by
  have hp := hi.phase
  simp only [State.phaseInv, h] at hp
  obtain ⟨hl, he, hc, -⟩ := hp
  rw [coreStep_ark0 s h (phaseReachable_of_inv s hi hb) (ark_round_lt hi (.inl h))] at ht
  cases ht
  exact hi.running hb ⟨rfl, rfl, rfl, rfl, rfl, rfl⟩ (by simp) ⟨hl, he, hc, first_roundInRange hl rfl rfl rfl⟩

theorem inv_step_sub (h : s.PH = .sub) (ht : coreStep s = .next t) : Inv t := by
  rw [coreStep_sub s h (phaseReachable_of_inv s hi hb)] at ht
  cases ht
  have hp := hi.phase
  simp only [State.phaseInv, h] at hp
  exact hi.running hb ⟨rfl, rfl, rfl, rfl, rfl, rfl⟩ (by simp) hp

theorem inv_step_shift (h : s.PH = .shift) (ht : coreStep s = .next t) : Inv t := by
  rw [coreStep_shift s h (phaseReachable_of_inv s hi hb)] at ht
  cases ht
  have hp := hi.phase
  simp only [State.phaseInv, h] at hp
  obtain ⟨hl, he, hc, hr⟩ := hp
  cases hf : s.isFinal
  · exact hi.running hb ⟨rfl, rfl, rfl, rfl, rfl, rfl⟩ (by simp) ⟨hl, he, hc, hr, hf⟩
  · exact hi.running hb ⟨rfl, rfl, rfl, rfl, rfl, rfl⟩ (by simp) ⟨hl, he, hc, hr⟩

theorem inv_step_mix (h : s.PH = .mix) (ht : coreStep s = .next t) : Inv t := by
  rw [coreStep_mix s h (phaseReachable_of_inv s hi hb)] at ht
  cases ht
  have hp := hi.phase
  simp only [State.phaseInv, h] at hp
  obtain ⟨hl, he, hc, hr, -⟩ := hp
  exact hi.running hb ⟨rfl, rfl, rfl, rfl, rfl, rfl⟩ (by simp) ⟨hl, he, hc, hr⟩

theorem inv_step_ark (h : s.PH = .ark) (ht : coreStep s = .next t) : Inv t := by
  have hp := hi.phase
  simp only [State.phaseInv, h] at hp
  obtain ⟨hl, he, hc, hr⟩ := hp
  rw [coreStep_ark s h (phaseReachable_of_inv s hi hb) (ark_round_lt hi (.inr h))] at ht
  cases ht
  cases hf : s.isFinal
  · exact hi.running hb ⟨rfl, rfl, rfl, rfl, rfl, rfl⟩ (by simp) ⟨hl, he, hc, next_roundInRange hl hr hf rfl rfl rfl⟩
  · exact hi.running hb ⟨rfl, rfl, rfl, rfl, rfl, rfl⟩ (by simp) ⟨hl, he, hc, hf⟩

theorem inv_step_store (h : s.PH = .store) (ht : coreStep s = .next t) : Inv t := by
  rw [coreStep_store s h (phaseReachable_of_inv s hi hb)] at ht
  cases ht
  have hp := hi.phase
  simp only [State.phaseInv, h] at hp
  obtain ⟨hl, -, hc, -⟩ := hp
  refine inv_finish true _ { s with DOUT := matrixToBlock s.S } ?_ (hi.busy_err hb) hl.1 fun _ => hc
  split <;> decide

/-- The core's step keeps the invariant: one case a phase. -/
theorem inv_coreStep (ht : coreStep s = .next t) : Inv t := by
  cases h : s.PH with
  | idle => exact absurd h (hi.busy_iff_phase.1 hb)
  | check => exact inv_step_check hi hb h ht
  | kload => exact inv_step_kload hi hb h ht
  | kexp => exact inv_step_kexp hi hb h ht
  | kinv => exact inv_step_kinv hi hb h ht
  | load => exact inv_step_load hi hb h ht
  | ark0 => exact inv_step_ark0 hi hb h ht
  | sub => exact inv_step_sub hi hb h ht
  | shift => exact inv_step_shift hi hb h ht
  | mix => exact inv_step_mix hi hb h ht
  | ark => exact inv_step_ark hi hb h ht
  | store => exact inv_step_store hi hb h ht

end

/-- A function-unit operation changes the unit's output only (rule R73). -/
theorem exec_unit_frame {i : Instr} {s t : State} (hf : i.format = .unit) (h : exec i s = .next t) :
    t = { s with unitOut := t.unitOut } := by
  rcases exec_next_cases i s t h with ⟨hc, -⟩ | ⟨rfl, -⟩ | ⟨hm, -⟩ | ⟨-, ht⟩
  · rw [hf] at hc; cases hc
  · cases hf
  · rw [hf] at hm; cases hm
  · exact ht

/-- Settles O53: the invariant is kept by each kind of turn; the core's own step is a case per phase. -/
theorem everyStepKeepsTheInvariant : Obligations.EveryStepKeepsTheInvariant := by
  unfold Obligations.EveryStepKeepsTheInvariant
  intro s t hi h
  rcases step_next_cases s t h with ⟨a, v, rest, -, rfl⟩ | ⟨a, rest, -, rfl⟩ | ⟨rest, -, rfl⟩ |
    ⟨rest, ts, -, rfl, -⟩ | ⟨rest, -, ⟨hb, hc⟩ | ⟨-, rfl⟩⟩ | ⟨w, b, x, rest, i, -, -, hf, he⟩
  case inl => exact inv_memWrite a v _ (hi.of_data rfl)
  case inr.inl => exact hi.of_data rfl
  case inr.inr.inl => exact inv_resetRegs _
  case inr.inr.inr.inl => exact hi.of_data rfl
  case inr.inr.inr.inr.inl.inl => exact inv_coreStep (s := { s with turns := rest }) (hi.of_data rfl) hb hc
  case inr.inr.inr.inr.inl.inr => exact hi.of_data rfl
  case inr.inr.inr.inr.inr =>
    rw [exec_unit_frame hf he]
    exact hi.of_data rfl

end Sys2Proof.Machine

/-! ## O54, O52: what the schedule memory holds (rules R40 item 4, R117 to R121, R199) -/

namespace Sys2Proof.Machine

/-! ### The key schedule as a list: length, first words, recurrence (rule R120) -/

/-- Where every element has an image, so has the list, position by position. -/
theorem mapM_spec {α β : Type} (f : α → Option β) (l : List α) (h : ∀ x ∈ l, ∃ y, f x = some y) :
    ∃ ys, l.mapM f = some ys ∧ ys.length = l.length ∧ ∀ (i : Nat) x, l[i]? = some x → ys[i]? = f x := by
  induction l with
  | nil => exact ⟨[], rfl, rfl, by simp⟩
  | cons a l ih =>
    obtain ⟨y, hy⟩ := h a (by simp)
    obtain ⟨ys, hys, hlen, hget⟩ := ih fun x hx => h x (by simp [hx])
    refine ⟨y :: ys, by simp [List.mapM_cons, hy, hys], by simp [hlen], ?_⟩
    rintro (_ | i) x hx
    · simp at hx
      simp [← hx, hy]
    · simpa using hget i x (by simpa using hx)

theorem getElem?_append_of_some {α : Type} {ws : List α} {i : Nat} {x : α} (r : List α) (h : ws[i]? = some x) :
    (ws ++ r)[i]? = some x := by
  rw [List.getElem?_append_left (List.getElem?_eq_some_iff.1 h).1, h]

/-- Word `i` of the list follows from the words before it by the body of rule R118. -/
def expandsAt (nk : Nat) (ws : List Word) (i : Nat) : Prop :=
  ∃ prev old tmp, ws[i - 1]? = some prev ∧ ws[i - nk]? = some old ∧ expandTemp nk i prev = some tmp ∧
    ws[i]? = some (xorWord old tmp)

theorem expandsAt_append {nk i : Nat} {ws : List Word} (r : List Word) (h : expandsAt nk ws i) :
    expandsAt nk (ws ++ r) i := by
  obtain ⟨prev, old, tmp, hp, ho, ht, hi⟩ := h
  exact ⟨prev, old, tmp, getElem?_append_of_some r hp, getElem?_append_of_some r ho, ht, getElem?_append_of_some r hi⟩

/-- One iteration appends the word the recurrence names. -/
theorem expandStep_spec {nk : Nat} {ws : List Word} (h4 : 4 ≤ nk) (hnk : nk ≤ ws.length) (h60 : ws.length < 60) :
    ∃ x, expandStep nk ws ws.length = some (ws ++ [x]) ∧ expandsAt nk (ws ++ [x]) ws.length := by
  have hp : ws[ws.length - 1]? = some ws[ws.length - 1] := List.getElem?_eq_getElem (by omega)
  have ho : ws[ws.length - nk]? = some ws[ws.length - nk] := List.getElem?_eq_getElem (by omega)
  obtain ⟨tmp, ht⟩ := expandTemp_isSome nk ws.length ws[ws.length - 1] h4 h60
  refine ⟨_, by simp [expandStep, hp, ho, ht]; rfl, _, _, tmp, getElem?_append_of_some _ hp,
    getElem?_append_of_some _ ho, ht, by simp⟩

/-- The loop of rule R120 appends one word an iteration, each by the recurrence. -/
theorem expandSteps_spec {nk : Nat} (h4 : 4 ≤ nk) (m : Nat) (ws : List Word) (hnk : nk ≤ ws.length)
    (h60 : ws.length + m ≤ 60) :
    ∃ r, (List.range' ws.length m).foldlM (expandStep nk) ws = some (ws ++ r) ∧ r.length = m ∧
      ∀ i, ws.length ≤ i → i < ws.length + m → expandsAt nk (ws ++ r) i := by
  induction m generalizing ws with
  | zero => exact ⟨[], by simp, rfl, fun i h1 h2 => by omega⟩
  | succ m ih =>
    obtain ⟨x, hx, hex⟩ := expandStep_spec h4 hnk (by omega)
    obtain ⟨r, hr, hlen, hall⟩ := ih (ws ++ [x]) (by simp; omega) (by simp; omega)
    simp only [List.length_append, List.length_singleton, List.append_assoc, List.singleton_append] at hr hall
    refine ⟨x :: r, by simp [List.range'_succ, hx, hr], by simp [hlen], fun i h1 h2 => ?_⟩
    rcases Nat.eq_or_lt_of_le h1 with rfl | h1
    · simpa using expandsAt_append r hex
    · exact hall i h1 (by omega)

/-- The first `nk` words are the key, four bytes a word (rule R120). -/
theorem keyWords_spec (key : List Byte) (nk : Nat) (h : 4 * nk ≤ key.length) :
    ∃ ws, keyWords key nk = some ws ∧ ws.length = nk ∧
      ∀ j (hj : j < nk), ws[j]? = some #v[key[4 * j], key[4 * j + 1], key[4 * j + 2], key[4 * j + 3]] := by
  unfold keyWords
  have hword : ∀ j (hj : j < nk), (do
      let b0 ← key[4 * j]?
      let b1 ← key[4 * j + 1]?
      let b2 ← key[4 * j + 2]?
      let b3 ← key[4 * j + 3]?
      return #v[b0, b1, b2, b3] : Option Word) =
      some #v[key[4 * j], key[4 * j + 1], key[4 * j + 2], key[4 * j + 3]] := by
    intro j hj
    rw [List.getElem?_eq_getElem (by omega), List.getElem?_eq_getElem (by omega), List.getElem?_eq_getElem (by omega),
      List.getElem?_eq_getElem (by omega)]
    rfl
  obtain ⟨ws, hws, hlen, hget⟩ := mapM_spec _ (List.range nk) fun j hj => ⟨_, hword j (by simpa using hj)⟩
  exact ⟨ws, hws, by simpa using hlen, fun j hj => (hget j j (by simp [hj])).trans (hword j hj)⟩

/-- `ExpandKey` for a key of `4*nk` bytes: the number of words, the first `nk` of them, and the recurrence that gives
the others (rules R115, R120). -/
theorem expandKey_spec (key : List Byte) (nk : Nat) (hnk : nk ∈ [4, 6, 8]) (hlen : key.length = 4 * nk) :
    ∃ ws, expandKey key = some ws ∧ ws.length = scheduleWords (nk + 6) ∧
      (∀ j (hj : j < nk), ws[j]? = some #v[key[4 * j], key[4 * j + 1], key[4 * j + 2], key[4 * j + 3]]) ∧
      ∀ i, nk ≤ i → i < scheduleWords (nk + 6) → expandsAt nk ws i := by
  have hbounds : 4 ≤ nk ∧ nk ≤ scheduleWords (nk + 6) ∧ scheduleWords (nk + 6) ≤ 60 := by
    simp at hnk
    rcases hnk with rfl | rfl | rfl <;> simp [scheduleWords]
  obtain ⟨h4, hle, h60⟩ := hbounds
  have hnr : nrOf key.length = some (nk + 6) := by
    simp at hnk
    rcases hnk with rfl | rfl | rfl <;> simp [nrOf, hlen]
  obtain ⟨kw, hkw, hkl, hkget⟩ := keyWords_spec key nk (by omega)
  obtain ⟨r, hr, hrl, hrec⟩ := expandSteps_spec h4 (scheduleWords (nk + 6) - nk) kw (by omega) (by omega)
  rw [hkl] at hr hrec
  refine ⟨kw ++ r, ?_, by simp; omega, fun j hj => getElem?_append_of_some r (hkget j hj), fun i h1 h2 =>
    hrec i h1 (by omega)⟩
  have hnk' : nkOf key.length = nk := by simp [nkOf, hlen]
  simp only [expandKey, hnr, hnk', hkw, Option.bind_eq_bind, Option.bind_some]
  exact hr

/-! ### The equivalent inverse schedule (rule R121) -/

theorem invertWord_isSome (nr i : Nat) (x : Word) : ∃ y, invertWord nr i x = some y := by
  unfold invertWord
  split
  · exact ⟨_, mixColumn_inv x⟩
  · exact ⟨x, rfl⟩

theorem expandKeyInv_spec (key : List Byte) (nr : Nat) (ws : List Word) (hnr : nrOf key.length = some nr)
    (hws : expandKey key = some ws) :
    ∃ dw, expandKeyInv key = some dw ∧ dw.length = ws.length ∧
      ∀ i x, ws[i]? = some x → dw[i]? = invertWord nr i x := by
  obtain ⟨dw, hdw, hlen, hget⟩ :=
    mapM_spec (fun p : Word × Nat => invertWord nr p.2 p.1) ws.zipIdx fun p _ => invertWord_isSome nr p.2 p.1
  refine ⟨dw, by simp [expandKeyInv, hnr, hws, hdw], by simpa using hlen, fun i x hx => ?_⟩
  exact hget i (x, i) (by simp [List.getElem?_zipIdx, hx])

/-! ### The declared key (rules R21, R115) -/

theorem key_length {s : State} (h : s.KLEN.toNat ≤ 32) : s.key.length = s.KLEN.toNat := by
  simp [State.key, h]

theorem key_getElem {s : State} (i : Nat) (h : i < s.key.length) :
    s.key[i] = s.KEYBUF[i]'(by simp [State.key] at h; omega) := by
  simp [State.key]

/-- After `KLOAD` the declared key has `4*NK` bytes. -/
theorem loaded_key_length {s : State} (hl : s.loaded) : s.key.length = 4 * s.NK.toNat := by
  obtain ⟨h14, -, -, hnr⟩ := loaded_bounds hl
  obtain ⟨-, hklen, -⟩ := hl
  rw [key_length (by omega), hklen]

/-- After `KLOAD` the schedule of the declared key is defined, with the length `NR` says. -/
theorem loaded_expandKey {s : State} (hl : s.loaded) :
    ∃ ws, expandKey s.key = some ws ∧ ws.length = scheduleWords s.NR.toNat ∧
      (∀ j (h8 : j < 8), j < s.NK.toNat → ws[j]? = some (keyWord s.KEYBUF j h8)) ∧
      ∀ i, s.NK.toNat ≤ i → i < scheduleWords s.NR.toNat → expandsAt s.NK.toNat ws i := by
  obtain ⟨-, -, hmem, hnr⟩ := loaded_bounds hl
  have hlen := loaded_key_length hl
  obtain ⟨ws, hws, hwl, hfirst, hrec⟩ := expandKey_spec s.key s.NK.toNat hmem hlen
  rw [← hnr] at hwl hrec
  refine ⟨ws, hws, hwl, fun j h8 hj => (hfirst j hj).trans ?_, hrec⟩
  simp [keyWord, key_getElem]

/-! ### What each micro-operation of the key schedule does to the contents of `W` -/

/-- A word of `W` that `KLOAD` takes from the key (rule R117). -/
theorem loadKey_get (k : Vector Byte 32) (nk : Nat) (w : Vector Word 60) (j : Nat) (h8 : j < 8) (hj : j < nk) :
    (loadKey k nk w)[j] = keyWord k j h8 := by
  simp [loadKey, h8, hj]

/-- `KLOAD` begins the schedule of the declared key (rules R117, R120). -/
theorem holdsPrefix_of_loadKey {t : State} (hl : t.loaded) (hk : t.KI.toNat = t.NK.toNat) (w : Vector Word 60)
    (hw : t.W = loadKey t.KEYBUF t.NK.toNat w) : t.holdsPrefix := by
  obtain ⟨ws, hws, hwl, hfirst, -⟩ := loaded_expandKey hl
  have h8 : t.NK.toNat ≤ 8 := by have := loaded_bounds hl; omega
  refine ⟨ws, hws, hwl, fun j hj => ?_⟩
  rw [hk] at hj
  rw [hfirst j.val (by omega) hj]
  simp [hw, loadKey_get t.KEYBUF t.NK.toNat w j.val (by omega) hj]

/-- Where `W` holds the schedule below `KI`, `KSTEP` computes its word `KI` (rules R118, R120). -/
theorem nextWord_of_wordsAgree {s : State} {ws : List Word} (hdef : kstepDefined s)
    (hw : wordsAgree s.W ws s.KI.toNat) (he : expandsAt s.NK.toNat ws s.KI.toNat) :
    nextWord s = ws[s.KI.toNat]? := by
  obtain ⟨hn, hk, h60⟩ := hdef
  have h4 : 4 ≤ s.NK.toNat := by simp at hn; omega
  obtain ⟨prev, old, tmp, hp, ho, ht, hx⟩ := he
  have hp' := hw ⟨s.KI.toNat - 1, by omega⟩ (by show s.KI.toNat - 1 < _; omega)
  have ho' := hw ⟨s.KI.toNat - s.NK.toNat, by omega⟩ (by show s.KI.toNat - s.NK.toNat < _; omega)
  rw [hp, Option.some.injEq] at hp'
  rw [ho, Option.some.injEq] at ho'
  rw [nextWord_eq s hn hk h60, hx]
  simp only [Fin.getElem_fin] at hp' ho'
  rw [← hp', ← ho', ht, Option.map_some]

/-- Storing the schedule's word `n` extends the part that `W` holds by one word. -/
theorem wordsAgree_set {w : Vector Word 60} {ws : List Word} {n : Nat} {x : Word} (hw : wordsAgree w ws n)
    (hx : ws[n]? = some x) : wordsAgree (w.setIfInBounds n x) ws (n + 1) := by
  intro j hj
  by_cases he : n = j.val
  · simp [← he, hx]
  · rw [hw j (by omega)]
    simp [Vector.getElem_setIfInBounds_ne, he]

/-- Every word after the conversion of round key `r` (rule R119). -/
theorem convertRoundKey_get {w w' : Vector Word 60} {r : Nat} {h : r < 15} {m : Mat}
    (hc : convertRoundKey w r h m = some w') (j : Fin 60) :
    if j.val / 4 = r then mixColumn w[j] m = some w'[j] else w'[j] = w[j] := by
  simp only [convertRoundKey, Option.bind_eq_bind, Option.bind_eq_some_iff, Option.pure_def, Option.some.injEq] at hc
  obtain ⟨c0, h0, c1, h1, c2, h2, c3, h3, rfl⟩ := hc
  split
  · rename_i hj
    have hcases : j.val = 4 * r ∨ j.val = 4 * r + 1 ∨ j.val = 4 * r + 2 ∨ j.val = 4 * r + 3 := by omega
    obtain ⟨j, hlt⟩ := j
    simp only at hj hcases
    rcases hcases with rfl | rfl | rfl | rfl
    · simp [hj, h0]
    · simp [hj, h1, Nat.add_mod]
    · simp [hj, h2, Nat.add_mod]
    · simp [hj, h3, Nat.add_mod]
  · simp [*]

/-- Converting round key `r` takes `W` from the schedule converted below `r` to the one converted below `r + 1`
(rules R119, R121). -/
theorem invertWord_succ {w w' : Vector Word 60} {r : Nat} {h : r < 15} (h1 : 1 ≤ r)
    (hc : convertRoundKey w r h invMixMatrix = some w') (j : Fin 60) (x : Word)
    (hx : invertWord r j.val x = some w[j]) : invertWord (r + 1) j.val x = some w'[j] := by
  have hget := convertRoundKey_get hc j
  by_cases hj : j.val / 4 = r
  · have hold : x = w[j] := by simpa [invertWord, hj] using hx
    simpa [invertWord, hj, h1, hold] using hget
  · have hiff : (1 ≤ j.val / 4 ∧ j.val / 4 < r + 1) ↔ (1 ≤ j.val / 4 ∧ j.val / 4 < r) := by omega
    rw [if_neg hj] at hget
    rw [invertWord, if_congr hiff rfl rfl, hget]
    exact hx

/-! ### Building the schedule invariant -/

/-- In the phases of the rounds `W` holds the whole schedule of the command in execution. -/
def State.holdsRoundKeys (s : State) : Prop := if s.isEnc then s.holdsForward s.key else s.holdsInverse s.key

/-- The clause of the schedule invariant that the phase selects. -/
def State.phaseHolds (s : State) : Prop :=
  match s.PH with
  | .idle | .check | .kload => True
  | .kexp => s.holdsPrefix
  | .kinv => s.holdsPartlyInverse
  | .load | .ark0 | .sub | .shift | .mix | .ark | .store => s.holdsRoundKeys

/-- While `SCHED` names no schedule, the phase's clause is all there is to hold. -/
theorem scheduleInv_of_phase {t : State} (hs : t.SCHED = .none) (h : t.phaseHolds) : ScheduleInv t where
  kexp := fun hp => by simpa only [State.phaseHolds, hp] using h
  kinv := fun hp => by simpa only [State.phaseHolds, hp] using h
  rounds := fun hp => show t.holdsRoundKeys by
    simp only [List.mem_cons, List.not_mem_nil, or_false] at hp
    rcases hp with hp | hp | hp | hp | hp | hp | hp <;> simpa only [State.phaseHolds, hp] using h
  forward := fun hf => by simp [hs] at hf
  inverse := fun hf => by simp [hs] at hf

/-- While the core is idle, the clauses of the named schedule are all there is to hold. -/
theorem scheduleInv_of_idle {t : State} (hp : t.PH = .idle)
    (hf : t.SCHED = .forward → ∃ key : List Byte, key.length = 4 * t.NK.toNat ∧ t.holdsForward key)
    (hi : t.SCHED = .inverse → ∃ key : List Byte, key.length = 4 * t.NK.toNat ∧ t.holdsInverse key) :
    ScheduleInv t where
  kexp := by simp [hp]
  kinv := by simp [hp]
  rounds := by simp [hp]
  forward := hf
  inverse := hi

/-- The unit's lines, the turns and the received bytes take no part in the schedule invariant. -/
theorem ScheduleInv.of_lines {s t : State} (hs : ScheduleInv s)
    (h : t = { s with
      unitByteIn := t.unitByteIn, unitWordIn := t.unitWordIn, unitOut := t.unitOut, turns := t.turns,
      received := t.received }) : ScheduleInv t := by
  rw [h]
  exact ⟨hs.kexp, hs.kinv, hs.rounds, hs.forward, hs.inverse⟩

/-- A step from one phase of the rounds to another keeps the round keys. -/
theorem scheduleInv_round {s t : State} (hs : s.SCHED = .none) (hr : s.holdsRoundKeys)
    (ht : t = { s with S := t.S, RND := t.RND, PH := t.PH })
    (hp : t.PH ∈ [Phase.load, .ark0, .sub, .shift, .mix, .ark, .store]) : ScheduleInv t := by
  have hrt : t.holdsRoundKeys := by rw [ht]; exact hr
  have hst : t.SCHED = .none := by rw [ht]; exact hs
  exact {
    kexp := fun h => by simp [h] at hp
    kinv := fun h => by simp [h] at hp
    rounds := fun _ => hrt
    forward := fun h => by simp [hst] at h
    inverse := fun h => by simp [hst] at h }

/-! ### Host writes, errors and reset -/

theorem scheduleInv_errorEntry (e : ErrCode) (s : State) : ScheduleInv (errorEntry e s) :=
  scheduleInv_of_phase rfl trivial

theorem scheduleInv_accept (v : Byte) (s : State) : ScheduleInv (accept v s) := by
  refine scheduleInv_of_phase (by simp) ?_
  cases hv : commandLegal v <;> simp [State.phaseHolds, hv]

theorem scheduleInv_reset : ScheduleInv State.reset := scheduleInv_of_phase rfl trivial

theorem scheduleInv_memWrite (a : Addr) (v : Byte) (s : State) (hi : Inv s) (hs : ScheduleInv s) :
    ScheduleInv (memWrite a v s) := by
  rcases memWrite_cases a v s with h | ⟨-, -, h⟩ | ⟨hb, -, h⟩ | ⟨hb, -, h⟩ | ⟨hb, _, -, h⟩ | ⟨hb, _, -, h⟩ <;> rw [h]
  case inl => exact hs
  case inr.inl => exact scheduleInv_accept v s
  all_goals exact scheduleInv_of_idle (hi.phase_idle hb) hs.forward hs.inverse

/-! ### The loops of the key schedule -/

/-- A `KEXP` step extends the part of the schedule that `W` holds by one word. -/
theorem kstep_extends {s : State} (hi : Inv s) (hsi : ScheduleInv s) (h : s.PH = .kexp) (x : Word)
    (hx : nextWord s = some x) :
    ∃ ws, expandKey s.key = some ws ∧ ws.length = scheduleWords s.NR.toNat ∧
      wordsAgree (kstepResult x s).W ws (s.KI.toNat + 1) := by
  obtain ⟨hl, hdef, hki, -⟩ := kexp_bounds hi h
  have ⟨_, hnk, _⟩ := hdef
  obtain ⟨ws, hws, hwl, hagree⟩ := hsi.kexp h
  obtain ⟨ws', hws', -, -, hrec⟩ := loaded_expandKey hl
  obtain rfl : ws = ws' := Option.some.inj (hws.symm.trans hws')
  rw [nextWord_of_wordsAgree hdef hagree (hrec _ hnk hki)] at hx
  exact ⟨ws, hws, hwl, wordsAgree_set hagree hx⟩

/-- A `KINV` step converts one more round key. -/
theorem kinvr_converts {s : State} (hi : Inv s) (hsi : ScheduleInv s) (h : s.PH = .kinv) (hr : s.RND.toNat < 15)
    (w : Vector Word 60) (hw : convertRoundKey s.W s.RND.toNat hr invMixMatrix = some w) :
    ∃ ws, expandKey s.key = some ws ∧ ws.length = scheduleWords s.NR.toNat ∧
      ∀ j : Fin 60, j.val < scheduleWords s.NR.toNat →
        ∃ x, ws[j.val]? = some x ∧ invertWord (s.RND.toNat + 1) j.val x = some w[j] := by
  obtain ⟨-, -, -, h1, -⟩ := kinv_bounds hi h
  obtain ⟨ws, hws, hwl, hall⟩ := hsi.kinv h
  refine ⟨ws, hws, hwl, fun j hj => ?_⟩
  obtain ⟨x, hx, hinv⟩ := hall j hj
  exact ⟨x, hx, invertWord_succ h1 hw j x hinv⟩

/-- The words of the equivalent inverse schedule, once every inner round key is converted (rule R121). -/
theorem holdsInverse_of_converted {u : State} {ws : List Word} (hl : u.loaded) (hws : expandKey u.key = some ws)
    (hwl : ws.length = scheduleWords u.NR.toNat)
    (hall : ∀ j : Fin 60, j.val < scheduleWords u.NR.toNat →
      ∃ x, ws[j.val]? = some x ∧ invertWord u.NR.toNat j.val x = some u.W[j]) : u.holdsInverse u.key := by
  have hnr : nrOf u.key.length = some u.NR.toNat := by
    rw [loaded_key_length hl]
    rcases loadedPair_cases _ _ hl.1 with ⟨hk, hr⟩ | ⟨hk, hr⟩ | ⟨hk, hr⟩ <;> simp [hk, hr, nrOf]
  obtain ⟨dw, hdw, hdl, hget⟩ := expandKeyInv_spec _ _ _ hnr hws
  refine ⟨dw, hdw, hdl.trans hwl, fun j hj => ?_⟩
  obtain ⟨x, hx, hinv⟩ := hall j hj
  exact (hget _ x hx).trans hinv

/-! ### The core's step, phase by phase -/

section
variable {s t : State} (hi : Inv s) (hb : s.BUSY = true)
include hi hb

theorem scheduleInv_step_check (h : s.PH = .check) (ht : coreStep s = .next t) : ScheduleInv t := by
  rw [coreStep_check s h (phaseReachable_of_inv s hi hb)] at ht
  cases hc : checkError s <;> rw [hc] at ht <;> cases ht
  · exact scheduleInv_of_phase (hi.busy_sched hb) trivial
  · exact scheduleInv_errorEntry _ s

theorem scheduleInv_step_kload (h : s.PH = .kload) (ht : coreStep s = .next t) : ScheduleInv t := by
  have hit : Inv t := inv_step_kload hi hb h ht
  have hp := hi.phase
  simp only [State.phaseInv, h] at hp
  obtain ⟨-, -, hkl, -⟩ := hp
  rw [coreStep_kload s h (phaseReachable_of_inv s hi hb) hkl] at ht
  cases ht
  obtain ⟨hl, -⟩ := kexp_bounds hit rfl
  have hnk : nkOf s.KLEN.toNat < 16 := by
    rw [keyLengthLegal_iff] at hkl
    simp only [nkOf]
    omega
  refine scheduleInv_of_phase (hi.busy_sched hb) (holdsPrefix_of_loadKey hl ?_ s.W ?_)
  · simp [Nat.mod_eq_of_lt hnk, Nat.mod_eq_of_lt (show nkOf s.KLEN.toNat < 64 by omega)]
  · simp [Nat.mod_eq_of_lt hnk]

theorem scheduleInv_step_kexp (hsi : ScheduleInv s) (h : s.PH = .kexp) (ht : coreStep s = .next t) :
    ScheduleInv t := by
  obtain ⟨hl, -, -, hsucc⟩ := kexp_bounds hi h
  have hnone := (hi.busy_sched hb)
  obtain ⟨x, hx, hcases⟩ := coreStep_kexp_cases hi hb h ht
  obtain ⟨ws, hws, hwl, hagree⟩ := kstep_extends hi hsi h x hx
  rcases hcases with ⟨hlast, ⟨-, rfl⟩ | ⟨hc, rfl⟩ | ⟨-, rfl⟩⟩ | ⟨-, rfl⟩
  · rw [hlast] at hagree
    exact scheduleInv_of_idle rfl (fun _ => ⟨s.key, loaded_key_length hl, ws, hws, hwl, hagree⟩) (by simp)
  · rw [hlast] at hagree
    refine scheduleInv_of_phase hnone (show State.holdsRoundKeys _ from ?_)
    rw [State.holdsRoundKeys, if_pos (by simp [State.isEnc, kstepResult, hc])]
    exact ⟨ws, hws, hwl, hagree⟩
  · rw [hlast] at hagree
    refine scheduleInv_of_phase hnone (show State.holdsPartlyInverse _ from ⟨ws, hws, hwl, fun j hj => ?_⟩)
    refine ⟨_, hagree j hj, ?_⟩
    rw [invertWord, if_neg (by simp; omega)]
  · refine scheduleInv_of_phase hnone ?_
    simp only [State.phaseHolds, kstepResult, h]
    exact ⟨ws, hws, hwl, by rw [hsucc]; exact hagree⟩

theorem scheduleInv_step_kinv (hsi : ScheduleInv s) (h : s.PH = .kinv) (ht : coreStep s = .next t) :
    ScheduleInv t := by
  obtain ⟨hl, -, -, -, h2, h14⟩ := kinv_bounds hi h
  have hnone := (hi.busy_sched hb)
  obtain ⟨hr, w, hw, hcases⟩ := coreStep_kinv_cases hi hb h ht
  obtain ⟨ws, hws, hwl, hall⟩ := kinvr_converts hi hsi h hr w hw
  rcases hcases with ⟨hlast, ⟨-, rfl⟩ | ⟨hc, rfl⟩⟩ | ⟨-, rfl⟩
  · rw [hlast] at hall
    refine scheduleInv_of_idle rfl (by simp) fun _ => ⟨s.key, loaded_key_length hl, ?_⟩
    exact holdsInverse_of_converted (u := { s with W := w }) hl hws hwl hall
  · rw [hlast] at hall
    refine scheduleInv_of_phase hnone (show State.holdsRoundKeys _ from ?_)
    rw [State.holdsRoundKeys, if_neg (by simp [State.isEnc, hc])]
    exact holdsInverse_of_converted (u := { s with W := w, PH := .load }) hl hws hwl hall
  · refine scheduleInv_of_phase hnone ?_
    simp only [State.phaseHolds, h]
    refine ⟨ws, hws, hwl, ?_⟩
    have hsucc : (s.RND + 1).toNat = s.RND.toNat + 1 := by bv_omega
    rw [hsucc]
    exact hall

/-- In the phases of the rounds but the last, a step changes `S`, `RND` and the phase only (rule R159). -/
theorem coreStep_round_frame (h : s.PH ∈ [Phase.load, .ark0, .sub, .shift, .mix, .ark])
    (ht : coreStep s = .next t) :
    t = { s with S := t.S, RND := t.RND, PH := t.PH } ∧ t.PH ∈ [Phase.ark0, .sub, .shift, .mix, .ark, .store] := by
  have hreach := phaseReachable_of_inv s hi hb
  simp only [List.mem_cons, List.not_mem_nil, or_false] at h
  rcases h with h | h | h | h | h | h
  · rw [coreStep_load s h hreach] at ht
    cases ht
    exact ⟨rfl, by simp⟩
  · rw [coreStep_ark0 s h hreach (ark_round_lt hi (.inl h))] at ht
    cases ht
    exact ⟨rfl, by simp⟩
  · rw [coreStep_sub s h hreach] at ht
    cases ht
    exact ⟨rfl, by simp⟩
  · rw [coreStep_shift s h hreach] at ht
    cases ht
    exact ⟨rfl, by cases s.isFinal <;> simp⟩
  · rw [coreStep_mix s h hreach] at ht
    cases ht
    exact ⟨rfl, by simp⟩
  · rw [coreStep_ark s h hreach (ark_round_lt hi (.inr h))] at ht
    cases ht
    cases s.isFinal
    · exact ⟨rfl, by simp⟩
    · exact ⟨rfl, by simp⟩

theorem scheduleInv_step_round (hsi : ScheduleInv s) (h : s.PH ∈ [Phase.load, .ark0, .sub, .shift, .mix, .ark])
    (ht : coreStep s = .next t) : ScheduleInv t := by
  obtain ⟨hframe, hph⟩ := coreStep_round_frame hi hb h ht
  have hkeys : s.holdsRoundKeys := hsi.rounds (by simp at h ⊢; tauto)
  exact scheduleInv_round (hi.busy_sched hb) hkeys hframe (List.mem_cons_of_mem _ hph)

/-- The last step names in `SCHED` the schedule that the rounds have used (rule R160). -/
theorem scheduleInv_step_store (hsi : ScheduleInv s) (h : s.PH = .store) (ht : coreStep s = .next t) :
    ScheduleInv t := by
  have hp := hi.phase
  simp only [State.phaseInv, h] at hp
  have hlen := loaded_key_length hp.1
  have hkeys : s.holdsRoundKeys := hsi.rounds (by simp [h])
  rw [coreStep_store s h (phaseReachable_of_inv s hi hb)] at ht
  cases ht
  cases henc : s.isEnc <;> simp only [State.holdsRoundKeys, henc] at hkeys
  · exact scheduleInv_of_idle rfl (by simp) fun _ => ⟨s.key, hlen, hkeys⟩
  · exact scheduleInv_of_idle rfl (fun _ => ⟨s.key, hlen, hkeys⟩) (by simp)

/-- The core's step keeps the schedule invariant: the phases that write `W`, the rounds, and the end. -/
theorem scheduleInv_coreStep (hsi : ScheduleInv s) (ht : coreStep s = .next t) : ScheduleInv t := by
  cases h : s.PH with
  | idle => exact absurd h (hi.busy_iff_phase.1 hb)
  | check => exact scheduleInv_step_check hi hb h ht
  | kload => exact scheduleInv_step_kload hi hb h ht
  | kexp => exact scheduleInv_step_kexp hi hb hsi h ht
  | kinv => exact scheduleInv_step_kinv hi hb hsi h ht
  | load | ark0 | sub | shift | mix | ark => exact scheduleInv_step_round hi hb hsi (by simp [h]) ht
  | store => exact scheduleInv_step_store hi hb hsi h ht

end

/-- Settles O54: the host's turns keep or discard the named schedule, the core's step builds it word by word. -/
theorem everyStepKeepsTheSchedule : Obligations.EveryStepKeepsTheSchedule := by
  unfold Obligations.EveryStepKeepsTheSchedule
  intro s t hi hs h
  rcases step_next_cases s t h with ⟨a, v, rest, -, rfl⟩ | ⟨a, rest, -, rfl⟩ | ⟨rest, -, rfl⟩ |
    ⟨rest, ts, -, rfl, -⟩ | ⟨rest, -, ⟨hb, hc⟩ | ⟨-, rfl⟩⟩ | ⟨w, b, x, rest, i, -, -, hf, he⟩
  case inl => exact scheduleInv_memWrite a v _ (hi.of_data rfl) (hs.of_lines rfl)
  case inr.inl => exact hs.of_lines rfl
  case inr.inr.inl => exact scheduleInv_reset.of_lines rfl
  case inr.inr.inr.inl => exact hs.of_lines rfl
  case inr.inr.inr.inr.inl.inl =>
    exact scheduleInv_coreStep (s := { s with turns := rest }) (hi.of_data rfl) hb (hs.of_lines rfl) hc
  case inr.inr.inr.inr.inl.inr => exact hs.of_lines rfl
  case inr.inr.inr.inr.inr =>
    rw [exec_unit_frame hf he]
    exact hs.of_lines rfl

/-- Settles O52: at reset the core is idle, no schedule is named and every register is zero. -/
theorem resetSatisfiesTheInvariant : Obligations.ResetSatisfiesTheInvariant := by
  unfold Obligations.ResetSatisfiesTheInvariant
  exact ⟨inv_reset, scheduleInv_reset⟩

end Sys2Proof.Machine

/-! ## O9, O10, O22: what `exec` and `advance` write, and where `exec` refuses (rules R25 to R36, R73, R78) -/

namespace Sys2Proof.Machine

/-! ### The flags (rule R31) -/

/-- Everything `advance` can do to the flags: nothing, or the completion of a command, whose kind the phase and the
command decide (rules R159, R160). -/
theorem advance_flags_cases (u : State) :
    ((advance u).BUSY = u.BUSY ∧ (advance u).DONE = u.DONE ∧ (advance u).OUT_VALID = u.OUT_VALID ∧
      (advance u).SCHED = u.SCHED) ∨
    (u.PH = .kexp ∧ u.CMDR = 0x03 ∧ advance u = finish false .forward u) ∨
    (u.PH = .kinv ∧ u.CMDR = 0x04 ∧ advance u = finish false .inverse u) ∨
    (u.PH = .store ∧ advance u = finish true (if u.isEnc then .forward else .inverse) u) := by
  cases h : u.PH
  case kexp =>
    by_cases hk : u.KI.toNat = scheduleWords u.NR.toNat
    · rw [advance_kexp_last u h hk]
      split
      · exact .inr (.inl ⟨rfl, ‹_›, rfl⟩)
      · split <;> exact .inl ⟨rfl, rfl, rfl, rfl⟩
    · rw [advance_kexp_more u h hk]
      exact .inl ⟨rfl, rfl, rfl, rfl⟩
  case kinv =>
    by_cases hr : u.RND = u.NR - 1
    · rw [advance_kinv_last u h hr]
      split
      · exact .inr (.inr (.inl ⟨rfl, ‹_›, rfl⟩))
      · exact .inl ⟨rfl, rfl, rfl, rfl⟩
    · rw [advance_kinv_more u h hr]
      exact .inl ⟨rfl, rfl, rfl, rfl⟩
  case store => exact .inr (.inr (.inr ⟨rfl, by simp [advance, h]⟩))
  case ark =>
    simp only [advance, h]
    split <;> exact .inl ⟨rfl, rfl, rfl, rfl⟩
  all_goals exact .inl (by simp [advance, h])

/-- What a core step can do to the flags, in any register state: raise, go on, or complete (rules R116, R159, R160). -/
theorem coreStep_flags_cases (s t : State) (h : coreStep s = .next t) :
    (∃ e, t = errorEntry e s) ∨
    (t.BUSY = s.BUSY ∧ t.DONE = s.DONE ∧ t.OUT_VALID = s.OUT_VALID ∧ t.SCHED = s.SCHED) ∨
    (t.BUSY = false ∧ t.DONE = true ∧
      (s.CMDR = 0x03 ∧ t.OUT_VALID = false ∧ t.SCHED = .forward ∨
       s.CMDR = 0x04 ∧ t.OUT_VALID = false ∧ t.SCHED = .inverse ∨
       s.PH = .store ∧ s.CMDR = 0x01 ∧ t.SCHED = .forward ∨
       s.PH = .store ∧ s.CMDR = 0x02 ∧ t.SCHED = .inverse)) := by
  obtain ⟨hr, w, i, u, -, -, hm, hu, rfl⟩ := coreStep_next_cases s t h
  rcases exec_next_cases i s u hu with ⟨hf, -⟩ | ⟨-, e, -, rfl⟩ | ⟨-, hframe⟩ | ⟨hf, -⟩
  · rw [hm] at hf; cases hf
  · exact .inl ⟨e, advance_idle _ rfl⟩
  · have hph : u.PH = s.PH := by rw [hframe]
    have hcmd : u.CMDR = s.CMDR := by rw [hframe]
    have hflags : u.BUSY = s.BUSY ∧ u.DONE = s.DONE ∧ u.OUT_VALID = s.OUT_VALID ∧ u.SCHED = s.SCHED := by
      rw [hframe]; exact ⟨rfl, rfl, rfl, rfl⟩
    rcases advance_flags_cases u with ha | ⟨-, hc, ha⟩ | ⟨-, hc, ha⟩ | ⟨hp, ha⟩
    · obtain ⟨h1, h2, h3, h4⟩ := ha
      obtain ⟨g1, g2, g3, g4⟩ := hflags
      exact .inr (.inl ⟨h1.trans g1, h2.trans g2, h3.trans g3, h4.trans g4⟩)
    · rw [ha]; exact .inr (.inr ⟨rfl, rfl, .inl ⟨hcmd ▸ hc, rfl, rfl⟩⟩)
    · rw [ha]; exact .inr (.inr ⟨rfl, rfl, .inr (.inl ⟨hcmd ▸ hc, rfl, rfl⟩)⟩)
    · rw [hph] at hp
      rw [ha]
      have hblock : commandUsesBlock s.CMDR = true := by
        simp only [State.phaseReachable, hp, Bool.and_eq_true] at hr
        exact hr.1
      rcases (commandUsesBlock_iff _).1 hblock with hc | hc <;> simp [State.isEnc, hcmd, hc, hp]
  · rw [hm] at hf; cases hf

/-- The clauses of rule R31's table for a step from `s` to `t`. -/
def flagsRiseAsListed (s t : State) : Prop :=
  (s.BUSY = false → t.BUSY = true →
    ∃ v rest, s.turns = .hostWrite 0x000 v :: rest ∧ commandLegal v = true ∧ t.CMDR = v) ∧
  (s.OUT_VALID = false → t.OUT_VALID = true → s.BUSY = true ∧ s.PH = .store ∧ (s.CMDR = 0x01 ∨ s.CMDR = 0x02)) ∧
  (s.SCHED ≠ t.SCHED → t.SCHED ≠ .none → s.BUSY = true ∧ t.BUSY = false ∧ t.DONE = true ∧
    (t.SCHED = .forward ↔ s.CMDR = 0x01 ∨ s.CMDR = 0x03)) ∧
  (s.BUSY = true → t.BUSY = false → t.DONE = true ∨ ∃ rest, s.turns = .hostReset :: rest)

/-- A step that keeps the flags meets every clause. -/
theorem flagsRise_of_same {s t : State} (hb : t.BUSY = s.BUSY) (ho : t.OUT_VALID = s.OUT_VALID)
    (hs : t.SCHED = s.SCHED) : flagsRiseAsListed s t := by
  refine ⟨?_, ?_, ?_, ?_⟩ <;> simp_all

/-- A host write raises no flag but `BUSY`, by accepting a legal command (rules R54, R154). -/
theorem flagsRise_hostWrite (s : State) (a : Addr) (v : Byte) (rest : List Turn)
    (ht : s.turns = .hostWrite a v :: rest) : flagsRiseAsListed s (memWrite a v { s with turns := rest }) := by
  rcases memWrite_cases a v { s with turns := rest } with
    h | ⟨hb, rfl, h⟩ | ⟨-, -, h⟩ | ⟨-, -, h⟩ | ⟨-, _, -, h⟩ | ⟨-, _, -, h⟩ <;> rw [h]
  case inr.inl =>
    refine ⟨fun _ hv => ⟨v, rest, ht, ?_⟩, by simp, by simp, fun hb' => ?_⟩
    · rw [accept_BUSY] at hv
      simp [hv]
    · rw [show s.BUSY = false from hb] at hb'
      cases hb'
  all_goals exact flagsRise_of_same rfl rfl rfl

/-- A core step raises `OUT_VALID` and `SCHED` only by completing a command (rules R159, R160). -/
theorem flagsRise_core (s t : State) (rest : List Turn) (hb : s.BUSY = true)
    (h : coreStep { s with turns := rest } = .next t) : flagsRiseAsListed s t := by
  rcases coreStep_flags_cases _ t h with ⟨e, rfl⟩ | ⟨h1, h2, h3, h4⟩ | ⟨h1, h2, hend⟩
  · refine ⟨?_, ?_, ?_, ?_⟩ <;> simp [hb]
  · exact flagsRise_of_same h1 h3 h4
  · refine ⟨by simp [hb], fun _ ho => ?_, fun _ _ => ⟨hb, h1, h2, ?_⟩, fun _ _ => .inl h2⟩
    · rcases hend with ⟨-, ho', -⟩ | ⟨-, ho', -⟩ | ⟨hp, hc, -⟩ | ⟨hp, hc, -⟩
      · simp [ho'] at ho
      · simp [ho'] at ho
      · exact ⟨hb, hp, .inl hc⟩
      · exact ⟨hb, hp, .inr hc⟩
    · rcases hend with ⟨hc, -, hs⟩ | ⟨hc, -, hs⟩ | ⟨-, hc, hs⟩ | ⟨-, hc, hs⟩ <;>
        simp only at hc <;> simp [hc, hs]

/-- Settles O9: acceptance, the core's step and reset are the only turns that touch the flags. -/
theorem flagsRiseOnlyAsListed : Obligations.FlagsRiseOnlyAsListed := by
  unfold Obligations.FlagsRiseOnlyAsListed
  intro s t h
  change flagsRiseAsListed s t
  rcases step_next_cases s t h with ⟨a, v, rest, ht, rfl⟩ | ⟨a, rest, -, rfl⟩ | ⟨rest, ht, rfl⟩ |
    ⟨rest, ts, -, rfl, -⟩ | ⟨rest, -, ⟨hb, hc⟩ | ⟨-, rfl⟩⟩ | ⟨w, b, x, rest, i, -, -, hf, he⟩
  case inl => exact flagsRise_hostWrite s a v rest ht
  case inr.inl => exact flagsRise_of_same rfl rfl rfl
  case inr.inr.inl =>
    exact ⟨by simp [State.reset], by simp [State.reset], by simp [State.reset], fun _ _ => .inr ⟨rest, ht⟩⟩
  case inr.inr.inr.inl => exact flagsRise_of_same rfl rfl rfl
  case inr.inr.inr.inr.inl.inl => exact flagsRise_core s t rest hb hc
  case inr.inr.inr.inr.inl.inr => exact flagsRise_of_same rfl rfl rfl
  case inr.inr.inr.inr.inr =>
    rw [exec_unit_frame hf he]
    exact flagsRise_of_same rfl rfl rfl

/-! ### Where the meanings refuse (rules R40, R78, R115, R135) -/

theorem exec_kload_refused (s : State) (h : keyLengthLegal s.KLEN = false) :
    exec .kload s = .refused .unreachableState := by
  simp [exec, execKload, nrOf_of_illegal _ h]

theorem exec_kstep_refused (s : State) (h : ¬kstepDefined s) : exec .kstep s = .refused .unreachableState := by
  simp [exec, execKstep, nextWord_none s h]

theorem exec_kstep_defined (s : State) (h : kstepDefined s) :
    ∃ x, nextWord s = some x ∧ exec .kstep s = .next (kstepResult x s) := by
  obtain ⟨x, hx⟩ := nextWord_isSome h
  exact ⟨x, hx, exec_kstep s x hx⟩

theorem exec_kinvr_refused (s : State) (h : ¬s.RND.toNat < 15) : exec .kinvr s = .refused .unreachableState := by
  simp [exec, execKinvr, convertState, h]

theorem exec_ark_refused (s : State) (h : ¬s.RND.toNat < 15) : exec .ark s = .refused .unreachableState := by
  simp [exec, execArk, h]

theorem exec_rcon_refused (s : State) (j : Byte) (h : ¬j.toNat < 14) :
    exec (.rcon j) s = .refused (.rconIndexOutOfTable j) := by
  simp only [exec, execRcon, rcon]
  rw [Vector.getElem?_eq_none (by omega)]

theorem keyLengthLegal_iff_mem (n : Byte) : keyLengthLegal n = true ↔ n ∈ [16, 24, 32] := by
  simp [keyLengthLegal, or_assoc]

theorem round_eq_15_iff (r : BitVec 4) : r = 15 ↔ ¬r.toNat < 15 := by
  constructor
  · rintro rfl
    decide
  · intro h
    bv_omega

theorem not_kstepDefined_iff (s : State) :
    ¬kstepDefined s ↔ s.NK ∉ [4, 6, 8] ∨ s.KI.toNat < s.NK.toNat ∨ 60 ≤ s.KI.toNat := by
  have hnk : s.NK.toNat ∈ [4, 6, 8] ↔ s.NK ∈ [4, 6, 8] := by
    simp [← BitVec.toNat_inj]
  rw [kstepDefined, hnk]
  simp only [not_and_or, not_le, not_lt]

/-- Everything that can be refused, and where (rules R78, R115, R135). -/
theorem exec_refused_cases (i : Instr) (s : State) (r : Refusal) (h : exec i s = .refused r) :
    (i = .kload ∧ r = .unreachableState ∧ keyLengthLegal s.KLEN = false) ∨
    (i = .kstep ∧ r = .unreachableState ∧ ¬kstepDefined s) ∨
    ((i = .kinvr ∨ i = .ark) ∧ r = .unreachableState ∧ ¬s.RND.toNat < 15) ∨
    ∃ j : Byte, i = .rcon j ∧ r = .rconIndexOutOfTable j ∧ ¬j.toNat < 14 := by
  cases i
  case kload =>
    cases hk : keyLengthLegal s.KLEN
    · rw [exec_kload_refused s hk] at h; cases h
      exact .inl ⟨rfl, rfl, rfl⟩
    · rw [exec_kload s hk] at h; cases h
  case kstep =>
    by_cases hk : kstepDefined s
    · obtain ⟨x, -, hx⟩ := exec_kstep_defined s hk
      rw [hx] at h; cases h
    · rw [exec_kstep_refused s hk] at h; cases h
      exact .inr (.inl ⟨rfl, rfl, hk⟩)
  case kinvr =>
    by_cases hr : s.RND.toNat < 15
    · obtain ⟨w, -, hw⟩ := exec_kinvr s hr
      rw [hw] at h; cases h
    · rw [exec_kinvr_refused s hr] at h; cases h
      exact .inr (.inr (.inl ⟨.inl rfl, rfl, hr⟩))
  case ark =>
    by_cases hr : s.RND.toNat < 15
    · rw [exec_ark s hr] at h; cases h
    · rw [exec_ark_refused s hr] at h; cases h
      exact .inr (.inr (.inl ⟨.inr rfl, rfl, hr⟩))
  case rcon j =>
    by_cases hj : j.toNat < 14
    · rw [exec_rcon j s hj] at h; cases h
    · rw [exec_rcon_refused s j hj] at h; cases h
      exact .inr (.inr (.inr ⟨j, rfl, rfl, hj⟩))
  case chk =>
    cases hc : checkError s with
    | none => rw [exec_chk_pass s hc] at h; cases h
    | some e => rw [exec_chk_raise s e hc] at h; cases h
  case gfmul k =>
    cases hk : supportedMultipliers.contains k
    · rw [exec_gfmul_unsupported k s hk] at h; cases h
    · rw [exec_gfmul_supported k s hk] at h; cases h
  case mixc => rw [exec_mixc] at h; cases h
  case imixc => rw [exec_imixc] at h; cases h
  all_goals cases h

/-- Settles O22: an equation for each refusal, and the case split of `exec_refused_cases` for the converse. -/
theorem refusesOnlyOutsideReachableStates : Obligations.RefusesOnlyOutsideReachableStates := by
  unfold Obligations.RefusesOnlyOutsideReachableStates
  have hkey : ∀ n : Byte, keyLengthLegal n = false ↔ n ∉ [16, 24, 32] := fun n => by
    rw [← keyLengthLegal_iff_mem, Bool.not_eq_true]
  refine ⟨fun s h => exec_kload_refused s ((hkey _).2 h), fun s h => exec_kstep_refused s ((not_kstepDefined_iff s).2 h),
    fun s h => ?_, fun s j h => exec_rcon_refused s j (by omega), fun s i r h => ?_⟩
  · rw [round_eq_15_iff] at h
    exact ⟨exec_kinvr_refused s h, exec_ark_refused s h⟩
  · rcases exec_refused_cases i s r h with ⟨hi, hr, hk⟩ | ⟨hi, hr, hk⟩ | ⟨hi, hr, hk⟩ | ⟨j, hi, hr, hj⟩
    · exact .inl ⟨hi, hr, (hkey _).1 hk⟩
    · exact .inr (.inl ⟨hi, hr, (not_kstepDefined_iff s).1 hk⟩)
    · exact .inr (.inr (.inl ⟨hi, hr, (round_eq_15_iff _).2 hk⟩))
    · exact .inr (.inr (.inr ⟨j, hi, hr, by omega⟩))

/-! ### What each micro-operation writes (rules R25 to R29, R34) -/

/-- The micro-operations that write the cipher state and nothing else (rule R26). -/
def stateWriters : List Instr := [.ldst, .ark, .subb, .shrow, .mixc, .isubb, .ishrow, .imixc]

/-- Everything a micro-operation can write, operation by operation. -/
theorem exec_micro_writes {i : Instr} {s t : State} (hm : i.format = .micro) (h : exec i s = .next t) :
    (i = .chk ∧ (t = s ∨ t = errorEntry .invalidBlockLength s ∨ t = errorEntry .invalidKeyLength s)) ∨
    (i = .kload ∧ ∃ nk nr w ki, t = { s with NK := nk, NR := nr, W := w, KI := ki }) ∨
    (i = .kstep ∧ ∃ w, t = { s with W := w, KI := s.KI + 1 }) ∨
    (i = .kinvr ∧ ∃ w, t = { s with W := w }) ∨
    (i = .stst ∧ ∃ b, t = { s with DOUT := b }) ∨
    (i ∈ stateWriters ∧ ∃ m, t = { s with S := m }) := by
  cases i
  case chk =>
    rcases checkError_cases s with ⟨hc, -⟩ | ⟨hc, -⟩ | ⟨hc, -⟩
    · rw [exec_chk_raise s _ hc] at h; cases h; exact .inl ⟨rfl, .inr (.inl rfl)⟩
    · rw [exec_chk_raise s _ hc] at h; cases h; exact .inl ⟨rfl, .inr (.inr rfl)⟩
    · rw [exec_chk_pass s hc] at h; cases h; exact .inl ⟨rfl, .inl rfl⟩
  case kload =>
    cases hk : keyLengthLegal s.KLEN
    · rw [exec_kload_refused s hk] at h; cases h
    · rw [exec_kload s hk] at h; cases h; exact .inr (.inl ⟨rfl, _, _, _, _, rfl⟩)
  case kstep =>
    by_cases hk : kstepDefined s
    · obtain ⟨x, -, hx⟩ := exec_kstep_defined s hk
      rw [hx] at h; cases h; exact .inr (.inr (.inl ⟨rfl, _, rfl⟩))
    · rw [exec_kstep_refused s hk] at h; cases h
  case kinvr =>
    by_cases hr : s.RND.toNat < 15
    · obtain ⟨w, -, hw⟩ := exec_kinvr s hr
      rw [hw] at h; cases h; exact .inr (.inr (.inr (.inl ⟨rfl, _, rfl⟩)))
    · rw [exec_kinvr_refused s hr] at h; cases h
  case stst => cases h; exact .inr (.inr (.inr (.inr (.inl ⟨rfl, _, rfl⟩))))
  case ark =>
    by_cases hr : s.RND.toNat < 15
    · rw [exec_ark s hr] at h; cases h; exact .inr (.inr (.inr (.inr (.inr ⟨by decide, _, rfl⟩))))
    · rw [exec_ark_refused s hr] at h; cases h
  case mixc => rw [exec_mixc] at h; cases h; exact .inr (.inr (.inr (.inr (.inr ⟨by decide, _, rfl⟩))))
  case imixc => rw [exec_imixc] at h; cases h; exact .inr (.inr (.inr (.inr (.inr ⟨by decide, _, rfl⟩))))
  case ldst | subb | isubb | shrow | ishrow => cases h; exact .inr (.inr (.inr (.inr (.inr ⟨by decide, _, rfl⟩))))
  all_goals cases hm

/-- An accepted command, or one dropped while `BUSY = 1` (rules R154, R196). -/
theorem exec_command_cases {i : Instr} {s t : State} (hf : i.format = .command) (h : exec i s = .next t) :
    (s.BUSY = true ∧ t = s) ∨ (s.BUSY = false ∧ t = accept i.opByte s) := by
  rw [exec_command i s hf] at h
  cases h
  cases hb : s.BUSY
  · exact .inr ⟨rfl, writeCmd_idle _ _ hb⟩
  · exact .inl ⟨rfl, writeCmd_busy _ _ hb⟩

/-- Settles O10: the operations split into commands, micro-operations by what they write, and the function unit's. -/
theorem registersWrittenOnlyByTheirWriters : Obligations.RegistersWrittenOnlyByTheirWriters := by
  unfold Obligations.RegistersWrittenOnlyByTheirWriters
  intro i s t h
  cases hf : i.format with
  | command =>
    have hchk : i ≠ .chk := by rintro rfl; cases hf
    rcases exec_command_cases hf h with ⟨hb, rfl⟩ | ⟨hb, rfl⟩ <;> simp [hb, hchk]
  | micro =>
    rcases exec_micro_writes hf h with ⟨rfl, rfl | rfl | rfl⟩ | ⟨rfl, nk, nr, w, ki, rfl⟩ | ⟨rfl, w, rfl⟩ |
      ⟨rfl, w, rfl⟩ | ⟨rfl, b, rfl⟩ | ⟨hi, m, rfl⟩
    case inr.inr.inr.inr.inr =>
      have hchk : i ≠ .chk := by rintro rfl; revert hi; decide
      exact ⟨⟨rfl, rfl, rfl, rfl⟩, fun _ => rfl, fun hn => absurd hi hn, fun _ => rfl, fun _ hk => absurd rfl hk, rfl,
        fun _ _ => ⟨rfl, rfl, rfl, rfl, rfl, rfl, fun _ => ⟨rfl, rfl⟩⟩, fun hc => absurd hc hchk, by simp,
        fun _ => rfl, by simp, rfl, rfl⟩
    all_goals simp
  | unit =>
    have hchk : i ≠ .chk := by rintro rfl; cases hf
    rw [exec_unit_frame hf h]
    simp [hchk]

end Sys2Proof.Machine

/-! ## O59: key bytes beyond the declared length (rules R21, R200) -/

namespace Sys2Proof.Machine

/-! ### A core step leaves the host's registers alone (rule R61) -/

/-- The sequencer's update writes the flags, the phase and the round counter, and nothing else (rules R159, R160). -/
theorem advance_writes (u : State) : ∃ b d o sch p r,
    advance u = { u with BUSY := b, DONE := d, OUT_VALID := o, SCHED := sch, PH := p, RND := r } := by
  cases h : u.PH
  case kexp =>
    by_cases hk : u.KI.toNat = scheduleWords u.NR.toNat
    · rw [advance_kexp_last u h hk]
      split
      · exact ⟨_, _, _, _, _, _, rfl⟩
      · split <;> exact ⟨_, _, _, _, _, _, rfl⟩
    · rw [advance_kexp_more u h hk]
      exact ⟨_, _, _, _, _, _, rfl⟩
  case kinv =>
    by_cases hr : u.RND = u.NR - 1
    · rw [advance_kinv_last u h hr]
      split <;> exact ⟨_, _, _, _, _, _, rfl⟩
    · rw [advance_kinv_more u h hr]
      exact ⟨_, _, _, _, _, _, rfl⟩
  case ark =>
    simp only [advance, h]
    split <;> exact ⟨_, _, _, _, _, _, rfl⟩
  all_goals
    simp only [advance, h]
    exact ⟨_, _, _, _, _, _, rfl⟩

theorem coreStep_inputs {s t : State} (h : coreStep s = .next t) :
    t.KEYBUF = s.KEYBUF ∧ t.KLEN = s.KLEN ∧ t.DIN = s.DIN ∧ t.BLEN = s.BLEN := by
  obtain ⟨-, w, i, u, -, -, hm, hu, rfl⟩ := coreStep_next_cases s t h
  obtain ⟨hinputs, -⟩ := registersWrittenOnlyByTheirWriters i s u hu
  obtain ⟨b, d, o, sch, p, r, ha⟩ := advance_writes u
  rw [ha]
  exact hinputs

/-! ### Replacing the key buffer -/

/-- The state with another key buffer. -/
def withKey (k : Vector Byte 32) (s : State) : State := { s with KEYBUF := k }

@[simp] theorem withKey_PH (k : Vector Byte 32) (s : State) : (withKey k s).PH = s.PH := rfl

/-- The sequencer's update does not read the key buffer. -/
theorem advance_withKey (k : Vector Byte 32) (u : State) : advance (withKey k u) = withKey k (advance u) := by
  cases h : u.PH
  case kexp =>
    by_cases hk : u.KI.toNat = scheduleWords u.NR.toNat
    · rw [advance_kexp_last u h hk, advance_kexp_last (withKey k u) h hk, apply_ite (withKey k), apply_ite (withKey k)]
      rfl
    · rw [advance_kexp_more u h hk, advance_kexp_more (withKey k u) h hk]
  case kinv =>
    by_cases hr : u.RND = u.NR - 1
    · rw [advance_kinv_last u h hr, advance_kinv_last (withKey k u) h hr, apply_ite (withKey k)]
      rfl
    · rw [advance_kinv_more u h hr, advance_kinv_more (withKey k u) h hr]
      rfl
  case ark =>
    simp only [advance, withKey_PH, h, apply_ite (withKey k)]
    rfl
  case idle => rw [advance_idle u h, advance_idle (withKey k u) h]
  all_goals
    simp only [advance, withKey_PH, h]
    rfl

/-- No micro-operation but `KLOAD` reads the key buffer (rule R117). -/
theorem exec_withKey {i : Instr} {s u : State} (k : Vector Byte 32) (hm : i.format = .micro) (hi : i ≠ .kload)
    (h : exec i s = .next u) : exec i (withKey k s) = .next (withKey k u) := by
  cases i
  case kload => exact absurd rfl hi
  case chk =>
    cases hc : checkError s with
    | none =>
      rw [exec_chk_pass s hc] at h; cases h
      exact exec_chk_pass (withKey k s) hc
    | some e =>
      rw [exec_chk_raise s e hc] at h; cases h
      exact exec_chk_raise { s with KEYBUF := k } e hc
  case kstep =>
    by_cases hk : kstepDefined s
    · obtain ⟨x, hn, hx⟩ := exec_kstep_defined s hk
      rw [hx] at h; cases h
      exact exec_kstep (withKey k s) x hn
    · rw [exec_kstep_refused s hk] at h; cases h
  case kinvr =>
    by_cases hr : s.RND.toNat < 15
    · obtain ⟨w, hw, he⟩ := exec_kinvr s hr
      obtain ⟨w', hw', he'⟩ := exec_kinvr (withKey k s) hr
      obtain rfl : w = w' := Option.some.inj (hw.symm.trans hw')
      rw [he] at h; cases h
      exact he'
    · rw [exec_kinvr_refused s hr] at h; cases h
  case ark =>
    by_cases hr : s.RND.toNat < 15
    · rw [exec_ark s hr] at h; cases h
      exact exec_ark (withKey k s) hr
    · rw [exec_ark_refused s hr] at h; cases h
  case mixc => rw [exec_mixc] at h; cases h; exact exec_mixc (withKey k s)
  case imixc => rw [exec_imixc] at h; cases h; exact exec_imixc (withKey k s)
  case ldst | stst | subb | isubb | shrow | ishrow => cases h; rfl
  all_goals cases hm

/-- `KLOAD` reads only the key bytes below `4*nk` (rule R117). -/
theorem loadKey_congr {k k' : Vector Byte 32} {nk : Nat} (w : Vector Word 60)
    (h : ∀ j : Fin 32, j.val < 4 * nk → k[j] = k'[j]) : loadKey k nk w = loadKey k' nk w := by
  unfold loadKey
  congr 1
  funext j
  split
  · rename_i hj
    have hb : ∀ b (hb : b < 4), k[4 * j.val + b] = k'[4 * j.val + b] := fun b hb =>
      h ⟨4 * j.val + b, by omega⟩ (by show 4 * j.val + b < _; omega)
    simp only [keyWord]
    have h0 : k[4 * j.val] = k'[4 * j.val] := hb 0 (by decide)
    rw [h0, hb 1 (by decide), hb 2 (by decide), hb 3 (by decide)]
  · rfl

/-- With a legal key length, a micro-operation answers the same whatever the key bytes beyond that length. -/
theorem exec_ignores_key_tail {i : Instr} {s u : State} {k : Vector Byte 32} (hm : i.format = .micro)
    (hl : keyLengthLegal s.KLEN = true) (hk : ∀ j : Fin 32, j.val < s.KLEN.toNat → s.KEYBUF[j] = k[j])
    (h : exec i s = .next u) : exec i (withKey k s) = .next (withKey k u) := by
  by_cases hi : i = .kload
  · subst hi
    have hlen : 4 * nkOf s.KLEN.toNat = s.KLEN.toNat := by
      rcases (keyLengthLegal_iff _).1 hl with hn | hn | hn <;> simp [nkOf, hn]
    rw [exec_kload s hl, loadKey_congr s.W (by rwa [hlen])] at h
    cases h
    exact exec_kload (withKey k s) hl
  · exact exec_withKey k hm hi h

/-- Settles O59: `KLOAD` alone reads the key buffer, and only below the declared length. -/
theorem keyBytesBeyondTheLengthAreIgnored : Obligations.KeyBytesBeyondTheLengthAreIgnored := by
  unfold Obligations.KeyBytesBeyondTheLengthAreIgnored
  rintro s s' t hl ⟨hs', hagree⟩ h
  obtain ⟨k, rfl⟩ : ∃ k, s' = withKey k s := ⟨_, hs'.symm⟩
  obtain ⟨hr, w, i, u, hw, hd, hm, hu, rfl⟩ := coreStep_next_cases s t h
  obtain ⟨hkey, hlen, -⟩ := coreStep_inputs h
  refine ⟨withKey k (advance u), ?_, rfl, fun j hj => ?_⟩
  · rw [← advance_withKey]
    exact coreStep_of (withKey k s) _ w i hr hw hd (exec_ignores_key_tail hm hl hagree hu)
  · rw [hlen] at hj
    rw [hkey]
    exact hagree j hj

end Sys2Proof.Machine

/-! ## O11, O7: the host's view of the registers (rules R31, R39, R51, R53, R55, R56, R59) -/

namespace Sys2Proof.Machine

/-! ### What a read returns in each range of addresses -/

/-- The status byte as a number (rule R31). -/
theorem statusByte_toNat (s : State) : s.statusByte.toNat =
    s.BUSY.toNat + 2 * s.DONE.toNat + 4 * s.OUT_VALID.toNat + 8 * s.SCHED.code.toNat := by
  cases hb : s.BUSY <;> cases hd : s.DONE <;> cases ho : s.OUT_VALID <;> cases hs : s.SCHED <;>
    simp [State.statusByte, hb, hd, ho, hs, Sched.code]

theorem memRead_cmd (s : State) : memRead 0x000 s = 0x00 := by simp [memRead]

theorem memRead_nk (s : State) : memRead 0x005 s = s.NK.setWidth 8 := by simp [memRead]

theorem memRead_nr (s : State) : memRead 0x006 s = s.NR.setWidth 8 := by simp [memRead]

theorem memRead_din (s : State) (i : Fin 16) : memRead (BitVec.ofNat 9 (0x010 + i.val)) s = s.DIN[i] := by
  have ha : (BitVec.ofNat 9 (0x010 + i.val)).toNat = 0x010 + i.val := addr_toNat _ (by omega)
  simp (disch := omega) only [memRead, ha, if_neg, dif_pos, Nat.add_sub_cancel_left]
  rfl

theorem memRead_dout (s : State) (i : Fin 16) :
    memRead (BitVec.ofNat 9 (0x020 + i.val)) s = if s.OUT_VALID = true then s.DOUT[i] else 0x00 := by
  have ha : (BitVec.ofNat 9 (0x020 + i.val)).toNat = 0x020 + i.val := addr_toNat _ (by omega)
  simp (disch := omega) only [memRead, ha, if_neg, dif_neg, dif_pos, Nat.add_sub_cancel_left]
  rfl

theorem memRead_keybuf (s : State) (i : Fin 32) : memRead (BitVec.ofNat 9 (0x040 + i.val)) s = s.KEYBUF[i] := by
  have ha : (BitVec.ofNat 9 (0x040 + i.val)).toNat = 0x040 + i.val := addr_toNat _ (by omega)
  simp (disch := omega) only [memRead, ha, if_neg, dif_neg, dif_pos, Nat.add_sub_cancel_left]
  rfl

/-- The schedule window, one byte an address (rule R56). -/
theorem memRead_schedule (s : State) (j : Fin 240) :
    memRead (BitVec.ofNat 9 (0x100 + j.val)) s = if s.SCHED ≠ .none then s.W[j.val / 4][j.val % 4] else 0x00 := by
  have ha : (BitVec.ofNat 9 (0x100 + j.val)).toNat = 0x100 + j.val := addr_toNat _ (by omega)
  simp (disch := omega) only [memRead, ha, if_neg, dif_neg, dif_pos, Nat.add_sub_cancel_left]

theorem memRead_word_byte (s : State) (i : Fin 60) (b : Fin 4) :
    memRead (BitVec.ofNat 9 (0x100 + 4 * i.val + b.val)) s = if s.SCHED = .none then 0x00 else s.W[i][b] := by
  have h := memRead_schedule s ⟨4 * i.val + b.val, by omega⟩
  have hdiv : (4 * i.val + b.val) / 4 = i.val := by omega
  have hmod : (4 * i.val + b.val) % 4 = b.val := by omega
  simp only [hdiv, hmod, ite_not, ← Nat.add_assoc] at h
  exact h

/-- Every address the map does not list reads as zero (rules R51, R59). -/
theorem memRead_reserved (s : State) (a : Addr)
    (h : (0x007 ≤ a.toNat ∧ a.toNat ≤ 0x00F) ∨ (0x030 ≤ a.toNat ∧ a.toNat ≤ 0x03F) ∨
      (0x060 ≤ a.toNat ∧ a.toNat ≤ 0x0FF) ∨ 0x1F0 ≤ a.toNat) : memRead a s = 0x00 := by
  simp (disch := omega) only [memRead, if_neg, dif_neg]

/-- With the two gates closed no result is visible (rules R55, R56). -/
theorem resultsHidden_of_gates {s : State} (ho : s.OUT_VALID = false) (hs : s.SCHED = .none) : s.resultsHidden :=
  ⟨fun i => by simp [memRead_dout, ho], fun j => by simp [memRead_schedule, hs]⟩

/-- Settles O11: one lemma for each range of the address map; under the invariant a busy core shows `BUSY` alone. -/
theorem hostReadReturnsTheMappedByte : Obligations.HostReadReturnsTheMappedByte := by
  unfold Obligations.HostReadReturnsTheMappedByte
  refine ⟨fun s => ⟨memRead_cmd s, ?status, memRead_err s, memRead_klen s, memRead_blen s, ?nk, ?nr, memRead_din s,
    memRead_dout s, memRead_keybuf s, memRead_word_byte s, memRead_reserved s⟩, ?turn, ?busy⟩
  case status => rw [memRead_status, statusByte_toNat]
  case nk => rw [memRead_nk, BitVec.toNat_setWidth, Nat.mod_eq_of_lt (by omega)]
  case nr => rw [memRead_nr, BitVec.toNat_setWidth, Nat.mod_eq_of_lt (by omega)]
  case turn =>
    intro s a rest ht
    rw [step_next_turn s _ rest ht]
    rfl
  case busy =>
    intro s hi hb
    obtain ⟨hd, ho, hs, he, -⟩ := hi.busy_flags hb
    refine ⟨?_, by rw [memRead_err, he]; rfl, resultsHidden_of_gates ho hs⟩
    rw [memRead_status, State.statusByte, hb, hd, ho, hs]
    decide

/-- Settles O7: each element is read off `State.reset`, and both gates are closed. -/
theorem resetLeavesEveryElementZero : Obligations.ResetLeavesEveryElementZero := by
  unfold Obligations.ResetLeavesEveryElementZero
  have hW : ∀ (i : Fin 60) (b : Fin 4), State.reset.W[i][b] = 0x00 := fun i b => by
    fin_cases b <;> simp [State.reset, zeroWord]
  exact ⟨by simp [State.reset], rfl, by simp [State.reset], rfl, by simp [State.reset], by simp [State.reset], hW,
    rfl, rfl, rfl, rfl, rfl, rfl, rfl, rfl, rfl, rfl, rfl, rfl, resultsHidden_of_gates rfl rfl⟩

end Sys2Proof.Machine

/-! ## O12, O13, O16: the host's writes, and who writes each register (rules R51, R53, R54, R59, R61, R199) -/

namespace Sys2Proof.Machine

/-! ### What a write does in each range of addresses (rule R54) -/

/-- An address within a range of the map is the range's base and an index. -/
theorem addr_in_range (a : Addr) (base len : Nat) (hlo : base ≤ a.toNat) (hhi : a.toNat < base + len) :
    ∃ i : Fin len, a = BitVec.ofNat 9 (base + i.val) :=
  ⟨⟨a.toNat - base, by omega⟩, by simp [Nat.add_sub_cancel' hlo]⟩

section
variable (v : Byte) (s : State) (hb : s.BUSY = false)
include hb

theorem memWrite_klen : memWrite 0x003 v s = { s with KLEN := v } := by simp [memWrite, hb]

theorem memWrite_blen : memWrite 0x004 v s = { s with BLEN := v } := by simp [memWrite, hb]

theorem memWrite_din (i : Fin 16) :
    memWrite (BitVec.ofNat 9 (0x010 + i.val)) v s = { s with DIN := s.DIN.set i v } := by
  have ha : (BitVec.ofNat 9 (0x010 + i.val)).toNat = 0x010 + i.val := addr_toNat _ (by omega)
  simp (disch := omega) only [memWrite, hb, ha, Bool.false_eq_true, if_false, if_neg, dif_pos, Nat.add_sub_cancel_left]

theorem memWrite_keybuf (i : Fin 32) :
    memWrite (BitVec.ofNat 9 (0x040 + i.val)) v s = { s with KEYBUF := s.KEYBUF.set i v } := by
  have ha : (BitVec.ofNat 9 (0x040 + i.val)).toNat = 0x040 + i.val := addr_toNat _ (by omega)
  simp (disch := omega) only [memWrite, hb, ha, Bool.false_eq_true, if_false, if_neg, dif_neg, dif_pos,
    Nat.add_sub_cancel_left]

end

/-- Read-only and reserved locations ignore writes (rules R51, R54, R59). -/
theorem memWrite_unwritable (a : Addr) (v : Byte) (s : State) (h0 : a ≠ 0x000) (h3 : a ≠ 0x003) (h4 : a ≠ 0x004)
    (hd : ¬(0x010 ≤ a.toNat ∧ a.toNat ≤ 0x01F)) (hk : ¬(0x040 ≤ a.toNat ∧ a.toNat ≤ 0x05F)) :
    memWrite a v s = s := by
  rcases memWrite_cases a v s with h | ⟨-, ha, -⟩ | ⟨-, ha, -⟩ | ⟨-, ha, -⟩ | ⟨-, i, ha, -⟩ | ⟨-, i, ha, -⟩
  · exact h
  · exact absurd ha h0
  · exact absurd ha h3
  · exact absurd ha h4
  · exact absurd ⟨by omega, by omega⟩ hd
  · exact absurd ⟨by omega, by omega⟩ hk

/-- The host's write turn is `MemWrite` on the state without that turn (rules R15, R54). -/
theorem step_hostWrite (s : State) (a : Addr) (v : Byte) (rest : List Turn) (h : s.turns = .hostWrite a v :: rest) :
    step s = .next (memWrite a v { s with turns := rest }) := by
  rw [step_next_turn s _ rest h]
  exact hostWriteTurn_eq a v _

/-- Settles O12: one lemma for each writable location, and one for all others. -/
theorem hostWriteStoresOneByte : Obligations.HostWriteStoresOneByte := by
  unfold Obligations.HostWriteStoresOneByte
  intro s a v hb h0
  refine ⟨?klen, ?blen, ?din, ?keybuf, ?unwritable, fun rest ht => step_hostWrite s a v rest ht⟩
  case klen => rintro rfl; exact memWrite_klen v s hb
  case blen => rintro rfl; exact memWrite_blen v s hb
  case din => rintro i rfl; exact memWrite_din v s hb i
  case keybuf => rintro i rfl; exact memWrite_keybuf v s hb i
  case unwritable =>
    rintro ⟨h3, h4, hd, hk⟩
    exact memWrite_unwritable a v s h0 h3 h4 hd hk

/-! ### Which reads see each of the host's registers (rule R53) -/

section
variable (s : State) (v : Byte) (b : Addr)

/-- `KLEN` is seen at its own address only. -/
theorem memRead_frame_klen (h : b ≠ 0x003) : memRead b { s with KLEN := v } = memRead b s := by
  have hn : b.toNat ≠ 0x003 := fun hb => h (BitVec.eq_of_toNat_eq hb)
  simp only [memRead, if_neg hn]
  rfl

/-- `BLEN` is seen at its own address only. -/
theorem memRead_frame_blen (h : b ≠ 0x004) : memRead b { s with BLEN := v } = memRead b s := by
  have hn : b.toNat ≠ 0x004 := fun hb => h (BitVec.eq_of_toNat_eq hb)
  simp only [memRead, if_neg hn]
  rfl

/-- A byte of `DIN` is seen at its own address only. -/
theorem memRead_frame_din (i : Fin 16) (h : b ≠ BitVec.ofNat 9 (0x010 + i.val)) :
    memRead b { s with DIN := s.DIN.set i v } = memRead b s := by
  by_cases hr : 0x010 ≤ b.toNat ∧ b.toNat ≤ 0x01F
  · obtain ⟨j, rfl⟩ := addr_in_range b 0x010 16 hr.1 (by omega)
    have hij : i.val ≠ j.val := fun hij => h (by rw [hij])
    rw [memRead_din, memRead_din]
    exact Vector.getElem_set_ne i.isLt j.isLt hij
  · simp only [memRead, dif_neg hr]
    rfl

/-- A byte of `KEYBUF` is seen at its own address only. -/
theorem memRead_frame_keybuf (i : Fin 32) (h : b ≠ BitVec.ofNat 9 (0x040 + i.val)) :
    memRead b { s with KEYBUF := s.KEYBUF.set i v } = memRead b s := by
  by_cases hr : 0x040 ≤ b.toNat ∧ b.toNat ≤ 0x05F
  · obtain ⟨j, rfl⟩ := addr_in_range b 0x040 32 hr.1 (by omega)
    have hij : i.val ≠ j.val := fun hij => h (by rw [hij])
    rw [memRead_keybuf, memRead_keybuf]
    exact Vector.getElem_set_ne i.isLt j.isLt hij
  · simp only [memRead, dif_neg hr]
    rfl

end

/-- Settles O13: at each writable location the write sets one byte, which only the read of that location sees. -/
theorem writtenByteIsReadBackAlone : Obligations.WrittenByteIsReadBackAlone := by
  unfold Obligations.WrittenByteIsReadBackAlone
  rintro s a b v hb (rfl | rfl | ⟨hlo, hhi⟩ | ⟨hlo, hhi⟩)
  · rw [memWrite_klen v s hb]
    exact ⟨memRead_klen _, memRead_frame_klen s v b⟩
  · rw [memWrite_blen v s hb]
    exact ⟨memRead_blen _, memRead_frame_blen s v b⟩
  · obtain ⟨i, rfl⟩ := addr_in_range a 0x010 16 hlo (by omega)
    rw [memWrite_din v s hb i, memRead_din]
    exact ⟨Vector.getElem_set_self i.isLt, memRead_frame_din s v b i⟩
  · obtain ⟨i, rfl⟩ := addr_in_range a 0x040 32 hlo (by omega)
    rw [memWrite_keybuf v s hb i, memRead_keybuf]
    exact ⟨Vector.getElem_set_self i.isLt, memRead_frame_keybuf s v b i⟩

/-! ### One writer for each register (rule R61) -/

/-- A write other than to `CMD` leaves the control registers alone: its writes are data and lengths (rules R54, R199). -/
theorem memWrite_control_registers (a : Addr) (v : Byte) (s : State) (h0 : a ≠ 0x000) :
    (memWrite a v s).NK = s.NK ∧ (memWrite a v s).NR = s.NR ∧ (memWrite a v s).statusByte = s.statusByte ∧
      (memWrite a v s).ERR = s.ERR ∧ (memWrite a v s).PH = s.PH ∧ (memWrite a v s).CMDR = s.CMDR := by
  rcases memWrite_cases a v s with h | ⟨-, ha, -⟩ | ⟨-, -, h⟩ | ⟨-, -, h⟩ | ⟨-, _, -, h⟩ | ⟨-, _, -, h⟩
  case inr.inl => exact absurd ha h0
  all_goals
    rw [h]
    exact ⟨rfl, rfl, rfl, rfl, rfl, rfl⟩

/-- Only a host write and a reset change the host's registers (rules R21 to R24, R61, R190). -/
theorem step_keeps_host_registers {s t : State} (h : step s = .next t) (hreset : ∀ rest, s.turns ≠ .hostReset :: rest)
    (hwrite : ∀ a v rest, s.turns ≠ .hostWrite a v :: rest) :
    t.KEYBUF = s.KEYBUF ∧ t.KLEN = s.KLEN ∧ t.DIN = s.DIN ∧ t.BLEN = s.BLEN := by
  rcases step_next_cases s t h with ⟨a, v, rest, ht, -⟩ | ⟨a, rest, -, rfl⟩ | ⟨rest, ht, -⟩ |
    ⟨rest, ts, -, rfl, -⟩ | ⟨rest, -, ⟨-, hc⟩ | ⟨-, rfl⟩⟩ | ⟨w, b, x, rest, i, -, -, hf, he⟩
  case inl => exact absurd ht (hwrite a v rest)
  case inr.inr.inl => exact absurd ht (hreset rest)
  case inr.inr.inr.inr.inl.inl => exact coreStep_inputs (s := { s with turns := rest }) hc
  case inr.inr.inr.inr.inr =>
    rw [exec_unit_frame hf he]
    exact ⟨rfl, rfl, rfl, rfl⟩
  all_goals exact ⟨rfl, rfl, rfl, rfl⟩

/-- A turn of the function unit writes the unit's lines only (rule R73; assumption 2). -/
theorem unitTurn_frame {w : OpWord} {b : Byte} {x : Word} {s t : State} (h : unitTurn w b x s = .next t) :
    t = { s with unitByteIn := b, unitWordIn := x, unitOut := t.unitOut } := by
  unfold unitTurn at h
  split at h
  · split at h
    · rename_i hf
      exact exec_unit_frame hf h
    · cases h
  · cases h

/-- Settles O16: a step is a host write, a unit turn or neither, and each writes its own registers only. -/
theorem everyRegisterHasOneWriter : Obligations.EveryRegisterHasOneWriter := by
  unfold Obligations.EveryRegisterHasOneWriter
  intro s t h
  refine ⟨step_keeps_host_registers h, ?hostWrite, ?unit⟩
  case hostWrite =>
    intro a v rest ht
    rw [step_hostWrite s a v rest ht] at h
    cases h
    obtain ⟨hdout, hs, hw, hki, hrnd⟩ := memWrite_core_registers a v { s with turns := rest }
    exact ⟨hdout, hs, hw, hki, hrnd, memWrite_control_registers a v { s with turns := rest }⟩
  case unit =>
    intro w b x rest ht
    rw [step_next_turn s _ rest ht] at h
    exact unitTurn_frame (s := { s with turns := rest }) h

end Sys2Proof.Machine

/-! ## O1, O2, O3, O4: the decoder and the encoder (rules R70 to R80) -/

namespace Sys2Proof

/-! ### The fields of a word (rule R70) -/

@[simp] theorem opField_append (op arg : Byte) : opField (op ++ arg) = op := by
  rw [opField, BitVec.extractLsb'_append_eq_left]

@[simp] theorem argField_append (op arg : Byte) : argField (op ++ arg) = arg := by
  rw [argField, BitVec.extractLsb'_append_eq_right]

theorem opField_append_argField (w : OpWord) : opField w ++ argField w = w :=
  BitVec.extractLsb'_append_extractLsb'_eq_extractLsb' (by decide) |>.trans (by simp)

@[simp] theorem opField_encode (i : Instr) : opField (encode i) = i.opByte := opField_append _ _

@[simp] theorem argField_encode (i : Instr) : argField (encode i) = i.argByte := argField_append _ _

/-! ### The operations without immediate and the two with one (rule R74) -/

/-- The operations without immediate, in the order of the opcode table. -/
def fixedInstrs : List Instr :=
  [.enc, .dec, .kexp, .kexpi, .chk, .kload, .kstep, .kinvr, .ldst, .stst, .ark, .subb, .shrow, .mixc, .isubb, .ishrow,
   .imixc, .xtime, .sbox, .isbox, .rotw, .subw]

theorem instr_cases (i : Instr) : i ∈ fixedInstrs ∨ (∃ k, i = .gfmul k) ∨ ∃ j, i = .rcon j := by
  cases i
  case gfmul k => exact .inr (.inl ⟨k, rfl⟩)
  case rcon j => exact .inr (.inr ⟨j, rfl⟩)
  all_goals exact .inl (by decide)

theorem fixedInstrs_spec : ∀ i ∈ fixedInstrs, i.wellFormed = true ∧ i.argByte = 0x00 := by decide

/-! ### The rows of the opcode table (rule R76) -/

/-- The row of an operation whose word carries the immediate. -/
def immediateRow (op : Byte) (build : Byte → Instr) : OpRow := ⟨0xFF00, op ++ 0x00#8, build⟩

/-- The table is made of the rows of `RCON` and `GFMUL` and of the fixed words. -/
theorem mem_opcodeTable_iff (r : OpRow) :
    r ∈ opcodeTable ↔ r = immediateRow 0x72 .rcon ∨ r = immediateRow 0x61 .gfmul ∨
      ∃ i ∈ fixedInstrs, r = .fixed (encode i) i := by
  have htable : opcodeTable = ((fixedInstrs.map fun i => OpRow.fixed (encode i) i).insertIdx 18
      (immediateRow 0x61 .gfmul)).insertIdx 21 (immediateRow 0x72 .rcon) := rfl
  rw [htable, List.mem_insertIdx (by decide), List.mem_insertIdx (by decide), List.mem_map]
  simp only [eq_comm (a := r)]

theorem fixed_hits_iff (v w : OpWord) (i : Instr) : (OpRow.fixed v i).hits w = true ↔ w = v := by
  have hmask : w &&& 0xFFFF#16 = w := BitVec.and_allOnes
  simp [OpRow.hits, OpRow.fixed, hmask]

theorem immediateRow_hits_iff (op : Byte) (build : Byte → Instr) (w : OpWord) :
    (immediateRow op build).hits w = true ↔ opField w = op := by
  have hmask : w &&& 0xFF00#16 = opField w ++ 0x00#8 := by
    calc w &&& 0xFF00#16 = (opField w ++ argField w) &&& (BitVec.allOnes 8 ++ 0x00#8) := by
          rw [opField_append_argField]; rfl
      _ = opField w ++ 0x00#8 := by rw [BitVec.and_append, BitVec.and_allOnes, BitVec.and_zero]
  rw [OpRow.hits, beq_iff_eq]
  change w &&& 0xFF00#16 = op ++ 0x00#8 ↔ _
  rw [hmask]
  constructor
  · intro h
    simpa using congrArg opField h
  · rintro rfl
    rfl

/-- A row that matches a word has the word's `op` byte in its pattern. -/
theorem opField_of_hits {r : OpRow} {w : OpWord} (hr : r ∈ opcodeTable) (h : r.hits w = true) :
    opField w = opField r.pattern := by
  rcases (mem_opcodeTable_iff r).1 hr with rfl | rfl | ⟨i, -, rfl⟩
  · rw [(immediateRow_hits_iff _ _ _).1 h, immediateRow, opField_append]
  · rw [(immediateRow_hits_iff _ _ _).1 h, immediateRow, opField_append]
  · rw [(fixed_hits_iff _ _ _).1 h, OpRow.fixed]

theorem rowOf_some {w : OpWord} {r : OpRow} (h : rowOf w = some r) : r ∈ opcodeTable ∧ r.hits w = true := by
  unfold rowOf at h
  exact ⟨List.mem_of_find?_eq_some h, by simpa using List.find?_some h⟩

/-- No two rows share an `op` byte, so at most one row matches a word. -/
theorem rowOf_eq_some_iff (w : OpWord) (r : OpRow) : rowOf w = some r ↔ r ∈ opcodeTable ∧ r.hits w = true := by
  refine ⟨rowOf_some, fun ⟨hr, hw⟩ => ?_⟩
  have hnodup : (opcodeTable.map fun r => opField r.pattern).Nodup := by decide
  have hsome : (rowOf w).isSome = true := by
    unfold rowOf
    exact List.find?_isSome.2 ⟨r, hr, by simpa using hw⟩
  obtain ⟨q, hq⟩ := Option.isSome_iff_exists.1 hsome
  obtain ⟨hqmem, hqw⟩ := rowOf_some hq
  have hop : opField q.pattern = opField r.pattern := (opField_of_hits hqmem hqw).symm.trans (opField_of_hits hr hw)
  rw [hq, List.inj_on_of_nodup_map hnodup hqmem hr hop]

/-- A row that matches a word builds the operation whose word it is. -/
theorem encode_build_of_hits {r : OpRow} {w : OpWord} (hr : r ∈ opcodeTable) (h : r.hits w = true) :
    encode (r.build (argField w)) = w := by
  rcases (mem_opcodeTable_iff r).1 hr with rfl | rfl | ⟨i, -, rfl⟩
  · calc encode (.rcon (argField w)) = opField w ++ argField w := by rw [(immediateRow_hits_iff _ _ _).1 h]; rfl
      _ = w := opField_append_argField w
  · calc encode (.gfmul (argField w)) = opField w ++ argField w := by rw [(immediateRow_hits_iff _ _ _).1 h]; rfl
      _ = w := opField_append_argField w
  · exact ((fixed_hits_iff _ _ _).1 h).symm

/-- Every operation has a row that matches its word and builds it back. -/
theorem exists_row (i : Instr) : ∃ r ∈ opcodeTable, r.hits (encode i) = true ∧ r.build i.argByte = i := by
  rcases instr_cases i with hi | ⟨k, rfl⟩ | ⟨j, rfl⟩
  · exact ⟨.fixed (encode i) i, (mem_opcodeTable_iff _).2 (.inr (.inr ⟨i, hi, rfl⟩)), (fixed_hits_iff _ _ _).2 rfl, rfl⟩
  · exact ⟨_, (mem_opcodeTable_iff _).2 (.inr (.inl rfl)), (immediateRow_hits_iff _ _ _).2 (opField_encode _), rfl⟩
  · exact ⟨_, (mem_opcodeTable_iff _).2 (.inl rfl), (immediateRow_hits_iff _ _ _).2 (opField_encode _), rfl⟩

/-! ### The decoder by the encoder -/

theorem decodeWord_eq_ok_iff_row (w : OpWord) (i : Instr) :
    decodeWord w = .ok i ↔ ∃ r, rowOf w = some r ∧ r.build (argField w) = i ∧ i.wellFormed = true := by
  unfold decodeWord
  cases rowOf w with
  | none => simp
  | some r =>
    cases hwf : (r.build (argField w)).wellFormed
    · simp only [hwf, Option.some.injEq, exists_eq_left']
      constructor
      · rintro ⟨⟩
      · rintro ⟨rfl, h⟩
        rw [hwf] at h
        cases h
    · simp only [hwf, Option.some.injEq, exists_eq_left', if_true, Except.ok.injEq]
      exact ⟨fun h => ⟨h, h ▸ hwf⟩, And.left⟩

/-- The decoder answers an operation exactly on the operation's own word, and only where it is well formed. -/
theorem decodeWord_eq_ok_iff (w : OpWord) (i : Instr) :
    decodeWord w = .ok i ↔ i.wellFormed = true ∧ encode i = w := by
  rw [decodeWord_eq_ok_iff_row]
  constructor
  · rintro ⟨r, hr, rfl, hwf⟩
    obtain ⟨hmem, hhits⟩ := (rowOf_eq_some_iff w r).1 hr
    exact ⟨hwf, encode_build_of_hits hmem hhits⟩
  · rintro ⟨hwf, rfl⟩
    obtain ⟨r, hmem, hhits, hbuild⟩ := exists_row i
    exact ⟨r, (rowOf_eq_some_iff _ r).2 ⟨hmem, hhits⟩, by rw [argField_encode, hbuild], hwf⟩

/-- Settles O1: the word of an operation is matched by its row alone, which builds it back. -/
theorem decodeInvertsEncode : Obligations.DecodeInvertsEncode := by
  unfold Obligations.DecodeInvertsEncode
  intro i hwf
  exact (decodeWord_eq_ok_iff _ i).2 ⟨hwf, rfl⟩

/-- Settles O2: a row matches only words that its operations encode to. -/
theorem decodedWordIsItsEncoding : Obligations.DecodedWordIsItsEncoding := by
  unfold Obligations.DecodedWordIsItsEncoding
  intro w i h
  exact (decodeWord_eq_ok_iff w i).1 h

/-! ### Which words and command bytes decode (rules R71, R76, R78) -/

theorem wellFormed_of_format_ne_unit {i : Instr} (h : i.format ≠ .unit) : i.wellFormed = true := by
  rcases instr_cases i with hi | ⟨k, rfl⟩ | ⟨j, rfl⟩
  · exact (fixedInstrs_spec i hi).1
  · rfl
  · exact absurd rfl h

/-- A byte names the command whose operation word is the byte followed by 0x00. -/
theorem decodeCommand_eq_some_iff (v : Byte) (i : Instr) :
    decodeCommand v = some i ↔ i.format = .command ∧ encode i = v ++ 0x00#8 := by
  have hcmd : decodeCommand v = some i ↔ decodeWord (v ++ 0x00#8) = .ok i ∧ i.format = .command := by
    unfold decodeCommand
    cases decodeWord (v ++ 0x00#8) with
    | error e => simp
    | ok j =>
      simp only [Option.ite_none_right_eq_some, Option.some.injEq, Except.ok.injEq]
      exact ⟨fun ⟨hf, he⟩ => ⟨he, he ▸ hf⟩, fun ⟨he, hf⟩ => ⟨he ▸ hf, he⟩⟩
  rw [hcmd, decodeWord_eq_ok_iff]
  constructor
  · rintro ⟨⟨-, he⟩, hf⟩
    exact ⟨hf, he⟩
  · rintro ⟨hf, he⟩
    exact ⟨⟨wellFormed_of_format_ne_unit (by rw [hf]; decide), he⟩, hf⟩

theorem append_zero_toNat (v : Byte) : (v ++ 0x00#8 : OpWord).toNat = v.toNat * 256 :=
  (BitVec.toNat_append v 0x00#8).trans (by simp [Nat.shiftLeft_eq])

theorem wellFormed_rcon_iff (j : Byte) : (Instr.rcon j).wellFormed = true ↔ j.toNat ≤ 13 := by
  simp [Instr.wellFormed, Nat.lt_succ_iff]

/-- Settles O3: a command byte is its operation's `op` byte, and the words that decode are those of the operations
without immediate, of `GFMUL`, and of `RCON` with an index in the table. -/
theorem wordsDecodeExactlyByTheOpcodeMap : Obligations.WordsDecodeExactlyByTheOpcodeMap := by
  unfold Obligations.WordsDecodeExactlyByTheOpcodeMap
  refine ⟨fun v i => ?commands, fun w => ?words⟩
  case commands =>
    rw [decodeCommand_eq_some_iff, ← append_zero_toNat, BitVec.toNat_inj]
  case words =>
    have hfixed : ([0x0100, 0x0200, 0x0300, 0x0400, 0x1000, 0x2000, 0x2100, 0x2200, 0x3000, 0x3100, 0x4000, 0x4100,
        0x4200, 0x4300, 0x5100, 0x5200, 0x5300, 0x6000, 0x7000, 0x7100, 0x7300, 0x7400] : List OpWord) =
        fixedInstrs.map encode := rfl
    simp only [hfixed, List.mem_map, decodeWord_eq_ok_iff]
    constructor
    · rintro ⟨i, hwf, rfl⟩
      rcases instr_cases i with hi | ⟨k, rfl⟩ | ⟨j, rfl⟩
      · exact .inl ⟨i, hi, rfl⟩
      · exact .inr (.inl (opField_encode _))
      · rw [wellFormed_rcon_iff] at hwf
        exact .inr (.inr ⟨opField_encode _, by rwa [argField_encode]⟩)
    · rintro (⟨i, hi, rfl⟩ | h | ⟨h, hj⟩)
      · exact ⟨i, (fixedInstrs_spec i hi).1, rfl⟩
      · refine ⟨.gfmul (argField w), rfl, ?_⟩
        exact (congrArg (· ++ argField w) h.symm).trans (opField_append_argField w)
      · refine ⟨.rcon (argField w), (wellFormed_rcon_iff _).2 hj, ?_⟩
        exact (congrArg (· ++ argField w) h.symm).trans (opField_append_argField w)

/-- The bytes of an operation's word decode to it, and what follows them is handed back (rule R70; assumption 4). -/
theorem decodeBytes_encodeBytes (i : Instr) (rest : List Byte) (h : i.wellFormed = true) :
    decodeBytes (encodeBytes i ++ rest) = .ok (i, rest) := by
  have hw : decodeWord (i.opByte ++ i.argByte) = .ok i := decodeInvertsEncode i h
  simp only [encodeBytes, List.cons_append, List.nil_append, decodeBytes, hw]

/-- Settles O4: each word written out is the word of the operation named, which is well formed. -/
theorem wordsOfEveryUnitDecode : Obligations.WordsOfEveryUnitDecode := by
  unfold Obligations.WordsOfEveryUnitDecode
  exact ⟨decodeInvertsEncode .dec rfl, decodeInvertsEncode .chk rfl, decodeInvertsEncode .kinvr rfl,
    decodeInvertsEncode .stst rfl, decodeInvertsEncode .shrow rfl, decodeInvertsEncode .imixc rfl,
    decodeInvertsEncode (.gfmul 13) rfl, decodeInvertsEncode (.rcon 9) rfl, decodeBytes_encodeBytes .rotw [0x74] rfl⟩

end Sys2Proof

/-! ## O5, O17: the words the sequencer issues and the acceptance of a command (rules R71, R77, R154) -/

namespace Sys2Proof.Machine

/-- Settles O5: in each phase `issue` answers the word of the phase's operation, whatever the command or for the two
commands that reach the phase. -/
theorem sequencerIssuesByPhaseAndCommand : Obligations.SequencerIssuesByPhaseAndCommand := by
  unfold Obligations.SequencerIssuesByPhaseAndCommand
  exact ⟨fun c => ⟨rfl, rfl, rfl, rfl, rfl, rfl, rfl, rfl⟩, rfl, rfl, rfl, rfl, rfl, rfl⟩

theorem commandLegal_opByte {i : Instr} (h : i.format = .command) : commandLegal i.opByte = true := by
  cases i
  case enc | dec | kexp | kexpi => rfl
  all_goals cases h

/-- A command executed while `BUSY = 0` is accepted: the results are cleared and the sequence starts (rule R154). -/
theorem exec_command_idle {i : Instr} {s : State} (hf : i.format = .command) (hb : s.BUSY = false) :
    exec i s = .next { clearResults s with CMDR := i.opByte, BUSY := true, PH := .check } := by
  rw [exec_command i s hf, writeCmd_idle _ _ hb, accept_of_legal _ _ (commandLegal_opByte hf)]

/-- Settles O17: acceptance clears the results, latches the command's `op` byte and starts the sequence. -/
theorem commandAcceptanceStartsTheSequence : Obligations.CommandAcceptanceStartsTheSequence := by
  unfold Obligations.CommandAcceptanceStartsTheSequence
  intro s hb i hi
  have hf : ∀ i ∈ [Instr.enc, .dec, .kexp, .kexpi], i.format = .command := by decide
  have hop : (encode i).extractLsb' 8 8 = i.opByte := opField_encode i
  rw [exec_command_idle (hf i hi) hb, hop]
  rfl

end Sys2Proof.Machine

/-! ## O50: the operations a command issues (rules R77, R82, R159) -/

namespace Sys2Proof.Machine

/-! ### The expansion, cut where the phases of a run cut it (rule R82) -/

/-- The operation of phase `SUB`, for `ENC` and for `DEC`. -/
def subOp (enc : Bool) : Instr := if enc then .subb else .isubb

/-- The operation of phase `SHIFT`. -/
def shiftOp (enc : Bool) : Instr := if enc then .shrow else .ishrow

/-- The operation of phase `MIX`. -/
def mixOp (enc : Bool) : Instr := if enc then .mixc else .imixc

/-- The rounds of a cipher from phase `SUB` on, `n` of them before the last one, then `STST`. -/
def roundsOps (enc : Bool) : Nat → List Instr
  | 0 => [subOp enc, shiftOp enc, .ark, .stst]
  | n + 1 => subOp enc :: shiftOp enc :: mixOp enc :: .ark :: roundsOps enc n

/-- A cipher from phase `LOAD` on. -/
def cipherOps (enc : Bool) (nr : Nat) : List Instr := .ldst :: .ark :: roundsOps enc (nr - 1)

/-- What follows the key schedule of command `c`. -/
def opsAfterSchedule (c : Byte) (nr : Nat) : List Instr :=
  if c = 0x01 then cipherOps true nr
  else if c = 0x02 then invertOps nr ++ cipherOps false nr
  else if c = 0x04 then invertOps nr
  else []

theorem roundsOps_eq (enc : Bool) (n : Nat) :
    roundsOps enc n = (List.replicate n [subOp enc, shiftOp enc, mixOp enc, .ark]).flatten ++
      [subOp enc, shiftOp enc, .ark, .stst] := by
  induction n with
  | zero => rfl
  | succ n ih => rw [roundsOps, ih, List.replicate_succ]; rfl

theorem forwardOps_eq (nr : Nat) : forwardOps nr = cipherOps true nr := by
  rw [cipherOps, roundsOps_eq]; rfl

theorem inverseOps_eq (nr : Nat) : inverseOps nr = cipherOps false nr := by
  rw [cipherOps, roundsOps_eq]; rfl

/-- The expansion of a command is the check, the key schedule and what the command adds to it. -/
theorem commandOps_eq {i : Instr} (hf : i.format = .command) (nk nr : Nat) :
    commandOps i nk nr =
      .chk :: .kload :: (List.replicate (scheduleWords nr - nk) .kstep ++ opsAfterSchedule i.opByte nr) := by
  cases i
  case enc => rw [commandOps, forwardOps_eq]; rfl
  case dec => rw [commandOps, inverseOps_eq, List.append_assoc]; rfl
  case kexp => rw [commandOps, scheduleOps]; simp [opsAfterSchedule, Instr.opByte]
  case kexpi => rfl
  all_goals cases hf

theorem length_roundsOps (enc : Bool) (n : Nat) : (roundsOps enc n).length = 4 * n + 4 := by
  induction n with
  | zero => rfl
  | succ n ih => simp [roundsOps, ih]; omega

/-- A command issues one operation a step (rules R82, R164). -/
theorem length_commandOps {i : Instr} (hf : i.format = .command) (nk nr : Nat) :
    (commandOps i nk nr).length = commandSteps i nk nr := by
  rw [commandOps_eq hf]
  cases i
  case enc | dec =>
    simp [commandSteps, opsAfterSchedule, Instr.opByte, cipherOps, invertOps, scheduleWords, length_roundsOps]
    omega
  case kexp | kexpi =>
    simp [commandSteps, opsAfterSchedule, Instr.opByte, invertOps, scheduleWords]
    omega
  all_goals cases hf

/-! ### The operations still to be issued in a state -/

/-- The rounds still to run before the last one, the round in progress among them (rule R35). -/
def State.roundsLeft (s : State) : Nat := if s.isEnc then s.NR.toNat - s.RND.toNat else s.RND.toNat

/-- What a cipher issues after the `ARK` that ends the round in progress. -/
def State.opsAfterRound (s : State) : List Instr :=
  if s.isFinal then [.stst] else roundsOps s.isEnc (s.roundsLeft - 1)

/-- What a command issues after `CHK` has passed. -/
def State.opsAfterCheck (s : State) : List Instr :=
  .kload :: (List.replicate (scheduleWords s.declaredNr - s.declaredNk) .kstep ++ opsAfterSchedule s.CMDR s.declaredNr)

/-- The operations a running command has still to issue, read from the sequencing registers. -/
def State.pendingOps (s : State) : List Instr :=
  match s.PH with
  | .idle => []
  | .check => .chk :: if checkError s = none then s.opsAfterCheck else []
  | .kload => s.opsAfterCheck
  | .kexp =>
    List.replicate (scheduleWords s.NR.toNat - s.KI.toNat) .kstep ++ opsAfterSchedule s.CMDR s.NR.toNat
  | .kinv =>
    List.replicate (s.NR.toNat - s.RND.toNat) .kinvr ++
      if s.CMDR = 0x02 then cipherOps false s.NR.toNat else []
  | .load => cipherOps s.isEnc s.NR.toNat
  | .ark0 => .ark :: roundsOps s.isEnc (s.NR.toNat - 1)
  | .sub => roundsOps s.isEnc s.roundsLeft
  | .shift => shiftOp s.isEnc :: ((if s.isFinal then [] else [mixOp s.isEnc]) ++ .ark :: s.opsAfterRound)
  | .mix => mixOp s.isEnc :: .ark :: s.opsAfterRound
  | .ark => .ark :: s.opsAfterRound
  | .store => [.stst]

theorem roundsLeft_enc {s : State} (h : s.isEnc = true) : s.roundsLeft = s.NR.toNat - s.RND.toNat := by
  simp [State.roundsLeft, h]

theorem roundsLeft_dec {s : State} (h : s.isEnc = false) : s.roundsLeft = s.RND.toNat := by
  simp [State.roundsLeft, h]

theorem isFinal_iff_roundsLeft {s : State} (hr : s.roundInRange) : s.isFinal = true ↔ s.roundsLeft = 0 := by
  cases henc : s.isEnc
  · rw [roundsLeft_dec henc]
    simp [State.isFinal, henc, ← BitVec.toNat_inj]
  · obtain ⟨-, hle⟩ := (roundInRange_enc henc).1 hr
    rw [roundsLeft_enc henc]
    simp only [State.isFinal, henc, if_true, beq_iff_eq, ← BitVec.toNat_inj]
    omega

/-- `ARK0` enters the first of the rounds (rules R35, R159). -/
theorem roundsLeft_first {s t : State} (hl : s.loaded) (hnr : t.NR = s.NR) (hc : t.CMDR = s.CMDR)
    (ht : t.RND = if s.isEnc then 1 else s.NR - 1) : t.roundsLeft = s.NR.toNat - 1 := by
  obtain ⟨-, h10, -⟩ := loaded_bounds hl
  have hte : t.isEnc = s.isEnc := by rw [State.isEnc, hc, State.isEnc]
  cases henc : s.isEnc <;> rw [henc] at hte <;> simp only [henc] at ht
  · rw [roundsLeft_dec hte, ht]
    simp only [Bool.false_eq_true, if_false]
    bv_omega
  · rw [roundsLeft_enc hte, ht, hnr]
    rfl

/-- After a round that is not the last one, one round fewer is left (rules R35, R159). -/
theorem roundsLeft_next {s t : State} (hl : s.loaded) (hr : s.roundInRange) (hf : s.isFinal = false)
    (hnr : t.NR = s.NR) (hc : t.CMDR = s.CMDR) (ht : t.RND = if s.isEnc then s.RND + 1 else s.RND - 1) :
    t.roundsLeft = s.roundsLeft - 1 := by
  have h14 := (loaded_bounds hl).1
  have hne : s.roundsLeft ≠ 0 := fun h => by rw [(isFinal_iff_roundsLeft hr).2 h] at hf; cases hf
  have hte : t.isEnc = s.isEnc := by rw [State.isEnc, hc, State.isEnc]
  cases henc : s.isEnc <;> rw [henc] at hte <;> simp only [henc] at ht
  · rw [roundsLeft_dec henc] at hne ⊢
    rw [roundsLeft_dec hte, ht]
    simp only [Bool.false_eq_true, if_false]
    bv_omega
  · rw [roundsLeft_enc henc] at hne ⊢
    rw [roundsLeft_enc hte, ht, hnr]
    simp only [if_true]
    bv_omega

/-- The rounds left, taken apart as the phases run them. -/
theorem roundsOps_roundsLeft {s : State} (hr : s.roundInRange) :
    roundsOps s.isEnc s.roundsLeft = subOp s.isEnc :: shiftOp s.isEnc ::
      ((if s.isFinal then [] else [mixOp s.isEnc]) ++ .ark :: s.opsAfterRound) := by
  have hf := isFinal_iff_roundsLeft hr
  unfold State.opsAfterRound
  cases hn : s.roundsLeft with
  | zero => rw [if_pos (hf.2 hn), if_pos (hf.2 hn)]; rfl
  | succ n =>
    have hnf : ¬s.isFinal = true := fun h => by rw [hf.1 h] at hn; cases hn
    rw [if_neg hnf, if_neg hnf]; rfl

/-! ### One core step issues the first operation still to be issued -/

/-- A step issues the first of the operations still to be issued and leaves the others. -/
def issuesFirst (s t : State) : Prop := ∃ i, issuedOp s = some i ∧ s.pendingOps = i :: t.pendingOps

/-- A busy core issues the operation whose word the sequencer issues. -/
theorem issuedOp_of_issue {s : State} {i : Instr} (hb : s.BUSY = true) (hw : issue s.PH s.CMDR = some (encode i))
    (hwf : i.wellFormed = true) : issuedOp s = some i := by
  simp [issuedOp, hb, hw, decodeInvertsEncode i hwf, Except.toOption]

theorem isEnc_of_enc {s : State} (hc : s.CMDR = 0x01) : s.isEnc = true := by simp [State.isEnc, hc]

theorem isEnc_of_dec {s : State} (hc : s.CMDR = 0x02) : s.isEnc = false := by simp [State.isEnc, hc]

/-- The words of the phases that choose between the pipelines (rule R77). -/
theorem issue_of_pipeline {s : State} (hc : commandUsesBlock s.CMDR = true) :
    issue .sub s.CMDR = some (encode (subOp s.isEnc)) ∧ issue .shift s.CMDR = some (encode (shiftOp s.isEnc)) ∧
      issue .mix s.CMDR = some (encode (mixOp s.isEnc)) := by
  rcases (commandUsesBlock_iff _).1 hc with hc | hc
  · rw [isEnc_of_enc hc, hc]; exact ⟨rfl, rfl, rfl⟩
  · rw [isEnc_of_dec hc, hc]; exact ⟨rfl, rfl, rfl⟩

theorem pipelineOps_wellFormed (enc : Bool) :
    (subOp enc).wellFormed = true ∧ (shiftOp enc).wellFormed = true ∧ (mixOp enc).wellFormed = true := by
  cases enc <;> exact ⟨rfl, rfl, rfl⟩

section
variable {s t : State} (hi : Inv s) (hb : s.BUSY = true)
include hi hb

theorem issuesFirst_check (h : s.PH = .check) (ht : coreStep s = .next t) : issuesFirst s t := by
  refine ⟨.chk, issuedOp_of_issue hb (by rw [h]; rfl) rfl, ?_⟩
  rw [coreStep_check s h (phaseReachable_of_inv s hi hb)] at ht
  simp only [State.pendingOps, h]
  cases hc : checkError s with
  | none =>
    rw [hc] at ht; cases ht
    rw [if_pos rfl]; rfl
  | some e =>
    rw [hc] at ht; cases ht
    rw [if_neg (Option.some_ne_none e)]; rfl

theorem issuesFirst_kload (h : s.PH = .kload) (ht : coreStep s = .next t) : issuesFirst s t := by
  refine ⟨.kload, issuedOp_of_issue hb (by rw [h]; rfl) rfl, ?_⟩
  have hp := hi.phase
  simp only [State.phaseInv, h] at hp
  obtain ⟨-, -, hkl, -⟩ := hp
  rw [coreStep_kload s h (phaseReachable_of_inv s hi hb) hkl] at ht
  cases ht
  have hnr : (BitVec.ofNat 4 (nkOf s.KLEN.toNat + 6)).toNat = s.declaredNr := by
    rcases (keyLengthLegal_iff _).1 hkl with hk | hk | hk <;> simp [State.declaredNr, nkOf, hk]
  have hki : (BitVec.ofNat 6 (nkOf s.KLEN.toNat)).toNat = s.declaredNk := by
    rcases (keyLengthLegal_iff _).1 hkl with hk | hk | hk <;> simp [State.declaredNk, nkOf, hk]
  simp only [State.pendingOps, h, hnr, hki, State.opsAfterCheck]

theorem issuesFirst_kexp (h : s.PH = .kexp) (ht : coreStep s = .next t) : issuesFirst s t := by
  refine ⟨.kstep, issuedOp_of_issue hb (by rw [h]; rfl) rfl, ?_⟩
  obtain ⟨-, -, hki, hsucc⟩ := kexp_bounds hi h
  have hpending : s.pendingOps = .kstep ::
      (List.replicate (scheduleWords s.NR.toNat - (s.KI + 1).toNat) .kstep ++ opsAfterSchedule s.CMDR s.NR.toNat) := by
    have hn : scheduleWords s.NR.toNat - s.KI.toNat = scheduleWords s.NR.toNat - (s.KI + 1).toNat + 1 := by omega
    simp only [State.pendingOps, h, hn, List.replicate_succ, List.cons_append]
  rw [hpending]
  congr 1
  obtain ⟨x, -, ⟨hlast, hcases⟩ | ⟨-, rfl⟩⟩ := coreStep_kexp_cases hi hb h ht
  · rw [hsucc, hlast, Nat.sub_self]
    rcases hcases with ⟨hc, rfl⟩ | ⟨hc, rfl⟩ | ⟨hc | hc, rfl⟩
    · rw [hc]; rfl
    · simp [State.pendingOps, kstepResult, opsAfterSchedule, hc, State.isEnc]
    · simp [State.pendingOps, kstepResult, opsAfterSchedule, hc, invertOps]
    · simp [State.pendingOps, kstepResult, opsAfterSchedule, hc, invertOps]
  · simp only [State.pendingOps, kstepResult, h]

theorem issuesFirst_kinv (h : s.PH = .kinv) (ht : coreStep s = .next t) : issuesFirst s t := by
  refine ⟨.kinvr, issuedOp_of_issue hb (by rw [h]; rfl) rfl, ?_⟩
  obtain ⟨-, -, -, -, h2, h14⟩ := kinv_bounds hi h
  have hpending : s.pendingOps = .kinvr :: (List.replicate (s.NR.toNat - (s.RND.toNat + 1)) .kinvr ++
      if s.CMDR = 0x02 then cipherOps false s.NR.toNat else []) := by
    have hn : s.NR.toNat - s.RND.toNat = s.NR.toNat - (s.RND.toNat + 1) + 1 := by omega
    simp only [State.pendingOps, h, hn, List.replicate_succ, List.cons_append]
  rw [hpending]
  congr 1
  obtain ⟨-, w, -, ⟨hlast, ⟨hc, rfl⟩ | ⟨hc, rfl⟩⟩ | ⟨hmore, rfl⟩⟩ := coreStep_kinv_cases hi hb h ht
  · simp [hlast, hc, State.pendingOps]
  · simp [hlast, hc, State.pendingOps, State.isEnc]
  · have hsucc : (s.RND + 1).toNat = s.RND.toNat + 1 := by bv_omega
    simp only [State.pendingOps, h, hsucc]

theorem issuesFirst_load (h : s.PH = .load) (ht : coreStep s = .next t) : issuesFirst s t := by
  refine ⟨.ldst, issuedOp_of_issue hb (by rw [h]; rfl) rfl, ?_⟩
  rw [coreStep_load s h (phaseReachable_of_inv s hi hb)] at ht
  cases ht
  simp only [State.pendingOps, h]
  rfl

theorem issuesFirst_ark0 (h : s.PH = .ark0) (ht : coreStep s = .next t) : issuesFirst s t := by
  refine ⟨.ark, issuedOp_of_issue hb (by rw [h]; rfl) rfl, ?_⟩
  rw [coreStep_ark0 s h (phaseReachable_of_inv s hi hb) (ark_round_lt hi (.inl h))] at ht
  have hp := hi.phase
  simp only [State.phaseInv, h] at hp
  obtain ⟨hl, -⟩ := hp
  have hpending : t.pendingOps = roundsOps s.isEnc t.roundsLeft := by cases ht; rfl
  have hleft : t.roundsLeft = s.NR.toNat - 1 := by cases ht; exact roundsLeft_first hl rfl rfl rfl
  rw [hpending, hleft]
  simp only [State.pendingOps, h]

theorem issuesFirst_sub (h : s.PH = .sub) (ht : coreStep s = .next t) : issuesFirst s t := by
  rw [coreStep_sub s h (phaseReachable_of_inv s hi hb)] at ht
  cases ht
  have hp := hi.phase
  simp only [State.phaseInv, h] at hp
  obtain ⟨-, -, hc, hr⟩ := hp
  obtain ⟨hw, -, -⟩ := issue_of_pipeline hc
  obtain ⟨hwf, -, -⟩ := pipelineOps_wellFormed s.isEnc
  refine ⟨subOp s.isEnc, issuedOp_of_issue hb (h ▸ hw) hwf, ?_⟩
  simp only [State.pendingOps, h, roundsOps_roundsLeft hr]
  rfl

theorem issuesFirst_shift (h : s.PH = .shift) (ht : coreStep s = .next t) : issuesFirst s t := by
  rw [coreStep_shift s h (phaseReachable_of_inv s hi hb)] at ht
  cases ht
  have hp := hi.phase
  simp only [State.phaseInv, h] at hp
  obtain ⟨-, -, hc, -⟩ := hp
  obtain ⟨-, hw, -⟩ := issue_of_pipeline hc
  obtain ⟨-, hwf, -⟩ := pipelineOps_wellFormed s.isEnc
  refine ⟨shiftOp s.isEnc, issuedOp_of_issue hb (h ▸ hw) hwf, ?_⟩
  cases hf : s.isFinal <;> simp only [State.pendingOps, h, hf] <;> rfl

theorem issuesFirst_mix (h : s.PH = .mix) (ht : coreStep s = .next t) : issuesFirst s t := by
  rw [coreStep_mix s h (phaseReachable_of_inv s hi hb)] at ht
  cases ht
  have hp := hi.phase
  simp only [State.phaseInv, h] at hp
  obtain ⟨-, -, hc, -⟩ := hp
  obtain ⟨-, -, hw⟩ := issue_of_pipeline hc
  obtain ⟨-, -, hwf⟩ := pipelineOps_wellFormed s.isEnc
  refine ⟨mixOp s.isEnc, issuedOp_of_issue hb (h ▸ hw) hwf, ?_⟩
  simp only [State.pendingOps, h]
  rfl

theorem issuesFirst_ark (h : s.PH = .ark) (ht : coreStep s = .next t) : issuesFirst s t := by
  refine ⟨.ark, issuedOp_of_issue hb (by rw [h]; rfl) rfl, ?_⟩
  rw [coreStep_ark s h (phaseReachable_of_inv s hi hb) (ark_round_lt hi (.inr h))] at ht
  have hp := hi.phase
  simp only [State.phaseInv, h] at hp
  obtain ⟨hl, -, -, hr⟩ := hp
  have hark : s.pendingOps = .ark :: s.opsAfterRound := by simp only [State.pendingOps, h]
  rw [hark]
  congr 1
  cases hf : s.isFinal <;> simp only [hf] at ht <;> rw [State.opsAfterRound, hf]
  · have hpending : t.pendingOps = roundsOps s.isEnc t.roundsLeft := by cases ht; rfl
    have hleft : t.roundsLeft = s.roundsLeft - 1 := by cases ht; exact roundsLeft_next hl hr hf rfl rfl rfl
    rw [hpending, hleft]
    rfl
  · cases ht
    rfl

theorem issuesFirst_store (h : s.PH = .store) (ht : coreStep s = .next t) : issuesFirst s t := by
  refine ⟨.stst, issuedOp_of_issue hb (by rw [h]; rfl) rfl, ?_⟩
  rw [coreStep_store s h (phaseReachable_of_inv s hi hb)] at ht
  cases ht
  simp only [State.pendingOps, h]

/-- Every core step issues the first of the operations still to be issued: one case a phase. -/
theorem coreStep_issuesFirst (ht : coreStep s = .next t) : issuesFirst s t := by
  cases h : s.PH with
  | idle => exact absurd h (hi.busy_iff_phase.1 hb)
  | check => exact issuesFirst_check hi hb h ht
  | kload => exact issuesFirst_kload hi hb h ht
  | kexp => exact issuesFirst_kexp hi hb h ht
  | kinv => exact issuesFirst_kinv hi hb h ht
  | load => exact issuesFirst_load hi hb h ht
  | ark0 => exact issuesFirst_ark0 hi hb h ht
  | sub => exact issuesFirst_sub hi hb h ht
  | shift => exact issuesFirst_shift hi hb h ht
  | mix => exact issuesFirst_mix hi hb h ht
  | ark => exact issuesFirst_ark hi hb h ht
  | store => exact issuesFirst_store hi hb h ht

/-- A busy core with the invariant always has a step (rule R203). -/
theorem coreStep_enabled : ∃ t, coreStep s = .next t := by
  have hreach := phaseReachable_of_inv s hi hb
  cases h : s.PH with
  | idle => exact absurd h (hi.busy_iff_phase.1 hb)
  | check => exact ⟨_, coreStep_check s h hreach⟩
  | kload =>
    have hp := hi.phase
    simp only [State.phaseInv, h] at hp
    obtain ⟨-, -, hkl, -⟩ := hp
    exact ⟨_, coreStep_kload s h hreach hkl⟩
  | kexp =>
    obtain ⟨-, hdef, -⟩ := kexp_bounds hi h
    obtain ⟨x, hx⟩ := nextWord_isSome hdef
    exact ⟨_, coreStep_kexp s x h hreach hx⟩
  | kinv =>
    obtain ⟨-, -, -, -, h2, h14⟩ := kinv_bounds hi h
    obtain ⟨w, -, hw⟩ := coreStep_kinv s h hreach (by omega)
    exact ⟨_, hw⟩
  | load => exact ⟨_, coreStep_load s h hreach⟩
  | ark0 => exact ⟨_, coreStep_ark0 s h hreach (ark_round_lt hi (.inl h))⟩
  | sub => exact ⟨_, coreStep_sub s h hreach⟩
  | shift => exact ⟨_, coreStep_shift s h hreach⟩
  | mix => exact ⟨_, coreStep_mix s h hreach⟩
  | ark => exact ⟨_, coreStep_ark s h hreach (ark_round_lt hi (.inr h))⟩
  | store => exact ⟨_, coreStep_store s h hreach⟩

end

/-! ### A run issues the operations in their order -/

/-- A core step consumes and adds no turn. -/
theorem coreStep_turns {s t : State} (h : coreStep s = .next t) : t.turns = s.turns := by
  obtain ⟨-, w, i, u, -, -, -, hu, rfl⟩ := coreStep_next_cases s t h
  obtain ⟨-, -, -, -, -, -, -, -, -, -, -, hturns, -⟩ := registersWrittenOnlyByTheirWriters i s u hu
  obtain ⟨b, d, o, sch, p, r, ha⟩ := advance_writes u
  rw [ha]
  exact hturns

theorem pendingOps_idle {s : State} (h : s.PH = .idle) : s.pendingOps = [] := by
  simp only [State.pendingOps, h]

/-- With no turn scheduled, `n` steps issue the first `n` of the operations still to be issued. -/
theorem issuedOps_eq_take (n : Nat) {s : State} (hi : Inv s) (ht : s.turns = []) :
    issuedOps n s = s.pendingOps.take n := by
  induction n generalizing s with
  | zero => rfl
  | succ n ih =>
    cases hb : s.BUSY with
    | false =>
      have hstep : step s = .next s := (step_no_turn s ht).trans (coreTurn_idle s hb)
      have hnone : issuedOp s = none := by simp [issuedOp, hb]
      rw [issuedOps, hstep, hnone]
      simp [ih hi ht, pendingOps_idle (hi.phase_idle hb)]
    | true =>
      obtain ⟨t, hc⟩ := coreStep_enabled hi hb
      have hstep : step s = .next t := ((step_no_turn s ht).trans (coreTurn_busy s hb)).trans hc
      obtain ⟨i, hsome, hpending⟩ := coreStep_issuesFirst hi hb hc
      rw [issuedOps, hstep, hsome, hpending]
      simp [ih (inv_coreStep hi hb hc) ((coreStep_turns hc).trans ht)]

/-! ### The operations of an accepted command -/

theorem commandUsesBlock_opByte {i : Instr} (hf : i.format = .command) :
    commandUsesBlock i.opByte = true ↔ i = .enc ∨ i = .dec := by
  cases i
  case enc | dec | kexp | kexpi => decide
  all_goals cases hf

/-- An accepted command passes `CHK` exactly when the declared lengths are legal for it (rule R116). -/
theorem checkError_accept_iff {s : State} {i : Instr} (hf : i.format = .command) :
    checkError (accept i.opByte s) = none ↔ s.inputsLegal i := by
  have hc : (accept i.opByte s).CMDR = i.opByte := by simp [commandLegal_opByte hf]
  rcases checkError_cases (accept i.opByte s) with ⟨he, hbl, hne⟩ | ⟨he, -, hkl⟩ | ⟨he, hbl, hkl⟩ <;> rw [he]
  · rw [hc, commandUsesBlock_opByte hf] at hbl
    simp only [accept_BLEN] at hne
    simpa [State.inputsLegal, hbl] using fun _ => hne
  · simp only [accept_KLEN] at hkl
    simp [State.inputsLegal, hkl]
  · rw [hc, commandUsesBlock_opByte hf] at hbl
    simp only [accept_KLEN, accept_BLEN] at hkl hbl
    simpa [State.inputsLegal, hkl] using hbl

/-- An accepted command has its whole expansion to issue, or `CHK` alone when a length is illegal (rule R82). -/
theorem pendingOps_accept {s : State} {i : Instr} (hf : i.format = .command) :
    (s.inputsLegal i → (accept i.opByte s).pendingOps = commandOps i s.declaredNk s.declaredNr) ∧
    (¬s.inputsLegal i → (accept i.opByte s).pendingOps = [.chk]) := by
  have hp : (accept i.opByte s).PH = .check := by simp [commandLegal_opByte hf]
  have hc : (accept i.opByte s).CMDR = i.opByte := by simp [commandLegal_opByte hf]
  rw [← checkError_accept_iff hf, commandOps_eq hf]
  simp only [State.pendingOps, hp]
  constructor <;> intro he
  · rw [if_pos he, State.opsAfterCheck, hc]
    simp [State.declaredNk, State.declaredNr]
  · rw [if_neg he]

/-- Settles O50: an accepted command has its expansion to issue, and the run issues it one operation a step. -/
theorem commandsIssueTheirExpansion : Obligations.CommandsIssueTheirExpansion := by
  unfold Obligations.CommandsIssueTheirExpansion
  have hrun : ∀ (s a : State) (i : Instr) (n : Nat), i.format = .command → s.ready → exec i s = .next a →
      a = accept i.opByte s ∧ issuedOps n a = a.pendingOps.take n := by
    rintro s a i n hf ⟨hb, ht⟩ he
    rw [exec_command i s hf, writeCmd_idle _ _ hb] at he
    cases he
    exact ⟨rfl, issuedOps_eq_take n (inv_accept _ s) (by simpa using ht)⟩
  constructor
  · intro s a i hf hs hl he
    obtain ⟨rfl, hops⟩ := hrun s a i _ hf hs he
    rw [hops, (pendingOps_accept hf).1 hl, ← length_commandOps hf, List.take_length]
  · intro s a i n hf hs hl he
    obtain ⟨rfl, hops⟩ := hrun s a i _ hf hs he
    rw [hops, (pendingOps_accept hf).2 hl]
    simp

end Sys2Proof.Machine

/-! ## O43: the micro-operations compute with the function unit's operations (rules R73, R118, R139, R140, R143) -/

namespace Sys2Proof.Machine

/-! ### The results, byte by byte -/

theorem subBytes_get (m : Mat) (r c : Fin 4) : (subBytes m)[r][c] = sbox m[r][c] := by
  simp [subBytes]

theorem invSubBytes_get (m : Mat) (r c : Fin 4) : (invSubBytes m)[r][c] = isbox m[r][c] := by
  simp [invSubBytes]

/-- Byte `r`, `c` of the matrix product is row `r` of the matrix times column `c` of the state (rule R143). -/
theorem mixedColumns_get (s m : Mat) (r c : Fin 4) :
    (mixedColumns s m)[r][c] = gfProduct s[(0 : Fin 4)][c] m[r][(0 : Fin 4)] ^^^
      gfProduct s[(1 : Fin 4)][c] m[r][(1 : Fin 4)] ^^^ gfProduct s[(2 : Fin 4)][c] m[r][(2 : Fin 4)] ^^^
      gfProduct s[(3 : Fin 4)][c] m[r][(3 : Fin 4)] := by
  fin_cases r <;> fin_cases c <;> rfl

/-! ### The products and the schedule word -/

/-- The two matrix micro-operations replace the columns by their products, with constants the multiplier supports. -/
theorem exec_mix_of_matrix {p : Instr × Mat} (hp : p ∈ [(Instr.mixc, mixMatrix), (.imixc, invMixMatrix)]) (s : State) :
    exec p.1 s = .next { s with S := mixedColumns s.S p.2 } ∧
      ∀ r c : Fin 4, supportedMultipliers.contains p.2[r][c] = true := by
  simp only [List.mem_cons, List.not_mem_nil, or_false] at hp
  rcases hp with rfl | rfl
  · exact ⟨exec_mixc s, mixMatrix_supported⟩
  · exact ⟨exec_imixc s, invMixMatrix_supported⟩

/-- A byte that `GFMUL` drives for a supported constant is the field product (rule R92). -/
theorem gfmul_byte {k b : Byte} {s u : State} (hk : supportedMultipliers.contains k = true)
    (h : exec (.gfmul k) s = .next u) (hu : u.unitOut = .byte b) : b = gfProduct s.unitByteIn k := by
  rw [exec_gfmul_supported k s hk] at h
  cases h
  exact (UnitOut.byte.inj hu).symm

/-- The first branch of the expansion rotates, substitutes and adds the round constant (rules R103, R118). -/
theorem expandTemp_first {nk i : Nat} (h4 : 4 ≤ nk) (h : i < 60) (h0 : i % nk = 0) (prev : Word) :
    expandTemp nk i prev = some (xorWord (subWord (rotWord prev))
      #v[rconTable[i / nk - 1]'(rcon_index_lt nk i h4 h), 0x00, 0x00, 0x00]) := by
  simp [expandTemp, h0, rconWord, rcon, rcon_index_lt nk i h4 h]

/-- The word `KSTEP` writes in the first branch (rule R118). -/
theorem kstep_first_word {s t : State} {i nk : Nat} (hi : i < 60) (hn : nk ≤ i) (hki : s.KI.toNat = i)
    (hnk : s.NK.toNat = nk) (h0 : i % nk = 0) (h : exec .kstep s = .next t) :
    ∃ hj : i / nk - 1 < 14, t.W[i] = xorWord s.W[i - nk]
      (xorWord (subWord (rotWord s.W[i - 1])) #v[rconTable[i / nk - 1], 0x00, 0x00, 0x00]) := by
  subst hki hnk
  by_cases hdef : kstepDefined s
  · obtain ⟨hmem, hle, h60⟩ := hdef
    have h4 : 4 ≤ s.NK.toNat := by
      simp only [List.mem_cons, List.not_mem_nil, or_false] at hmem
      omega
    have hword := nextWord_eq s hmem hle h60
    rw [expandTemp_first h4 h60 h0, Option.map_some] at hword
    rw [exec_kstep s _ hword] at h
    cases h
    exact ⟨rcon_index_lt _ _ h4 h60, by simp⟩
  · rw [exec_kstep_refused s hdef] at h
    cases h

/-- Settles O43: the byte, the product and the schedule word, each compared with what the unit drives on its inputs. -/
theorem microOperationsUseTheFunctionUnit : Obligations.MicroOperationsUseTheFunctionUnit := by
  unfold Obligations.MicroOperationsUseTheFunctionUnit
  refine ⟨?substitution, ?product, ?scheduleWord⟩
  case substitution =>
    intro p hp s t u r c ht hu
    simp only [List.mem_cons, List.not_mem_nil, or_false] at hp
    rcases hp with rfl | rfl <;> cases ht <;> cases hu
    · exact congrArg UnitOut.byte (subBytes_get s.S r c).symm
    · exact congrArg UnitOut.byte (invSubBytes_get s.S r c).symm
  case product =>
    intro p hp s t u b r c ht hu hb
    obtain ⟨hexec, hsupported⟩ := exec_mix_of_matrix hp s
    have hbyte : ∀ j : Fin 4, b j = gfProduct s.S[j][c] p.2[r][j] :=
      fun j => gfmul_byte (s := { s with unitByteIn := s.S[j][c] }) (hsupported r j) (hu j) (hb j)
    rw [hexec] at ht
    cases ht
    rw [hbyte 0, hbyte 1, hbyte 2, hbyte 3]
    exact mixedColumns_get s.S p.2 r c
  case scheduleWord =>
    intro s t a b c rot sub con i nk hi hn hki hnk h0 ht ha hrot hb hsub hc hcon
    obtain ⟨hj, hword⟩ := kstep_first_word hi hn hki hnk h0 ht
    have hindex : (BitVec.ofNat 8 (i / nk - 1)).toNat = i / nk - 1 := by
      rw [BitVec.toNat_ofNat]
      omega
    rw [exec_rcon _ s (by omega)] at hc
    cases ha; cases hrot; cases hb; cases hsub; cases hc; cases hcon
    rw [hword]
    simp only [hindex]

end Sys2Proof.Machine

/-! ## O35 to O38: the field arithmetic and the multiplier's raise (rules R90 to R95, R143, R177) -/

namespace Sys2Proof.Machine

/-! ### Doubling (rule R91) -/

/-- Bit 7 of a byte is set from 128 on (rule R7). -/
theorem getLsbD_seven (b : Byte) : b.getLsbD 7 = decide (128 ≤ b.toNat) :=
  BitVec.msb_eq_decide b

/-- Below 128 no bit is shifted out: doubling is the double of the number. -/
theorem xtime_toNat_of_lt (b : Byte) (h : b.toNat < 128) : (xtime b).toNat = 2 * b.toNat := by
  have hbit : b.getLsbD 7 = false := by rw [getLsbD_seven]; simp [h]
  have hshift : (b <<< 1).toNat = 2 * b.toNat := by bv_omega
  rw [xtime_eq, hbit]
  simpa using hshift

/-- From 128 on bit 8 of the double leaves the byte and 0x1B takes its place. -/
theorem xtime_of_ge (b : Byte) (h : 128 ≤ b.toNat) : xtime b = BitVec.ofNat 8 (2 * b.toNat - 256) ^^^ 0x1B := by
  have hbit : b.getLsbD 7 = true := by rw [getLsbD_seven]; simp [h]
  have hshift : b <<< 1 = BitVec.ofNat 8 (2 * b.toNat - 256) := by bv_omega
  rw [xtime_eq, hbit, hshift, if_pos rfl]

/-- Settles O35: bit 7 of the byte on the unit's input decides between the two cases of doubling. -/
theorem xtimeDoublesInTheField : Obligations.XtimeDoublesInTheField := by
  unfold Obligations.XtimeDoublesInTheField
  exact ⟨by decide, fun s => ⟨xtime s.unitByteIn, rfl, xtime_toNat_of_lt _, xtime_of_ge _⟩⟩

/-! ### The multiplier (rules R92, R95) -/

/-- The supported constants, as rule R92 lists them. -/
theorem contains_supported_iff_mem (k : Byte) :
    supportedMultipliers.contains k = true ↔ k ∈ [1, 2, 3, 9, 11, 13, 14] := List.contains_iff_mem

theorem contains_supported_eq_false_iff (k : Byte) :
    supportedMultipliers.contains k = false ↔ k ∉ [1, 2, 3, 9, 11, 13, 14] := by
  rw [← contains_supported_iff_mem, Bool.not_eq_true]

/-- The word of `GFMUL k` carries the constant in its `arg` byte (rules R70, R73). -/
theorem encode_gfmul_toNat (k : Byte) : (encode (.gfmul k)).toNat = 0x6100 + k.toNat := by
  rw [(Laws.WordFormat.gfmul k).1]
  simp [Instr.opByte, Instr.argByte]

/-- Settles O36: the word is `op*256 + arg`, and the two cases are the two equations of `GFMUL`. -/
theorem gfmulMultipliesOrRaises : Obligations.GfmulMultipliesOrRaises := by
  unfold Obligations.GfmulMultipliesOrRaises
  refine ⟨encode_gfmul_toNat, fun s k => ⟨fun h => ?_, fun h => ?_⟩⟩
  · exact exec_gfmul_supported k s ((contains_supported_iff_mem k).2 h)
  · exact exec_gfmul_unsupported k s ((contains_supported_eq_false_iff k).2 h)

/-- A result of the multiplier is the field product by a supported constant (rules R92, R95). -/
theorem mul_eq_some_iff (b k x : Byte) :
    mul b k = some x ↔ supportedMultipliers.contains k = true ∧ gfProduct b k = x := by
  cases hk : supportedMultipliers.contains k
  · simp [mul_of_unsupported b k hk]
  · simp [mul_of_supported b k hk]

/-! ### The laws of the field (rules R93, R94) -/

/-- The double-and-add product of a supported constant, its four terms written out (rule R92). -/
theorem mul_eq_terms (b k : Byte) (hk : supportedMultipliers.contains k = true) :
    mul b k = some (gfTerm b k 0 ^^^ gfTerm b k 1 ^^^ gfTerm b k 2 ^^^ gfTerm b k 3) := by
  rw [mul, if_pos hk]
  simp [List.range_succ]

/-- Doubling distributes over the sums inside a chain of rule R93, which leaves the terms of rule R92. -/
theorem mul_eq_additionChains (b : Byte) :
    mul b 1 = some b ∧ mul b 2 = some (xtime b) ∧ mul b 3 = some (xtime b ^^^ b) ∧
    mul b 9 = some (xtime (xtime (xtime b)) ^^^ b) ∧
    mul b 11 = some (xtime (xtime (xtime b) ^^^ b) ^^^ b) ∧
    mul b 13 = some (xtime (xtime (xtime b ^^^ b)) ^^^ b) ∧
    mul b 14 = some (xtime (xtime (xtime b ^^^ b) ^^^ b)) := by
  refine ⟨?_, ?_, ?_, ?_, ?_, ?_, ?_⟩ <;> rw [mul_eq_terms _ _ (by decide)] <;>
    simp [gfTerm, xtimeN, xtime_xor] <;> ac_rfl

/-- A map of bytes that keeps sums and doubling. Such a map is the multiplication by its value at 1
(`FieldLinear.eq_gfProduct`); the products by a constant are such maps (rule R94). -/
structure FieldLinear (f : Byte → Byte) : Prop where
  map_xor : ∀ a b, f (a ^^^ b) = f a ^^^ f b
  map_xtime : ∀ a, f (xtime a) = xtime (f a)

section
variable {f : Byte → Byte} (hf : FieldLinear f)
include hf

theorem FieldLinear.map_zero : f 0 = 0 := by
  have h := hf.map_xor 0 0
  rwa [BitVec.xor_self, BitVec.xor_self] at h

theorem FieldLinear.map_xtimeN (n : Nat) (a : Byte) : f (xtimeN n a) = xtimeN n (f a) := by
  induction n with
  | zero => rfl
  | succ n ih => rw [xtimeN, hf.map_xtime, ih, xtimeN]

theorem FieldLinear.map_gfTerm (a k : Byte) (n : Nat) : f (gfTerm a k n) = gfTerm (f a) k n := by
  unfold gfTerm
  split
  · exact hf.map_xtimeN n a
  · exact hf.map_zero

/-- Term by term along the double-and-add product of rule R101. -/
theorem FieldLinear.map_gfProduct (a k : Byte) : f (gfProduct a k) = gfProduct (f a) k := by
  have hstep : ∀ r n, f r ^^^ gfTerm (f a) k n = f (r ^^^ gfTerm a k n) := fun r n => by
    rw [hf.map_xor, hf.map_gfTerm]
  have h := List.foldl_hom (g₁ := fun r n => r ^^^ gfTerm a k n) (g₂ := fun r n => r ^^^ gfTerm (f a) k n)
    (l := List.range 8) (init := 0) f hstep
  rw [hf.map_zero] at h
  exact h.symm

end

theorem gfProduct_one_left (b : Byte) : gfProduct 1 b = b := by
  revert b
  decide

theorem FieldLinear.eq_gfProduct {f : Byte → Byte} (hf : FieldLinear f) (b : Byte) : f b = gfProduct (f 1) b := by
  rw [← hf.map_gfProduct, gfProduct_one_left]

theorem fieldLinear_gfProduct (k : Byte) : FieldLinear fun a => gfProduct a k where
  map_xor a b := gfProduct_xor a b k
  map_xtime a := (FieldLinear.map_gfProduct ⟨xtime_xor, fun _ => rfl⟩ a k).symm

theorem gfProduct_comm (a b : Byte) : gfProduct a b = gfProduct b a := by
  have h : gfProduct a b = gfProduct (gfProduct 1 b) a := (fieldLinear_gfProduct b).eq_gfProduct a
  rw [h, gfProduct_one_left]

theorem gfProduct_right_comm (a b c : Byte) : gfProduct (gfProduct a b) c = gfProduct (gfProduct a c) b :=
  (fieldLinear_gfProduct c).map_gfProduct a b

theorem gfProduct_assoc (a b c : Byte) : gfProduct (gfProduct a b) c = gfProduct a (gfProduct b c) := by
  rw [gfProduct_comm a b, gfProduct_right_comm, gfProduct_comm]

/-- Each supported constant has a field inverse: the one written out, constant by constant. -/
theorem supported_has_inverse {k : Byte} (hk : supportedMultipliers.contains k = true) : ∃ j, gfProduct k j = 1 := by
  rw [mem_supported] at hk
  rcases hk with rfl | rfl | rfl | rfl | rfl | rfl | rfl
  exacts [⟨0x01, by decide⟩, ⟨0x8D, by decide⟩, ⟨0xF6, by decide⟩, ⟨0x4F, by decide⟩, ⟨0xC0, by decide⟩,
    ⟨0xE1, by decide⟩, ⟨0xE5, by decide⟩]

/-- Multiplication by a supported constant is undone by multiplication by its inverse. -/
theorem gfProduct_injective {a b k : Byte} (hk : supportedMultipliers.contains k = true)
    (h : gfProduct a k = gfProduct b k) : a = b := by
  obtain ⟨j, hj⟩ := supported_has_inverse hk
  have hundo : ∀ x, gfProduct (gfProduct x k) j = x := fun x => by
    rw [gfProduct_assoc, hj]
    exact gfProduct_one x
  rw [← hundo a, h, hundo]

/-- Entry `j` of the constant table is the `j`-th power of 2 (rule R103). -/
theorem rcon_eq_xtimeN : ∀ j : Fin 14, rcon j.val = some (xtimeN j.val 0x01) := by decide

/-- Settles O37: the chains by linearity of doubling, injectivity by the inverse of the constant. -/
theorem fieldLawsAndAdditionChainsHold : Obligations.FieldLawsAndAdditionChainsHold := by
  unfold Obligations.FieldLawsAndAdditionChainsHold
  refine ⟨mul_eq_additionChains, xtime_xor, xtime_zero, ?linear, ?injective, ⟨0x01, by decide⟩, rcon_eq_xtimeN⟩
  case linear =>
    intro a b k x y z hx hy hz
    rw [mul_eq_some_iff] at hx hy hz
    rw [← hx.2, ← hy.2, ← hz.2, gfProduct_xor]
  case injective =>
    intro a b k x ha hb
    rw [mul_eq_some_iff] at ha hb
    exact gfProduct_injective ha.1 (ha.2.trans hb.2.symm)

/-! ### Where the matrix product has no result (rules R95, R143) -/

/-- A result of row times column needs every constant of the row to be supported. -/
theorem mixByte_eq_none_iff (v : Word) (row : Vector Byte 4) :
    mixByte v row = none ↔ ∃ c : Fin 4, supportedMultipliers.contains row[c] = false := by
  constructor
  · intro h
    by_contra hall
    simp only [not_exists, Bool.not_eq_false] at hall
    simp [mixByte_of_supported v row hall] at h
  · rintro ⟨c, hc⟩
    have hc' : mul v[c] row[c] = none := mul_of_unsupported _ _ hc
    fin_cases c <;> simp_all [mixByte]

theorem mixColumn_eq_none_iff (v : Word) (m : Mat) :
    mixColumn v m = none ↔ ∃ r c : Fin 4, supportedMultipliers.contains m[r][c] = false := by
  constructor
  · intro h
    by_contra hall
    simp only [not_exists, Bool.not_eq_false] at hall
    simp [mixColumn_of_supported v m hall] at h
  · rintro ⟨r, hr⟩
    have hr' : mixByte v m[r] = none := (mixByte_eq_none_iff v m[r]).2 hr
    fin_cases r <;> simp_all [mixColumn]

/-- `GFMUL k` raises exactly for an unsupported constant (rule R95). -/
theorem exec_gfmul_raises_iff (k : Byte) (s : State) :
    exec (.gfmul k) s = .next { s with unitOut := .raised .unsupportedFieldMultiplier } ↔
      supportedMultipliers.contains k = false := by
  cases hk : supportedMultipliers.contains k
  · simp [exec_gfmul_unsupported k s hk]
  · simp [exec_gfmul_supported k s hk]

/-! ### No operation and no step enters error 3 (rules R106, R177) -/

/-- From `s` to `t` the machine does not enter error 3: where `t` shows it, `s` did. -/
def noNewMultiplierError (s t : State) : Prop := t.ERR = .unsupportedFieldMultiplier → t.ERR = s.ERR

theorem accept_ERR_ne_unsupported (v : Byte) (s : State) : (accept v s).ERR ≠ .unsupportedFieldMultiplier := by
  cases h : commandLegal v <;> simp [h]

theorem checkError_ne_unsupported (s : State) : checkError s ≠ some .unsupportedFieldMultiplier := by
  rcases checkError_cases s with ⟨h, -⟩ | ⟨h, -⟩ | ⟨h, -⟩ <;> simp [h]

theorem advance_ERR (s : State) : (advance s).ERR = s.ERR := by
  obtain ⟨b, d, o, sch, p, r, h⟩ := advance_writes s
  rw [h]

theorem exec_noNewMultiplierError {i : Instr} {s t : State} (h : exec i s = .next t) : noNewMultiplierError s t := by
  rcases exec_next_cases i s t h with ⟨hf, -⟩ | ⟨-, e, he, rfl⟩ | ⟨-, ht⟩ | ⟨-, ht⟩
  · rcases exec_command_cases hf h with ⟨-, rfl⟩ | ⟨-, rfl⟩
    · exact fun _ => rfl
    · exact fun h3 => absurd h3 (accept_ERR_ne_unsupported _ s)
  · rintro rfl
    exact absurd he (checkError_ne_unsupported s)
  · exact fun _ => by rw [ht]
  · exact fun _ => by rw [ht]

theorem memWrite_noNewMultiplierError (a : Addr) (v : Byte) (s : State) : noNewMultiplierError s (memWrite a v s) := by
  rcases memWrite_cases a v s with h | ⟨-, -, h⟩ | ⟨-, -, h⟩ | ⟨-, -, h⟩ | ⟨-, _, -, h⟩ | ⟨-, _, -, h⟩ <;> rw [h]
  case inr.inl => exact fun h3 => absurd h3 (accept_ERR_ne_unsupported v s)
  all_goals exact fun _ => rfl

theorem coreStep_noNewMultiplierError {s t : State} (h : coreStep s = .next t) : noNewMultiplierError s t := by
  obtain ⟨-, w, i, u, -, -, -, hu, rfl⟩ := coreStep_next_cases s t h
  rw [noNewMultiplierError, advance_ERR]
  exact exec_noNewMultiplierError hu

theorem step_noNewMultiplierError {s t : State} (h : step s = .next t) : noNewMultiplierError s t := by
  rcases step_next_cases s t h with ⟨a, v, rest, -, rfl⟩ | ⟨a, rest, -, rfl⟩ | ⟨rest, -, rfl⟩ |
    ⟨rest, ts, -, rfl, -⟩ | ⟨rest, -, ⟨-, hc⟩ | ⟨-, rfl⟩⟩ | ⟨w, b, x, rest, i, -, -, -, he⟩
  case inl => exact memWrite_noNewMultiplierError a v { s with turns := rest }
  case inr.inr.inl => exact nofun
  case inr.inr.inr.inr.inl.inl => exact coreStep_noNewMultiplierError (s := { s with turns := rest }) hc
  case inr.inr.inr.inr.inr =>
    exact exec_noNewMultiplierError (s := { s with turns := rest, unitByteIn := b, unitWordIn := x }) he
  all_goals exact fun _ => rfl

/-- Settles O38: the product fails on the multiplier's raises only, and `CHK` and acceptance raise other errors. -/
theorem mixColumnFailsExactlyOnUnsupportedEntries : Obligations.MixColumnFailsExactlyOnUnsupportedEntries := by
  unfold Obligations.MixColumnFailsExactlyOnUnsupportedEntries
  refine ⟨fun v m => ?_, fun v m s => ?_, fun v => ?_, fun i s t h => exec_noNewMultiplierError h,
    fun s t h => step_noNewMultiplierError h⟩
  · simp only [mixColumn_eq_none_iff, contains_supported_eq_false_iff]
  · simp only [mixColumn_eq_none_iff, exec_gfmul_raises_iff]
  · simp [mixColumn_mix, mixColumn_inv]

end Sys2Proof.Machine

/-! ## O39 to O42: the constant tables (rules R100 to R105) -/

namespace Sys2Proof.Machine

/-! ### The two substitution tables undo each other (rule R102) -/

@[simp] theorem isbox_sbox (b : Byte) : isbox (sbox b) = b := by
  revert b
  decide

@[simp] theorem sbox_isbox (b : Byte) : sbox (isbox b) = b := by
  revert b
  decide

/-- Settles O39: the lookups are the meanings of the two operations, and each table undoes the other on every byte. -/
theorem sboxAndIsboxLookUpAndInvert : Obligations.SboxAndIsboxLookUpAndInvert := by
  unfold Obligations.SboxAndIsboxLookUpAndInvert
  refine ⟨rfl, rfl, fun _ => rfl, fun _ => rfl, fun p hp s t u b ht hb hu => ?_⟩
  simp only [List.mem_cons, List.not_mem_nil, or_false] at hp
  rcases hp with rfl | rfl <;> cases ht <;> cases hb <;> cases hu
  · exact congrArg UnitOut.byte (isbox_sbox s.unitByteIn)
  · exact congrArg UnitOut.byte (sbox_isbox s.unitByteIn)

/-! ### The field inverse (rule R101) -/

/-- A byte has at most one field inverse, by associativity of the product. -/
theorem gfProduct_inverse_unique {a v v' : Byte} (h : gfProduct a v = 1) (h' : gfProduct a v' = 1) : v' = v := by
  calc v' = gfProduct (gfProduct a v) v' := by rw [h, gfProduct_one_left]
    _ = gfProduct (gfProduct a v') v := gfProduct_right_comm a v v'
    _ = v := by rw [h', gfProduct_one_left]

/-- Zero has no field inverse. -/
theorem ne_zero_of_gfProduct_eq_one {a v : Byte} (h : gfProduct a v = 1) : v ≠ 0 := by
  rintro rfl
  rw [gfProduct_comm, (fieldLinear_gfProduct a).map_zero] at h
  exact absurd h (by decide)

/-- The tables read backwards from the affine map: the byte whose S-box entry is the affine image of `v` is the field
inverse of `v` (rule R101). -/
theorem gfProduct_isbox_sboxAffine : ∀ v : Byte, v ≠ 0 → gfProduct v (isbox (sboxAffine v)) = 1 := by decide

/-- Settles O40: an inverse is unique, so it is the one read from the table, whose S-box entry is the affine image. -/
theorem sboxIsInverseThenAffine : Obligations.SboxIsInverseThenAffine := by
  unfold Obligations.SboxIsInverseThenAffine
  refine ⟨by decide, fun a ha => ⟨_, gfProduct_isbox_sboxAffine a ha⟩,
    fun a v h => ⟨?_, fun _ => gfProduct_inverse_unique h⟩⟩
  have hread := gfProduct_isbox_sboxAffine v (ne_zero_of_gfProduct_eq_one h)
  rw [gfProduct_comm] at h
  rw [gfProduct_inverse_unique hread h, sbox_isbox]

/-! ### The round constants (rule R103) -/

/-- The word of `RCON j` carries the index in its `arg` byte (rules R70, R73). -/
theorem encode_rcon_toNat (j : Byte) : (encode (.rcon j)).toNat = 0x7200 + j.toNat := by
  rw [(Laws.WordFormat.rcon j).1]
  simp [Instr.opByte, Instr.argByte]

theorem rcon_eq_power {j : Nat} (h : j ≤ 13) : rcon j = some (xtimeN j 0x01) :=
  rcon_eq_xtimeN ⟨j, by omega⟩

/-- Settles O41: the table entry of each index up to 13 is that power of 2. -/
theorem rconIsThePowerOfTwo : Obligations.RconIsThePowerOfTwo := by
  unfold Obligations.RconIsThePowerOfTwo
  refine ⟨encode_rcon_toNat, fun s j h => ?_, fun j h => ⟨xtimeN j 0x01, rcon_eq_power h, ?_⟩⟩
  · simp only [exec, execRcon, rcon_eq_power h]
  · simp only [rconWord, rcon_eq_power h, Option.map_some]

/-! ### The word functions of the key schedule (rules R104, R105) -/

/-- Byte `b` after the rotation is byte `b + 1` before it, and the last byte is the first. -/
theorem rotWord_get (w : Word) (b : Fin 4) : (rotWord w)[b] = w[(b.val + 1) % 4] := by
  fin_cases b <;> rfl

theorem subWord_get (w : Word) (b : Fin 4) : (subWord w)[b] = sbox w[b] := by
  fin_cases b <;> rfl

/-- Settles O42: the unit drives the rotated word and the substituted word. -/
theorem rotwAndSubwActOnBytes : Obligations.RotwAndSubwActOnBytes := by
  unfold Obligations.RotwAndSubwActOnBytes
  exact ⟨rfl, rfl, fun s => ⟨rotWord s.unitWordIn, rfl, rotWord_get s.unitWordIn⟩,
    fun s => ⟨subWord s.unitWordIn, rfl, subWord_get s.unitWordIn⟩⟩

end Sys2Proof.Machine

/-! ## O19, O23 to O25: the micro-operations of the key schedule (rules R115 to R119, R180) -/

namespace Sys2Proof.Machine

/-! ### `CHK` (rules R116, R180) -/

theorem checkError_block {s : State} (hc : s.CMDR = 0x01 ∨ s.CMDR = 0x02) (hb : s.BLEN ≠ 16) :
    checkError s = some .invalidBlockLength := by
  rw [checkError, (commandUsesBlock_iff _).2 hc, Bool.true_and, if_pos (bne_iff_ne.2 hb)]

/-- Once the block test passes, the key length alone decides. -/
theorem checkError_key {s : State} (hb : (s.CMDR ≠ 0x01 ∧ s.CMDR ≠ 0x02) ∨ s.BLEN = 16) :
    checkError s = if keyLengthLegal s.KLEN then none else some .invalidKeyLength := by
  have hpass : ¬(commandUsesBlock s.CMDR = true ∧ s.BLEN ≠ 16) := by
    rwa [commandUsesBlock_iff, not_and_or, not_or, not_ne_iff]
  rcases checkError_cases s with ⟨-, hfail⟩ | ⟨hc, -, hk⟩ | ⟨hc, -, hk⟩
  · exact absurd hfail hpass
  · simp [hc, hk]
  · simp [hc, hk]

/-- A `CHECK` step that raises nothing goes on to phase `KLOAD` and changes nothing else (rule R159). -/
theorem step_check_pass {s : State} (hb : s.BUSY = true) (hp : s.PH = .check)
    (hl : commandLegal s.CMDR = true) (ht : s.turns = []) (hc : checkError s = none) :
    step s = .next { s with PH := .kload } := by
  rw [step_no_turn s ht, coreTurn_busy s hb, coreStep_check s hp (by simp [State.phaseReachable, hp, hl]), hc]

/-- Settles O19: the block test decides first, then the key length, and a pass leaves the state for `KLOAD`. -/
theorem chkTestsBlockLengthThenKeyLength : Obligations.ChkTestsBlockLengthThenKeyLength := by
  unfold Obligations.ChkTestsBlockLengthThenKeyLength
  refine ⟨rfl, fun _ => rfl, ?blockError, ?keyError, ?pass⟩
  case blockError =>
    intro s hc hb
    exact exec_chk_raise s _ (checkError_block hc hb)
  case keyError =>
    intro s hb h16 h24 h32
    have hk : ¬keyLengthLegal s.KLEN = true := by
      simpa [keyLengthLegal_iff_mem] using And.intro h16 (And.intro h24 h32)
    exact exec_chk_raise s _ (by rw [checkError_key hb, if_neg hk])
  case pass =>
    intro s hb hk
    have hlegal : keyLengthLegal s.KLEN = true := by simpa [keyLengthLegal_iff_mem] using hk
    have hc : checkError s = none := by rw [checkError_key hb, if_pos hlegal]
    refine ⟨exec_chk_pass s hc, fun hbusy hp hl ht => step_check_pass hbusy hp ?_ ht hc⟩
    simpa [commandLegal_iff] using hl

/-! ### `KLOAD` (rules R115, R117) -/

/-- What the rows of rule R115 have in common. -/
theorem keyRow_bounds {len nk nr : Nat} (h : (len, nk, nr) ∈ [(16, 4, 10), (24, 6, 12), (32, 8, 14)]) :
    (len = 16 ∨ len = 24 ∨ len = 32) ∧ nkOf len = nk ∧ nr = nk + 6 ∧ nk ≤ 8 := by
  simp only [List.mem_cons, Prod.mk.injEq, List.not_mem_nil, or_false] at h
  unfold nkOf
  omega

/-- Byte `b` of key word `j` (rules R58, R117). -/
theorem keyWord_get (k : Vector Byte 32) (j : Nat) (h : j < 8) (b : Fin 4) :
    (keyWord k j h)[b] = k[4 * j + b.val] := by
  fin_cases b <;> rfl

/-- A word that `KLOAD` leaves as it is (rule R117). -/
theorem loadKey_get_above (k : Vector Byte 32) (nk : Nat) (w : Vector Word 60) (j : Fin 60) (h : nk ≤ j.val) :
    (loadKey k nk w)[j] = w[j] := by
  simp [loadKey, Nat.not_lt.2 h]

/-- Settles O23: the row of R115 fixes `NK`, `NR` and `KI`, and `loadKey` the words. -/
theorem kloadSplitsTheKeyIntoWords : Obligations.KloadSplitsTheKeyIntoWords := by
  unfold Obligations.KloadSplitsTheKeyIntoWords
  refine ⟨rfl, fun _ => rfl, fun s len nk nr hlen hrow => ?_⟩
  obtain ⟨hlegal, hnk, hnr, h8⟩ := keyRow_bounds hrow
  subst hlen hnr
  have hexec := exec_kload s ((keyLengthLegal_iff _).2 hlegal)
  rw [hnk] at hexec
  refine ⟨_, hexec, ?nk, ?nr, ?ki, ?keyWords, ?otherWords, rfl⟩
  case nk => exact Nat.mod_eq_of_lt (by omega)
  case nr => exact Nat.mod_eq_of_lt (by omega)
  case ki => exact Nat.mod_eq_of_lt (by omega)
  case keyWords =>
    intro j b hj
    simp only [loadKey_get s.KEYBUF nk s.W j.val j.isLt hj, keyWord_get]
  case otherWords => exact loadKey_get_above s.KEYBUF nk s.W

/-! ### `KSTEP` (rule R118) -/

theorem xorWord_get (a b : Word) (i : Fin 4) : (xorWord a b)[i] = a[i] ^^^ b[i] := by
  simp [xorWord]

/-- The bytes of the word of the first branch: only byte 0 takes the round constant (rules R103 to R105, R118). -/
theorem firstBranchWord_bytes (old prev : Word) (c : Byte) (w : Word)
    (h : w = xorWord old (xorWord (subWord (rotWord prev)) #v[c, 0x00, 0x00, 0x00])) :
    w[0] = old[0] ^^^ (sbox prev[1] ^^^ c) ∧ w[1] = old[1] ^^^ sbox prev[2] ∧
      w[2] = old[2] ^^^ sbox prev[3] ∧ w[3] = old[3] ^^^ sbox prev[0] := by
  simp [h, xorWord, subWord, rotWord]

/-- The second branch of the expansion substitutes (rule R118). -/
theorem expandTemp_second {nk i : Nat} (h0 : i % nk ≠ 0) (h : nk > 6 ∧ i % nk = 4) (prev : Word) :
    expandTemp nk i prev = some (subWord prev) := by
  rw [expandTemp, if_neg h0, if_pos h]

/-- The third branch of the expansion takes the word before as it is (rule R118). -/
theorem expandTemp_third {nk i : Nat} (h0 : i % nk ≠ 0) (h : ¬(nk > 6 ∧ i % nk = 4)) (prev : Word) :
    expandTemp nk i prev = some prev := by
  rw [expandTemp, if_neg h0, if_neg h]

/-- `KSTEP` stores the word `NK` before, plus what the branch makes of the word before. -/
theorem exec_kstep_temp {s : State} (h : kstepDefined s) :
    ∃ tmp, expandTemp s.NK.toNat s.KI.toNat (s.W[s.KI.toNat - 1]'(by have := h.2.2; omega)) = some tmp ∧
      exec .kstep s =
        .next (kstepResult (xorWord (s.W[s.KI.toNat - s.NK.toNat]'(by have := h.2.2; omega)) tmp) s) := by
  obtain ⟨x, hx, hexec⟩ := exec_kstep_defined s h
  obtain ⟨hmem, hle, h60⟩ := h
  rw [nextWord_eq s hmem hle h60, Option.map_eq_some_iff] at hx
  obtain ⟨tmp, htmp, rfl⟩ := hx
  exact ⟨tmp, htmp, hexec⟩

theorem kstepResult_word (x : Word) (s : State) (h : s.KI.toNat < 60) : (kstepResult x s).W[s.KI.toNat] = x := by
  simp [kstepResult]

theorem kstepResult_word_ne (x : Word) (s : State) (j : Fin 60) (h : j.val ≠ s.KI.toNat) :
    (kstepResult x s).W[j] = s.W[j] := by
  simp [kstepResult, Vector.getElem_setIfInBounds_ne, h.symm]

theorem kstepResult_KI (x : Word) (s : State) (h : s.KI.toNat < 60) :
    (kstepResult x s).KI.toNat = s.KI.toNat + 1 := by
  rw [kstepResult, BitVec.toNat_add]
  exact Nat.mod_eq_of_lt (by simp; omega)

/-- Settles O24: the stored word is `W[i-NK] ^ tmp`, and each branch fixes the bytes of `tmp`. -/
theorem kstepComputesOneScheduleWord : Obligations.KstepComputesOneScheduleWord := by
  unfold Obligations.KstepComputesOneScheduleWord
  refine ⟨rfl, fun _ => rfl, fun s i nk hi hn hki hnk hmem => ?_⟩
  subst hki hnk
  obtain ⟨tmp, htmp, hexec⟩ := exec_kstep_temp ⟨hmem, hn, hi⟩
  refine ⟨_, hexec, kstepResult_KI _ s hi, kstepResult_word_ne _ s, rfl, ?first, ?second, ?third⟩
  all_goals rw [kstepResult_word _ s hi]
  case first =>
    intro h0
    have h4 : 4 ≤ s.NK.toNat := by simp at hmem; omega
    rw [expandTemp_first h4 hi h0] at htmp
    cases htmp
    exact ⟨_, Vector.getElem?_eq_getElem (rcon_index_lt _ _ h4 hi), firstBranchWord_bytes _ _ _ _ rfl⟩
  case second =>
    intro h0 h6 h4 b
    cases (expandTemp_second h0 ⟨h6, h4⟩ _).symm.trans htmp
    rw [xorWord_get, subWord_get]
  case third =>
    intro h0 h b
    cases (expandTemp_third h0 h _).symm.trans htmp
    rw [xorWord_get]

/-! ### `KINVR` (rules R119, R143) -/

theorem mixed_get (v : Word) (m : Mat) (r : Fin 4) : (mixed v m)[r] = rowProduct v m[r] := by
  fin_cases r <;> rfl

/-- Settles O25: the words of round key `RND` are the products, the other words are as they were. -/
theorem kinvrMultipliesOneRoundKey : Obligations.KinvrMultipliesOneRoundKey := by
  unfold Obligations.KinvrMultipliesOneRoundKey
  refine ⟨rfl, fun _ => rfl, fun s hr => ?_⟩
  obtain ⟨w, hw, hexec⟩ := exec_kinvr s (Nat.lt_succ_of_le hr)
  refine ⟨_, hexec, rfl, fun j hj => ?other, fun j hj r => ?product⟩
  case other =>
    have hget := convertRoundKey_get hw j
    rwa [if_neg hj] at hget
  case product =>
    have hget := convertRoundKey_get hw j
    rw [if_pos hj, mixColumn_inv, Option.some.injEq] at hget
    simp only [← hget, mixed_get]
    rfl

end Sys2Proof.Machine

/-! ## O26, O27: the state codec and the round-key matrix (rules R130 to R134) -/

namespace Sys2Proof.Machine

/-- The matrix entry in block terms (rule R130). -/
@[simp] theorem blockToMatrix_get (b : Block) (r c : Nat) (hr : r < 4) (hc : c < 4) :
    (blockToMatrix b)[r][c] = b[r + 4 * c] := by
  rw [blockToMatrix, matOf_get]

@[simp] theorem matrixToBlock_get (m : Mat) (i : Nat) (hi : i < 16) : (matrixToBlock m)[i] = m[i % 4][i / 4] := by
  rw [matrixToBlock, Vector.getElem_ofFn]

/-- Row `i mod 4`, column `i div 4` holds byte `i`, as rules R130 and R131 index it. -/
theorem blockToMatrix_get_mod_div (b : Block) (i : Nat) (hi : i < 16) :
    (blockToMatrix b)[i % 4][i / 4] = b[i] := by
  simp only [blockToMatrix_get, Nat.mod_add_div]

theorem matrixToBlock_blockToMatrix (b : Block) : matrixToBlock (blockToMatrix b) = b := by
  ext i hi : 1
  rw [matrixToBlock_get _ i hi, blockToMatrix_get_mod_div b i hi]

theorem blockToMatrix_matrixToBlock (m : Mat) : blockToMatrix (matrixToBlock m) = m := by
  ext r hr c hc : 2
  have hmod : (r + 4 * c) % 4 = r := by omega
  have hdiv : (r + 4 * c) / 4 = c := by omega
  simp only [blockToMatrix_get, matrixToBlock_get, hmod, hdiv]

/-- Byte `r` of word `c` is byte `r + 4*c` of the block; the sum `4 + 4 + 4 + 4` is the form of the length 16 that the
append lemma splits. -/
theorem blockOfWords_get (w0 w1 w2 w3 : Word) (r c : Fin 4) :
    (blockOfWords w0 w1 w2 w3)[r.val + 4 * c.val] = #v[w0, w1, w2, w3][c][r] := by
  change (w0 ++ w1 ++ w2 ++ w3 : Vector Byte (4 + 4 + 4 + 4))[r.val + 4 * c.val] = _
  simp only [Vector.getElem_append]
  fin_cases r <;> fin_cases c <;> rfl

theorem roundKey_get (w : Vector Word 60) (r : Nat) (h : r < 15) (row c : Fin 4) :
    (roundKey w r h)[row][c] = w[4 * r + c.val][row] := by
  simp [roundKey]

/-- Word `c` of the four words of a round key (rule R134). -/
theorem roundKeyWords_get (w : Vector Word 60) (r : Nat) (h : r < 15) (c : Fin 4) :
    #v[w[4 * r], w[4 * r + 1], w[4 * r + 2], w[4 * r + 3]][c] = w[4 * r + c.val] := by
  fin_cases c <;> rfl

/-- A round key is the codec's matrix of its 16 bytes in schedule order (rule R134). -/
theorem roundKey_eq_blockToMatrix (w : Vector Word 60) (r : Nat) (h : r < 15) :
    roundKey w r h = blockToMatrix (blockOfWords w[4 * r] w[4 * r + 1] w[4 * r + 2] w[4 * r + 3]) := by
  refine mat_ext _ _ fun row c => ?_
  calc (roundKey w r h)[row][c]
      = w[4 * r + c.val][row] := roundKey_get w r h row c
    _ = #v[w[4 * r], w[4 * r + 1], w[4 * r + 2], w[4 * r + 3]][c][row] := by rw [roundKeyWords_get w r h c]
    _ = (blockOfWords w[4 * r] w[4 * r + 1] w[4 * r + 2] w[4 * r + 3])[row.val + 4 * c.val] :=
        (blockOfWords_get _ _ _ _ row c).symm
    _ = _ := (blockToMatrix_get _ row.val c.val row.isLt c.isLt).symm

/-- Settles O27: both round trips rest on `r + 4*c` being the index with remainder `r` and quotient `c`, and both
layouts of a round key read byte `row` of word `4r+c`. -/
theorem codecsInvertAndRoundKeysAreColumnMajor : Obligations.CodecsInvertAndRoundKeysAreColumnMajor := by
  unfold Obligations.CodecsInvertAndRoundKeysAreColumnMajor
  exact ⟨matrixToBlock_blockToMatrix, blockToMatrix_matrixToBlock,
    fun w r h => ⟨roundKey_get w r h, roundKey_eq_blockToMatrix w r h⟩⟩

/-- Settles O26: `LDST` and `STST` write the codec's result to one register and nothing else. -/
theorem loadAndStoreAreColumnMajor : Obligations.LoadAndStoreAreColumnMajor := by
  unfold Obligations.LoadAndStoreAreColumnMajor
  refine ⟨rfl, fun _ => rfl, rfl, fun _ => rfl, fun s => ?load, fun s => ?store⟩
  case load => exact ⟨_, exec_ldst s, rfl, fun i => blockToMatrix_get_mod_div s.DIN i.val i.isLt⟩
  case store => exact ⟨_, exec_stst s, rfl, fun i => matrixToBlock_get s.S i.val i.isLt⟩

end Sys2Proof.Machine

/-! ## O28 to O34: the round transforms (rules R138 to R148) -/

namespace Sys2Proof.Machine

/-! ### A micro-operation that replaces the state matrix -/

/-- The operation replaces `S` by `f S`, raises nothing and writes no other register. -/
def transforms (i : Instr) (f : Mat → Mat) : Prop := ∀ s : State, exec i s = .next { s with S := f s.S }

theorem transforms_subb : transforms .subb subBytes := exec_subb

theorem transforms_isubb : transforms .isubb invSubBytes := exec_isubb

theorem transforms_shrow : transforms .shrow shiftRows := exec_shrow

theorem transforms_ishrow : transforms .ishrow invShiftRows := exec_ishrow

theorem transforms_mixc : transforms .mixc (mixedColumns · mixMatrix) := exec_mixc

theorem transforms_imixc : transforms .imixc (mixedColumns · invMixMatrix) := exec_imixc

/-- The state an operation reaches, read back from its answer. -/
theorem transforms.S_eq {i : Instr} {f : Mat → Mat} (hi : transforms i f) {s t : State} (h : exec i s = .next t) :
    t.S = f s.S := by
  rw [hi s] at h
  cases h
  rfl

theorem transforms.undo {i j : Instr} {f g : Mat → Mat} (hi : transforms i f) (hj : transforms j g)
    (h : ∀ m, g (f m) = m) (s : State) : ∃ t, exec i s = .next t ∧ exec j t = .next s :=
  ⟨_, hi s, by rw [hj, h]⟩

theorem transforms.commute {i j : Instr} {f g : Mat → Mat} (hi : transforms i f) (hj : transforms j g)
    (h : ∀ m, g (f m) = f (g m)) (s : State) :
    ∃ t u v, exec i s = .next t ∧ exec j t = .next u ∧ exec j s = .next v ∧ exec i v = .next u :=
  ⟨_, _, _, hi s, hj _, hj s, by rw [hi, h]⟩

/-! ### `SUBB` and `ISUBB` (rules R139, R140) -/

theorem invSubBytes_subBytes (m : Mat) : invSubBytes (subBytes m) = m :=
  mat_ext _ _ fun r c => by rw [invSubBytes_get, subBytes_get, isbox_sbox]

theorem subBytes_invSubBytes (m : Mat) : subBytes (invSubBytes m) = m :=
  mat_ext _ _ fun r c => by rw [subBytes_get, invSubBytes_get, sbox_isbox]

/-- Settles O28: each operation is its transform, whose bytes are the table's. -/
theorem subBytesReplacesEveryByte : Obligations.SubBytesReplacesEveryByte := by
  unfold Obligations.SubBytesReplacesEveryByte
  exact ⟨rfl, rfl, rfl, rfl, fun s => ⟨_, exec_subb s, rfl, subBytes_get s.S⟩,
    fun s => ⟨_, exec_isubb s, rfl, invSubBytes_get s.S⟩⟩

/-! ### `SHROW` and `ISHROW` (rules R141, R142) -/

/-- Columns are counted modulo 4, which is the addition of `Fin 4`. -/
theorem shiftRows_get (m : Mat) (r c : Fin 4) : (shiftRows m)[r][c] = m[r][c + r] := by
  simp [shiftRows, Fin.val_add]

theorem invShiftRows_get (m : Mat) (r c : Fin 4) : (invShiftRows m)[r][c] = m[r][c - r] := by
  have hcol : (c - r).val = (c.val + 4 - r.val) % 4 := by omega
  simp [invShiftRows, hcol]

theorem invShiftRows_shiftRows (m : Mat) : invShiftRows (shiftRows m) = m :=
  mat_ext _ _ fun r c => by simp only [invShiftRows_get, shiftRows_get, sub_add_cancel]

theorem shiftRows_invShiftRows (m : Mat) : shiftRows (invShiftRows m) = m :=
  mat_ext _ _ fun r c => by simp only [shiftRows_get, invShiftRows_get, add_sub_cancel_right]

/-- Byte `i` is row `i mod 4`, column `i div 4`, and the byte it comes from is `i mod 4` columns, of four bytes each,
further on. -/
theorem matrixToBlock_shiftRows_get (m : Mat) (i : Fin 16) :
    (matrixToBlock (shiftRows m))[i] = (matrixToBlock m)[(i.val + 4 * (i.val % 4)) % 16] := by
  have hrow : (i.val + 4 * (i.val % 4)) % 16 % 4 = i.val % 4 := by omega
  have hcol : (i.val + 4 * (i.val % 4)) % 16 / 4 = (i.val / 4 + i.val % 4) % 4 := by omega
  simp [shiftRows, hrow, hcol]

/-- Settles O29: both forms of `SHROW` are the entries of `shiftRows`, and `ISHROW` leaves the state whose `shiftRows`
is the state before. -/
theorem shiftRowsRotatesRows : Obligations.ShiftRowsRotatesRows := by
  unfold Obligations.ShiftRowsRotatesRows
  refine ⟨rfl, rfl, rfl, rfl, fun s => ?left, fun s => ?right⟩
  case left => exact ⟨_, exec_shrow s, rfl, shiftRows_get s.S, matrixToBlock_shiftRows_get s.S⟩
  case right =>
    have hundo := shiftRows_invShiftRows s.S
    refine ⟨_, exec_ishrow s, rfl, fun r c => ?_, fun i => ?_⟩
    · exact (shiftRows_get _ r c).symm.trans (by rw [hundo])
    · exact (matrixToBlock_shiftRows_get _ i).symm.trans (by rw [hundo])

/-- A substitution changes byte values and a row shift only moves bytes (rule R147). -/
theorem shiftRows_subBytes (m : Mat) : shiftRows (subBytes m) = subBytes (shiftRows m) :=
  mat_ext _ _ fun r c => by simp only [shiftRows_get, subBytes_get]

theorem invShiftRows_invSubBytes (m : Mat) : invShiftRows (invSubBytes m) = invSubBytes (invShiftRows m) :=
  mat_ext _ _ fun r c => by simp only [invShiftRows_get, invSubBytes_get]

/-! ### `ARK` (rule R146) -/

theorem xorMat_get (a b : Mat) (r c : Fin 4) : (xorMat a b)[r][c] = a[r][c] ^^^ b[r][c] := by
  simp [xorMat]

theorem xorMat_cancel (m k : Mat) : xorMat (xorMat m k) k = m :=
  mat_ext _ _ fun r c => by rw [xorMat_get, xorMat_get, BitVec.xor_assoc, BitVec.xor_self, BitVec.xor_zero]

/-- Every byte of the state that `ARK` leaves, when it answers one (rule R146). -/
theorem exec_ark_get {s t : State} (h : exec .ark s = .next t) (r c : Fin 4) :
    ∃ hr : s.RND.toNat < 15, t.S[r][c] = s.S[r][c] ^^^ s.W[4 * s.RND.toNat + c.val][r] := by
  by_cases hr : s.RND.toNat < 15
  · rw [exec_ark s hr] at h
    cases h
    exact ⟨hr, by rw [xorMat_get, roundKey_get]⟩
  · rw [exec_ark_refused s hr] at h
    cases h

/-- Settles O31: `ARK` adds the round-key matrix, whose column `c` is word `4*RND + c`. -/
theorem addRoundKeyXorsTheRoundKey : Obligations.AddRoundKeyXorsTheRoundKey := by
  unfold Obligations.AddRoundKeyXorsTheRoundKey
  refine ⟨rfl, fun _ => ⟨rfl, rfl⟩, fun s n hn hs => ?_⟩
  subst hs
  exact ⟨_, exec_ark s hn, rfl, fun r c => by rw [xorMat_get, roundKey_get]⟩

/-! ### The matrix product is linear (rule R147) -/

theorem word_ext {a b : Word} (h : ∀ i : Fin 4, a[i] = b[i]) : a = b := by
  ext i hi : 1
  exact h ⟨i, hi⟩

theorem rowProduct_xorWord (u v : Word) (row : Vector Byte 4) :
    rowProduct (xorWord u v) row = rowProduct u row ^^^ rowProduct v row := by
  simp only [rowProduct, xorWord, Fin.getElem_fin, Vector.getElem_ofFn, gfProduct_xor]
  ac_rfl

theorem mixed_xorWord (u v : Word) (m : Mat) : mixed (xorWord u v) m = xorWord (mixed u m) (mixed v m) := by
  refine word_ext fun r => ?_
  rw [mixed_get, rowProduct_xorWord, xorWord_get, mixed_get, mixed_get]

/-- A result for one vector needs every constant of the matrix to be supported, and then every vector has one. -/
theorem mixColumn_of_eq_some {v a : Word} {m : Mat} (h : mixColumn v m = some a) (u : Word) :
    mixColumn u m = some (mixed u m) := by
  refine mixColumn_of_supported u m fun r c => ?_
  by_contra hrc
  have hnone := (mixColumn_eq_none_iff v m).2 ⟨r, c, by simpa using hrc⟩
  rw [hnone] at h
  cases h

theorem mixColumn_xorWord {u v a b : Word} {m : Mat} (ha : mixColumn u m = some a) (hb : mixColumn v m = some b) :
    mixColumn (xorWord u v) m = some (xorWord a b) := by
  have hsome := mixColumn_of_eq_some ha
  cases (hsome u).symm.trans ha
  cases (hsome v).symm.trans hb
  rw [hsome, mixed_xorWord]

theorem column_xorMat (a b : Mat) (c : Fin 4) : column (xorMat a b) c = xorWord (column a c) (column b c) := by
  fin_cases c <;> rfl

theorem column_mixedColumns (s m : Mat) (c : Fin 4) : column (mixedColumns s m) c = mixed (column s c) m := by
  fin_cases c <;> rfl

theorem column_get (m : Mat) (c r : Fin 4) : (column m c)[r] = m[r][c] := by
  fin_cases r <;> rfl

theorem mat_ext_column {a b : Mat} (h : ∀ c, column a c = column b c) : a = b :=
  mat_ext _ _ fun r c => by rw [← column_get, h, column_get]

theorem mixedColumns_xorMat (a k m : Mat) :
    mixedColumns (xorMat a k) m = xorMat (mixedColumns a m) (mixedColumns k m) :=
  mat_ext_column fun c => by simp only [column_mixedColumns, column_xorMat, mixed_xorWord]

/-! ### The two matrices are inverse (rule R148) -/

/-- A row vector times a matrix over the field. -/
def rowTimes (row : Vector Byte 4) (m : Mat) : Vector Byte 4 :=
  #v[rowProduct (column m 0) row, rowProduct (column m 1) row, rowProduct (column m 2) row,
    rowProduct (column m 3) row]

/-- The product of two matrices over the field. -/
def matProduct (a b : Mat) : Mat := Vector.ofFn fun r : Fin 4 => rowTimes a[r] b

def identityMat : Mat := rotatedRows #v[1, 0, 0, 0]

theorem gfProduct_xor_right (b k k' : Byte) : gfProduct b (k ^^^ k') = gfProduct b k ^^^ gfProduct b k' := by
  rw [gfProduct_comm, gfProduct_xor, gfProduct_comm k, gfProduct_comm k']

@[simp] theorem gfProduct_zero (b : Byte) : gfProduct b 0#8 = 0#8 := by
  rw [gfProduct_comm]
  exact (fieldLinear_gfProduct b).map_zero

/-- The sixteen products of either side, by associativity and linearity of the field product. -/
theorem rowProduct_mixed (v : Word) (m : Mat) (row : Vector Byte 4) :
    rowProduct (mixed v m) row = rowProduct v (rowTimes row m) := by
  simp only [rowTimes, rowProduct, mixed, column, gfProduct_xor, gfProduct_xor_right, gfProduct_assoc,
    Vector.getElem_mk, List.getElem_toArray, List.getElem_cons_zero, List.getElem_cons_succ, Fin.getElem_fin,
    Fin.coe_ofNat_eq_mod, Nat.reduceMod]
  ac_rfl

/-- Two products in a row are the product with the matrix product. -/
theorem mixed_mixed (v : Word) (a b : Mat) : mixed (mixed v b) a = mixed v (matProduct a b) := by
  refine word_ext fun r => ?_
  have hrow : (matProduct a b)[r] = rowTimes a[r] b := Vector.getElem_ofFn ..
  rw [mixed_get, rowProduct_mixed, mixed_get, hrow]

theorem mixed_identityMat (v : Word) : mixed v identityMat = v := by
  refine word_ext fun r => ?_
  rw [mixed_get]
  fin_cases r <;> simp [rowProduct, identityMat]

theorem matProduct_invMix_mix : matProduct invMixMatrix mixMatrix = identityMat := by decide

theorem matProduct_mix_invMix : matProduct mixMatrix invMixMatrix = identityMat := by decide

theorem mixed_mix_invMix (v : Word) : mixed (mixed v mixMatrix) invMixMatrix = v := by
  rw [mixed_mixed, matProduct_invMix_mix, mixed_identityMat]

theorem mixed_invMix_mix (v : Word) : mixed (mixed v invMixMatrix) mixMatrix = v := by
  rw [mixed_mixed, matProduct_mix_invMix, mixed_identityMat]

/-- Settles O34: the product of the two matrices, in either order, is the identity. -/
theorem mixMatricesAreInverse : Obligations.MixMatricesAreInverse := by
  unfold Obligations.MixMatricesAreInverse
  refine fun v => ⟨⟨_, mixColumn_mix v, ?_⟩, ⟨_, mixColumn_inv v, ?_⟩⟩
  · rw [mixColumn_inv, mixed_mix_invMix]
  · rw [mixColumn_mix, mixed_invMix_mix]

/-! ### `MIXC` and `IMIXC` (rules R143 to R145) -/

/-- The column of `MIXC` as rule R143 writes it out. -/
theorem mixedColumns_mix_column (s : Mat) (c : Fin 4) :
    (mixedColumns s mixMatrix)[0][c] = gfProduct s[0][c] 2 ^^^ gfProduct s[1][c] 3 ^^^ s[2][c] ^^^ s[3][c] ∧
    (mixedColumns s mixMatrix)[1][c] = s[0][c] ^^^ gfProduct s[1][c] 2 ^^^ gfProduct s[2][c] 3 ^^^ s[3][c] ∧
    (mixedColumns s mixMatrix)[2][c] = s[0][c] ^^^ s[1][c] ^^^ gfProduct s[2][c] 2 ^^^ gfProduct s[3][c] 3 ∧
    (mixedColumns s mixMatrix)[3][c] = gfProduct s[0][c] 3 ^^^ s[1][c] ^^^ s[2][c] ^^^ gfProduct s[3][c] 2 := by
  have hget := fun r => mixedColumns_get s mixMatrix r c
  exact ⟨by simpa [mixMatrix] using hget 0, by simpa [mixMatrix] using hget 1, by simpa [mixMatrix] using hget 2,
    by simpa [mixMatrix] using hget 3⟩

/-- Settles O30: the entries of the matrices are computed, and each new byte is row times column. -/
theorem mixColumnsIsTheFieldProduct : Obligations.MixColumnsIsTheFieldProduct := by
  unfold Obligations.MixColumnsIsTheFieldProduct
  refine ⟨rfl, rfl, rfl, rfl, by decide, by decide, fun s t c h => ?column,
    fun s => ⟨_, exec_mixc s, rfl, mixedColumns_get s.S mixMatrix⟩,
    fun s => ⟨_, exec_imixc s, rfl, mixedColumns_get s.S invMixMatrix⟩⟩
  case column =>
    rw [transforms_mixc.S_eq h]
    exact mixedColumns_mix_column s.S c

theorem mixedColumns_mix_invMix (s : Mat) : mixedColumns (mixedColumns s mixMatrix) invMixMatrix = s :=
  mat_ext_column fun c => by rw [column_mixedColumns, column_mixedColumns, mixed_mix_invMix]

theorem mixedColumns_invMix_mix (s : Mat) : mixedColumns (mixedColumns s invMixMatrix) mixMatrix = s :=
  mat_ext_column fun c => by rw [column_mixedColumns, column_mixedColumns, mixed_invMix_mix]

/-! ### The transforms together (rules R138, R147) -/

/-- Settles O33: the six transforms by their matrix functions, `ARK` by the sum, and the mix by its linearity. -/
theorem roundTransformsUndoEachOther : Obligations.RoundTransformsUndoEachOther := by
  unfold Obligations.RoundTransformsUndoEachOther
  simp only [List.forall_mem_cons, List.not_mem_nil, false_implies, implies_true, and_true]
  refine ⟨?inverse, ?keyAddition, ?commute, ?linearColumn, ?linear⟩
  case inverse =>
    exact ⟨transforms_subb.undo transforms_isubb invSubBytes_subBytes,
      transforms_isubb.undo transforms_subb subBytes_invSubBytes,
      transforms_shrow.undo transforms_ishrow invShiftRows_shiftRows,
      transforms_ishrow.undo transforms_shrow shiftRows_invShiftRows,
      transforms_mixc.undo transforms_imixc mixedColumns_mix_invMix,
      transforms_imixc.undo transforms_mixc mixedColumns_invMix_mix⟩
  case keyAddition =>
    intro s hs
    have hr : s.RND.toNat < 15 := Nat.lt_succ_of_le hs
    refine ⟨_, exec_ark s hr, ?_⟩
    rw [exec_ark, xorMat_cancel]
    exact hr
  case commute =>
    exact ⟨transforms_subb.commute transforms_shrow shiftRows_subBytes,
      transforms_isubb.commute transforms_ishrow invShiftRows_invSubBytes⟩
  case linearColumn => exact fun u v a b m => mixColumn_xorWord
  case linear =>
    intro a b k k' ha hk
    rw [mixColumns_inv] at ha hk ⊢
    cases ha
    cases hk
    rw [mixedColumns_xorMat]

/-- `SUBB`, `ISUBB` and `ARK` compute a byte from the byte of the same lane, the schedule and the round. -/
theorem lane_independent {i : Instr} (hi : i ∈ [Instr.subb, .isubb, .ark]) {s s' t t' : State} (hW : s.W = s'.W)
    (hR : s.RND = s'.RND) (ht : exec i s = .next t) (ht' : exec i s' = .next t') (r c : Fin 4)
    (h : s.S[r][c] = s'.S[r][c]) : t.S[r][c] = t'.S[r][c] := by
  simp only [List.mem_cons, List.not_mem_nil, or_false] at hi
  rcases hi with rfl | rfl | rfl
  · rw [transforms_subb.S_eq ht, transforms_subb.S_eq ht', subBytes_get, subBytes_get, h]
  · rw [transforms_isubb.S_eq ht, transforms_isubb.S_eq ht', invSubBytes_get, invSubBytes_get, h]
  · obtain ⟨hr, hget⟩ := exec_ark_get ht r c
    obtain ⟨hr', hget'⟩ := exec_ark_get ht' r c
    simp only [hget, hget', h, hW, hR]

/-- `SHROW` and `ISHROW` move the bytes of row `r` by `r` columns, a permutation of the columns. -/
theorem row_permuted {i : Instr} (hi : i ∈ [Instr.shrow, .ishrow]) {s t : State} (ht : exec i s = .next t)
    (r : Fin 4) : ∃ p : Fin 4 → Fin 4, (∀ a b, p a = p b → a = b) ∧ ∀ c : Fin 4, t.S[r][c] = s.S[r][p c] := by
  simp only [List.mem_cons, List.not_mem_nil, or_false] at hi
  rcases hi with rfl | rfl
  · exact ⟨(· + r), fun a b => add_right_cancel, fun c => by rw [transforms_shrow.S_eq ht, shiftRows_get]⟩
  · exact ⟨(· - r), fun a b => sub_left_inj.1, fun c => by rw [transforms_ishrow.S_eq ht, invShiftRows_get]⟩

/-- `MIXC` and `IMIXC` compute a column from the same column. -/
theorem column_independent {i : Instr} (hi : i ∈ [Instr.mixc, .imixc]) {s s' t t' : State}
    (ht : exec i s = .next t) (ht' : exec i s' = .next t') (c : Fin 4) (h : ∀ r : Fin 4, s.S[r][c] = s'.S[r][c])
    (r : Fin 4) : t.S[r][c] = t'.S[r][c] := by
  obtain ⟨m, hm⟩ : ∃ m, transforms i (mixedColumns · m) := by
    simp only [List.mem_cons, List.not_mem_nil, or_false] at hi
    rcases hi with rfl | rfl
    · exact ⟨_, transforms_mixc⟩
    · exact ⟨_, transforms_imixc⟩
  rw [hm.S_eq ht, hm.S_eq ht']
  simp only [mixedColumns_get, h]

/-- Settles O32: one lemma for each of the three kinds of lane structure. -/
theorem lanesDependOnlyOnTheirOwn : Obligations.LanesDependOnlyOnTheirOwn := by
  unfold Obligations.LanesDependOnlyOnTheirOwn
  refine fun s s' hW hR => ⟨fun i hi t t' r c ht ht' hr hc h => ?_, fun i hi t => row_permuted hi,
    fun i hi t t' => column_independent hi⟩
  exact lane_independent hi hW hR ht ht' ⟨r, hr⟩ ⟨c, hc⟩ h

end Sys2Proof.Machine

/-! ## O49, O56: how long a command runs, and how it ends (rules R160, R164, R165, R203) -/

namespace Sys2Proof.Machine

/-! ### The last step of a command (rules R116, R159, R160) -/

/-- The steps that end a command: the raise of `CHK`, the last word of `KEXP`, the last round key of `KEXPI` and the
`STST` of a cipher. -/
inductive Ends (s : State) : State → Prop
  | raise (e : ErrCode) (hp : s.PH = .check) (he : checkError s = some e) : Ends s (errorEntry e s)
  | forward (x : Word) (hp : s.PH = .kexp) (hc : s.CMDR = 0x03) (hx : nextWord s = some x)
      (hlast : s.KI.toNat + 1 = scheduleWords s.NR.toNat) : Ends s (finish false .forward (kstepResult x s))
  | inverse (hr : s.RND.toNat < 15) (w : Vector Word 60) (hp : s.PH = .kinv) (hc : s.CMDR = 0x04)
      (hw : convertRoundKey s.W s.RND.toNat hr invMixMatrix = some w) (hlast : s.RND.toNat + 1 = s.NR.toNat) :
      Ends s (finish false .inverse { s with W := w })
  | cipher (out : Block) (hp : s.PH = .store) (hout : out = matrixToBlock s.S) :
      Ends s (finish true (if s.isEnc then .forward else .inverse) { s with DOUT := out })

section
variable {s t : State} (hi : Inv s) (hb : s.BUSY = true)
include hi hb

/-- Every step from a busy core to an idle one is one of these. -/
theorem ends_of_idle (ht : coreStep s = .next t) (hidle : t.BUSY = false) : Ends s t := by
  have hreach := phaseReachable_of_inv s hi hb
  have hnot : ∀ {P : Prop}, t.BUSY = s.BUSY → P := fun h => by rw [hidle, hb] at h; cases h
  cases h : s.PH with
  | idle => exact absurd h (hi.busy_iff_phase.1 hb)
  | check =>
    rw [coreStep_check s h hreach] at ht
    cases hc : checkError s with
    | none => rw [hc] at ht; cases ht; exact hnot rfl
    | some e => rw [hc] at ht; cases ht; exact .raise e h hc
  | kload =>
    have hp := hi.phase
    simp only [State.phaseInv, h] at hp
    obtain ⟨-, -, hkl, -⟩ := hp
    rw [coreStep_kload s h hreach hkl] at ht
    cases ht
    exact hnot rfl
  | kexp =>
    obtain ⟨x, hx, ⟨hlast, ⟨hc, rfl⟩ | ⟨-, rfl⟩ | ⟨-, rfl⟩⟩ | ⟨-, rfl⟩⟩ := coreStep_kexp_cases hi hb h ht
    · exact .forward x h hc hx hlast
    all_goals exact hnot rfl
  | kinv =>
    obtain ⟨hr, w, hw, ⟨hlast, ⟨hc, rfl⟩ | ⟨-, rfl⟩⟩ | ⟨-, rfl⟩⟩ := coreStep_kinv_cases hi hb h ht
    · exact .inverse hr w h hc hw hlast
    all_goals exact hnot rfl
  | load | ark0 | sub | shift | mix | ark =>
    obtain ⟨hframe, -⟩ := coreStep_round_frame hi hb (by simp [h]) ht
    exact hnot (by rw [hframe])
  | store =>
    rw [coreStep_store s h hreach] at ht
    cases ht
    exact .cipher _ h rfl

/-- The core is busy exactly while operations are to be issued. -/
theorem pendingOps_ne_nil : s.pendingOps ≠ [] := by
  obtain ⟨t, ht⟩ := coreStep_enabled hi hb
  obtain ⟨i, -, hpending⟩ := coreStep_issuesFirst hi hb ht
  rw [hpending]
  exact List.cons_ne_nil _ _

end

theorem checkError_ne_none {s : State} {e : ErrCode} (h : checkError s = some e) : e ≠ .none := by
  rcases checkError_cases s with ⟨hc, -⟩ | ⟨hc, -⟩ | ⟨hc, -⟩ <;> rw [hc] at h <;> cases h <;> decide

/-- A command that ends without a raise of `CHK` ends without error (rule R160). -/
theorem Ends.done {s t : State} (h : Ends s t) (hi : Inv s) (hb : s.BUSY = true) :
    t.DONE = true ∧ (t.ERR = .none ↔ (s.PH = .check → checkError s = none)) := by
  cases h with
  | raise e hp he => exact ⟨rfl, by simp [hp, he, checkError_ne_none he]⟩
  | forward x hp hc hx hlast => exact ⟨rfl, by simp [hp, kstepResult, hi.busy_err hb]⟩
  | inverse hr w hp hc hw hlast => exact ⟨rfl, by simp [hp, hi.busy_err hb]⟩
  | cipher out hp hout => exact ⟨rfl, by simp [hp, hi.busy_err hb]⟩

/-! ### What a core step never changes while a command runs -/

theorem coreStep_CMDR {s t : State} (h : coreStep s = .next t) : t.CMDR = s.CMDR := by
  obtain ⟨-, w, i, u, -, -, hm, hu, rfl⟩ := coreStep_next_cases s t h
  obtain ⟨b, d, o, sch, p, r, ha⟩ := advance_writes u
  rw [ha]
  rcases exec_next_cases i s u hu with ⟨hf, -⟩ | ⟨-, e, -, rfl⟩ | ⟨-, hframe⟩ | ⟨-, hframe⟩
  · rw [hm] at hf; cases hf
  · rfl
  · rw [hframe]
  · rw [hframe]

/-- The command and the declared lengths decide what `CHK` raises, so a running command does not change it. -/
theorem coreStep_checkError {s t : State} (h : coreStep s = .next t) : checkError t = checkError s := by
  obtain ⟨-, hklen, -, hblen⟩ := coreStep_inputs h
  rw [checkError, checkError, coreStep_CMDR h, hklen, hblen]

/-! ### A run of the core alone -/

/-- A run that goes on past a step is the run from the state the step reaches. -/
theorem core_run_of_step (M : Host.Core) {s t : M.State} (n : Nat) (h : M.step s = .next t) :
    M.run (n + 1) s = M.run n t := by
  rw [Host.Core.run, h]

theorem core_run_of_refused (M : Host.Core) {s : M.State} {r : M.Refusal} (n : Nat) (h : M.step s = .refused r) :
    M.run (n + 1) s = .refused r := by
  rw [Host.Core.run, h]

/-- A run goes on with the step of the state it has reached. -/
theorem run_snoc {n : Nat} {s u t : State} (h : run n s = .next u) (hu : step u = .next t) :
    run (n + 1) s = .next t := by
  induction n generalizing s with
  | zero =>
    cases h
    exact core_run_of_step Sys2Proof.core 0 hu
  | succ n ih =>
    cases hs : step s with
    | next v =>
      have hrest : run n v = .next u := (core_run_of_step Sys2Proof.core n hs).symm.trans h
      exact (core_run_of_step Sys2Proof.core (n + 1) hs).trans (ih hrest)
    | fault f => cases f
    | refused r => cases (core_run_of_refused Sys2Proof.core n hs).symm.trans h

theorem step_of_coreStep {s t : State} (hb : s.BUSY = true) (ht : s.turns = []) (h : coreStep s = .next t) :
    step s = .next t :=
  ((step_no_turn s ht).trans (coreTurn_busy s hb)).trans h

/-- Every core step of a running command keeps the predicate, until the command ends. -/
def keptWhileBusy (P : State → Prop) : Prop :=
  ∀ s t, Inv s → s.BUSY = true → P s → coreStep s = .next t → t.BUSY = true → P t

section
variable {P : State → Prop} (hP : keptWhileBusy P) {s : State} (hi : Inv s) (hb : s.BUSY = true) (ht : s.turns = [])
  (hp : P s)
include hP hi hb ht hp

/-- As long as operations are left to be issued, the run reaches a busy state that has issued `n` of them. -/
theorem run_while_pending (n : Nat) (hn : n < s.pendingOps.length) :
    ∃ u, run n s = .next u ∧ Inv u ∧ u.BUSY = true ∧ u.turns = [] ∧ P u ∧ u.pendingOps = s.pendingOps.drop n := by
  induction n with
  | zero => exact ⟨s, rfl, hi, hb, ht, hp, rfl⟩
  | succ n ih =>
    obtain ⟨u, hrun, hiu, hbu, htu, hpu, hpending⟩ := ih (by omega)
    obtain ⟨t, hc⟩ := coreStep_enabled hiu hbu
    obtain ⟨i, -, hfirst⟩ := coreStep_issuesFirst hiu hbu hc
    have hleft : t.pendingOps = s.pendingOps.drop (n + 1) := by
      rw [← List.tail_drop, ← hpending, hfirst, List.tail_cons]
    have hit := inv_coreStep hiu hbu hc
    have hbt : t.BUSY = true := by
      by_contra hidle
      rw [pendingOps_idle (hit.phase_idle (by simpa using hidle))] at hleft
      have hlen := congrArg List.length hleft
      rw [List.length_nil, List.length_drop] at hlen
      omega
    exact ⟨t, run_snoc hrun (step_of_coreStep hbu htu hc), hit, hbt, (coreStep_turns hc).trans htu,
      hP u t hiu hbu hpu hc hbt, hleft⟩

/-- The command ends when every operation has been issued, one a step (rule R164). -/
theorem run_to_end : ∃ u t, Inv u ∧ u.BUSY = true ∧ P u ∧ coreStep u = .next t ∧ t.BUSY = false ∧ Ends u t ∧
    run s.pendingOps.length s = .next t := by
  have hpos : 0 < s.pendingOps.length := List.length_pos_iff.2 (pendingOps_ne_nil hi hb)
  obtain ⟨u, hrun, hiu, hbu, htu, hpu, hpending⟩ :=
    run_while_pending hP hi hb ht hp (s.pendingOps.length - 1) (by omega)
  obtain ⟨t, hc⟩ := coreStep_enabled hiu hbu
  obtain ⟨i, -, hfirst⟩ := coreStep_issuesFirst hiu hbu hc
  have hnone : t.pendingOps = [] := by
    have hlen := congrArg List.length (hfirst.symm.trans hpending)
    simp only [List.length_cons, List.length_drop] at hlen
    exact List.length_eq_zero_iff.1 (by omega)
  have hidle : t.BUSY = false := by
    by_contra hbt
    exact pendingOps_ne_nil (inv_coreStep hiu hbu hc) (by simpa using hbt) hnone
  refine ⟨u, t, hiu, hbu, hpu, hc, hidle, ends_of_idle hiu hbu hc hidle, ?_⟩
  have hsnoc := run_snoc hrun (step_of_coreStep hbu htu hc)
  rwa [Nat.sub_add_cancel hpos] at hsnoc

end

theorem keptWhileBusy_true : keptWhileBusy fun _ => True := fun _ _ _ _ _ _ _ => trivial

/-- The command in execution is latched. -/
theorem keptWhileBusy_CMDR (c : Byte) : keptWhileBusy (·.CMDR = c) := fun _ _ _ _ h hc _ => (coreStep_CMDR hc).trans h

/-- What `CHK` raises is fixed by acceptance. -/
theorem keptWhileBusy_checkError (e : Option ErrCode) : keptWhileBusy (checkError · = e) := fun _ _ _ _ h hc _ =>
  (coreStep_checkError hc).trans h

/-! ### The step counts (rule R164) -/

/-- A command executed on an idle core is accepted (rule R154). -/
theorem accept_of_exec {s a : State} {i : Instr} (hf : i.format = .command) (hs : s.ready) (h : exec i s = .next a) :
    a = accept i.opByte s ∧ Inv a ∧ a.BUSY = true ∧ a.turns = [] := by
  rcases exec_command_cases hf h with ⟨hb, -⟩ | ⟨-, rfl⟩
  · rw [hs.1] at hb; cases hb
  · exact ⟨rfl, inv_accept _ s, by simp [commandLegal_opByte hf], by simpa using hs.2⟩

/-- An accepted command has as many operations to issue as rule R164 counts steps. -/
theorem length_pendingOps_accept {s : State} {i : Instr} (hf : i.format = .command) (hl : s.inputsLegal i) :
    (accept i.opByte s).pendingOps.length = commandSteps i s.declaredNk s.declaredNr := by
  rw [(pendingOps_accept hf).1 hl, length_commandOps hf]

/-- A command that fails in `CHK` ends with its first step (rules R116, R164). -/
theorem run_one_of_checkError {a : State} {e : ErrCode} (hi : Inv a) (hb : a.BUSY = true) (ht : a.turns = [])
    (hp : a.PH = .check) (he : checkError a = some e) : run 1 a = .next (errorEntry e a) := by
  have hc := coreStep_check a hp (phaseReachable_of_inv a hi hb)
  rw [he] at hc
  exact run_snoc (s := a) rfl (step_of_coreStep hb ht hc)

/-- Settles O49: an accepted command issues one operation of its expansion a step, and ends with the last one; `CHK`
alone is issued when a length is illegal. -/
theorem commandsTakeTheListedSteps : Obligations.CommandsTakeTheListedSteps := by
  unfold Obligations.CommandsTakeTheListedSteps
  refine ⟨?legal, ?illegalLengths, ?illegalCommand, by decide⟩
  case legal =>
    intro s a i hf hs hl he
    obtain ⟨rfl, hi, hb, ht⟩ := accept_of_exec hf hs he
    rw [← length_pendingOps_accept hf hl]
    refine ⟨fun m hm => ?_, ?_⟩
    · obtain ⟨u, hrun, -, hbu, -⟩ := run_while_pending keptWhileBusy_true hi hb ht trivial m hm
      exact ⟨u, hrun, hbu⟩
    · obtain ⟨u, t, hiu, hbu, hpass, -, hidle, hends, hrun⟩ :=
        run_to_end (keptWhileBusy_checkError none) hi hb ht ((checkError_accept_iff hf).2 hl)
      obtain ⟨hdone, herr⟩ := hends.done hiu hbu
      exact ⟨t, hrun, hidle, hdone, herr.2 fun _ => hpass⟩
  case illegalLengths =>
    intro s a i hf hs hl he
    obtain ⟨rfl, hi, hb, ht⟩ := accept_of_exec hf hs he
    obtain ⟨e, he⟩ := Option.ne_none_iff_exists'.1 fun h => hl ((checkError_accept_iff hf).1 h)
    have hp : (accept i.opByte s).PH = .check := by simp [commandLegal_opByte hf]
    exact ⟨hb, _, run_one_of_checkError hi hb ht hp he, rfl, rfl, checkError_ne_none he⟩
  case illegalCommand =>
    intro s v hb hv
    rw [memWrite_cmd v s hb, accept_BUSY, ← Bool.not_eq_true, commandLegal_iff]
    simpa using hv

/-! ### Every running command ends (rules R164, R165, R203) -/

theorem length_cipherOps (enc : Bool) {nr : Nat} (h : 1 ≤ nr) : (cipherOps enc nr).length = 4 * nr + 2 := by
  simp [cipherOps, length_roundsOps]
  omega

theorem length_opsAfterSchedule_le (c : Byte) {nr : Nat} (h : 1 ≤ nr) :
    (opsAfterSchedule c nr).length ≤ 5 * nr + 1 := by
  unfold opsAfterSchedule
  split
  · rw [length_cipherOps _ h]; omega
  · split
    · simp only [List.length_append, length_cipherOps _ h, invertOps, List.length_replicate]; omega
    · split
      · simp only [invertOps, List.length_replicate]; omega
      · simp

theorem length_opsAfterRound_le {s : State} (hr : s.roundInRange) : s.opsAfterRound.length ≤ 4 * s.NR.toNat := by
  have hf := isFinal_iff_roundsLeft hr
  have hle : s.roundsLeft < s.NR.toNat ∧ 0 < s.NR.toNat := by
    cases henc : s.isEnc
    · rw [roundInRange_dec henc] at hr
      rw [roundsLeft_dec henc]
      omega
    · rw [roundInRange_enc henc] at hr
      rw [roundsLeft_enc henc]
      omega
  unfold State.opsAfterRound
  split
  · simp; omega
  · rw [length_roundsOps]; omega

/-- The longest command of rule R164 has 125 operations, and a command in any phase has no more to issue. -/
theorem length_pendingOps_le {s : State} (hi : Inv s) : s.pendingOps.length ≤ 125 := by
  have hp := hi.phase
  have hcheck : keyLengthLegal s.KLEN = true → s.opsAfterCheck.length ≤ 124 := fun hk => by
    have hafter := length_opsAfterSchedule_le s.CMDR (nr := s.declaredNr) (by simp [State.declaredNr])
    simp only [State.opsAfterCheck, State.declaredNr, State.declaredNk, scheduleWords, nkOf, List.length_cons,
      List.length_append, List.length_replicate] at hafter ⊢
    rcases (keyLengthLegal_iff _).1 hk with hk | hk | hk <;> rw [hk] at hafter ⊢ <;> omega
  cases h : s.PH <;> simp only [State.pendingOps, State.phaseInv, h] at hp ⊢
  case idle => simp
  case store => simp
  case check =>
    rcases checkError_cases s with ⟨hc, -⟩ | ⟨hc, -⟩ | ⟨hc, -, hk⟩ <;> simp [hc]
    exact Nat.lt_succ_of_le (hcheck hk)
  case kload =>
    obtain ⟨-, -, hk, -⟩ := hp
    exact (hcheck hk).trans (by decide)
  all_goals
    obtain ⟨hl, hp⟩ := hp
    obtain ⟨h14, h10, hmem, hnr⟩ := loaded_bounds hl
  case kexp =>
    have hafter := length_opsAfterSchedule_le s.CMDR (nr := s.NR.toNat) (by omega)
    simp only [scheduleWords, List.length_append, List.length_replicate]
    omega
  case kinv =>
    have hcipher := length_cipherOps false (nr := s.NR.toNat) (by omega)
    split <;> simp only [List.length_append, List.length_replicate, hcipher, List.length_nil] <;> omega
  case load => rw [length_cipherOps _ (by omega)]; omega
  case ark0 => rw [List.length_cons, length_roundsOps]; omega
  case sub =>
    obtain ⟨-, -, hr⟩ := hp
    have hround := length_opsAfterRound_le hr
    rw [roundsOps_roundsLeft hr]
    split <;> simp <;> omega
  case shift =>
    obtain ⟨-, -, hr⟩ := hp
    have hround := length_opsAfterRound_le hr
    split <;> simp <;> omega
  case mix | ark =>
    obtain ⟨-, -, hr⟩ := hp
    have hround := length_opsAfterRound_le (s := s) (by tauto)
    simp
    omega

/-- After the last step the output is valid exactly for a cipher that has not raised (rules R160, R165). -/
theorem Ends.outValid_iff {s t : State} (h : Ends s t) (hi : Inv s) (hb : s.BUSY = true) :
    t.OUT_VALID = true ↔ t.ERR = .none ∧ commandUsesBlock s.CMDR = true := by
  cases h with
  | raise e hp he => simp [checkError_ne_none he]
  | forward x hp hc hx hlast => simp [hc, commandUsesBlock]
  | inverse hr w hp hc hw hlast => simp [hc, commandUsesBlock]
  | cipher out hp hout =>
    have hphase := hi.phase
    simp only [State.phaseInv, hp] at hphase
    simp [hi.busy_err hb, hphase]

/-- Settles O56: at most 125 operations are left to be issued, and the step that issues the last one ends the
command. -/
theorem everyRunningCommandEnds : Obligations.EveryRunningCommandEnds := by
  unfold Obligations.EveryRunningCommandEnds
  intro s hi hb ht
  obtain ⟨u, t, hiu, hbu, hcmd, hc, hidle, hends, hrun⟩ := run_to_end (keptWhileBusy_CMDR s.CMDR) hi hb ht rfl
  have hit := inv_coreStep hiu hbu hc
  obtain ⟨hdone, -⟩ := hends.done hiu hbu
  refine ⟨_, t, length_pendingOps_le hi, hrun, hidle, hdone, ⟨hit.done_ok hdone, fun hs => ?_⟩, ?_⟩
  · obtain ⟨-, herr, -⟩ := hit.sched_set hs
    exact herr
  · rw [hends.outValid_iff hiu hbu, hcmd, commandUsesBlock_iff]

end Sys2Proof.Machine

/-! ## O47, O48: the schedule commands from acceptance to completion (rules R120, R121, R157, R158, R160) -/

namespace Sys2Proof.Machine

/-! ### What a command that ends without error leaves -/

/-- After `KLOAD` the registers hold the numbers that the declared key length names (rule R115). -/
theorem loaded_declared {s : State} (hl : s.loaded) : s.NK.toNat = s.declaredNk ∧ s.NR.toNat = s.declaredNr := by
  obtain ⟨-, -, -, hnr⟩ := loaded_bounds hl
  obtain ⟨-, hklen, -⟩ := hl
  rw [State.declaredNr, State.declaredNk, nkOf, hklen]
  omega

/-- The schedule that `SCHED` names is in `W` when a command ends without error: the one of the declared key. -/
theorem Ends.schedule {s t : State} (h : Ends s t) (hi : Inv s) (hsi : ScheduleInv s) (herr : t.ERR = .none) :
    t.loaded ∧ t.expanded ∧ (t.SCHED = .forward → t.holdsForward t.key) ∧
      (t.SCHED = .inverse → t.holdsInverse t.key) := by
  cases h with
  | raise e hp he => exact absurd herr (checkError_ne_none he)
  | forward x hp hc hx hlast =>
    obtain ⟨hl, -, -, hsucc⟩ := kexp_bounds hi hp
    obtain ⟨ws, hws, hwl, hagree⟩ := kstep_extends hi hsi hp x hx
    rw [hlast] at hagree
    exact ⟨hl, hsucc.trans hlast, fun _ => ⟨ws, hws, hwl, hagree⟩, by simp⟩
  | inverse hr w hp hc hw hlast =>
    obtain ⟨hl, hexp, -⟩ := kinv_bounds hi hp
    obtain ⟨ws, hws, hwl, hall⟩ := kinvr_converts hi hsi hp hr w hw
    rw [hlast] at hall
    exact ⟨hl, hexp, by simp, fun _ => holdsInverse_of_converted (u := { s with W := w }) hl hws hwl hall⟩
  | cipher out hp hout =>
    have hphase := hi.phase
    simp only [State.phaseInv, hp] at hphase
    obtain ⟨hl, hexp, -⟩ := hphase
    have hkeys : s.holdsRoundKeys := hsi.rounds (by simp [hp])
    cases henc : s.isEnc <;>
      simp only [State.holdsRoundKeys, henc, Bool.false_eq_true, if_false, if_true] at hkeys
    · exact ⟨hl, hexp, by simp, fun _ => hkeys⟩
    · exact ⟨hl, hexp, fun _ => hkeys, by simp⟩

/-- What a running command keeps of the state `a` in which it was accepted. -/
structure Follows (a s : State) : Prop where
  keybuf : s.KEYBUF = a.KEYBUF
  klen : s.KLEN = a.KLEN
  din : s.DIN = a.DIN
  blen : s.BLEN = a.BLEN
  cmdr : s.CMDR = a.CMDR
  schedule : ScheduleInv s

theorem Follows.step {a s t : State} (h : Follows a s) (hi : Inv s) (hb : s.BUSY = true)
    (hc : coreStep s = .next t) : Follows a t := by
  obtain ⟨hkeybuf, hklen, hdin, hblen⟩ := coreStep_inputs hc
  exact ⟨hkeybuf.trans h.keybuf, hklen.trans h.klen, hdin.trans h.din, hblen.trans h.blen,
    (coreStep_CMDR hc).trans h.cmdr, scheduleInv_coreStep hi hb h.schedule hc⟩

theorem Follows.refl_accept (v : Byte) (s : State) : Follows (accept v s) (accept v s) :=
  ⟨rfl, rfl, rfl, rfl, rfl, scheduleInv_accept v s⟩

/-- The registers that every command `i`, executed in `s` with legal lengths, leaves in `t` (rules R155 to R158). -/
structure Completed (i : Instr) (s t : State) : Prop where
  busy : t.BUSY = false
  done : t.DONE = true
  err : t.ERR = .none
  phase : t.PH = .idle
  nk : t.NK.toNat = s.declaredNk
  nr : t.NR.toNat = s.declaredNr
  ki : t.KI.toNat = 4 * (s.declaredNr + 1)
  cmdr : t.CMDR = i.opByte
  keybuf : t.KEYBUF = s.KEYBUF
  klen : t.KLEN = s.KLEN
  din : t.DIN = s.DIN
  blen : t.BLEN = s.BLEN
  forward : t.SCHED = .forward →
    ∃ ws, expandKey s.key = some ws ∧ wordsAgree t.W ws (4 * s.declaredNr + 4) ∧ ws.length = 4 * s.declaredNr + 4
  inverse : t.SCHED = .inverse →
    ∃ ws, expandKeyInv s.key = some ws ∧ wordsAgree t.W ws (4 * s.declaredNr + 4) ∧ ws.length = 4 * s.declaredNr + 4

theorem key_congr {s t : State} (hk : t.KEYBUF = s.KEYBUF) (hl : t.KLEN = s.KLEN) : t.key = s.key := by
  rw [State.key, State.key, hk, hl]

/-- The last step of a command accepted with legal lengths completes it. -/
theorem Ends.completed {i : Instr} {s u t : State} (h : Ends u t) (hf : i.format = .command)
    (hfollow : Follows (accept i.opByte s) u) (hl : s.inputsLegal i) (hi : Inv u) (hb : u.BUSY = true)
    (hc : coreStep u = .next t) : Completed i s t := by
  have hidle : t.BUSY = false := by cases h <;> rfl
  have hpass : checkError u = none := by
    rw [← (checkError_accept_iff hf).2 hl, checkError, checkError, hfollow.klen, hfollow.blen, hfollow.cmdr]
  obtain ⟨hdone, herr⟩ := h.done hi hb
  obtain ⟨hloaded, hexp, hfwd, hinv⟩ := h.schedule hi hfollow.schedule (herr.2 fun _ => hpass)
  obtain ⟨hkeybuf, hklen, hdin, hblen, hcmdr, -⟩ := hfollow.step hi hb hc
  simp only [accept_KEYBUF, accept_KLEN, accept_DIN, accept_BLEN, accept_CMDR, commandLegal_opByte hf, if_true]
    at hkeybuf hklen hdin hblen hcmdr
  obtain ⟨hnk, hnr⟩ := loaded_declared hloaded
  have hdecl : t.declaredNr = s.declaredNr := by rw [State.declaredNr, hklen, State.declaredNr]
  have hkey := key_congr hkeybuf hklen
  rw [hdecl] at hnr
  refine ⟨hidle, hdone, herr.2 fun _ => hpass, (inv_coreStep hi hb hc).phase_idle hidle, ?_, hnr, ?_, hcmdr, hkeybuf,
    hklen, hdin, hblen, fun hs => ?_, fun hs => ?_⟩
  · rw [hnk, State.declaredNk, hklen, State.declaredNk]
  · rw [← hnr]; exact hexp
  · obtain ⟨ws, hws, hlen, hagree⟩ := hfwd hs
    rw [hkey] at hws
    rw [hnr] at hlen hagree
    exact ⟨ws, hws, hagree, hlen⟩
  · obtain ⟨ws, hws, hlen, hagree⟩ := hinv hs
    rw [hkey] at hws
    rw [hnr] at hlen hagree
    exact ⟨ws, hws, hagree, hlen⟩

/-- The run of a command with legal lengths: it completes after the steps of rule R164, and a predicate that its steps
keep holds before the last one. -/
theorem command_completes {i : Instr} {s : State} (hf : i.format = .command) (hs : s.ready) (hl : s.inputsLegal i)
    {Q : State → Prop} (hQ : ∀ v t, Inv v → v.BUSY = true → Follows (accept i.opByte s) v → Q v →
      coreStep v = .next t → t.BUSY = true → Q t) (ha : Q (accept i.opByte s)) :
    ∃ u t, Inv u ∧ u.BUSY = true ∧ Follows (accept i.opByte s) u ∧ Q u ∧ coreStep u = .next t ∧ Ends u t ∧
      exec i s = .next (accept i.opByte s) ∧
      run (commandSteps i s.declaredNk s.declaredNr) (accept i.opByte s) = .next t ∧ Completed i s t := by
  have hexec : exec i s = .next (accept i.opByte s) := by rw [exec_command i s hf, writeCmd_idle _ _ hs.1]
  obtain ⟨-, hi, hb, ht⟩ := accept_of_exec hf hs hexec
  have hkept : keptWhileBusy fun u => Follows (accept i.opByte s) u ∧ Q u := fun v t hiv hbv ⟨hfv, hqv⟩ hc hbt =>
    ⟨hfv.step hiv hbv hc, hQ v t hiv hbv hfv hqv hc hbt⟩
  obtain ⟨u, t, hiu, hbu, ⟨hfu, hqu⟩, hc, -, hends, hrun⟩ := run_to_end hkept hi hb ht ⟨.refl_accept _ s, ha⟩
  rw [length_pendingOps_accept hf hl] at hrun
  exact ⟨u, t, hiu, hbu, hfu, hqu, hc, hends, hexec, hrun, hends.completed hf hfu hl hiu hbu hc⟩

/-! ### What the schedule commands leave alone (rules R26, R27, R35) -/

/-- The registers of the cipher are those of `a`; for `KEXP` the round counter and the words above the schedule too. -/
def keepsCipherRegisters (a s : State) : Prop :=
  s.S = a.S ∧ s.DOUT = a.DOUT ∧
    (a.CMDR = 0x03 → s.RND = a.RND ∧ ∀ j : Fin 60, scheduleWords a.declaredNr ≤ j.val → s.W[j] = a.W[j])

theorem keepsCipherRegisters.trans {a s t : State} (h : keepsCipherRegisters a s) (h' : keepsCipherRegisters s t)
    (hc : s.CMDR = a.CMDR) (hk : s.KLEN = a.KLEN) : keepsCipherRegisters a t := by
  obtain ⟨hS, hD, h3⟩ := h
  obtain ⟨hS', hD', h3'⟩ := h'
  have hdecl : s.declaredNr = a.declaredNr := by rw [State.declaredNr, hk, State.declaredNr]
  rw [hc, hdecl] at h3'
  refine ⟨hS'.trans hS, hD'.trans hD, fun hcmd => ?_⟩
  obtain ⟨hR, hW⟩ := h3 hcmd
  obtain ⟨hR', hW'⟩ := h3' hcmd
  exact ⟨hR'.trans hR, fun j hj => (hW' j hj).trans (hW j hj)⟩

/-- Each step of a schedule command (rules R117 to R119, R159). -/
theorem coreStep_keepsCipherRegisters {s t : State} (hi : Inv s) (hb : s.BUSY = true)
    (hc : s.CMDR = 0x03 ∨ s.CMDR = 0x04) (ht : coreStep s = .next t) : keepsCipherRegisters s t := by
  have hreach := phaseReachable_of_inv s hi hb
  have hphase := hi.phase
  have hblock : ¬commandUsesBlock s.CMDR = true := by rcases hc with hc | hc <;> rw [hc] <;> decide
  cases h : s.PH <;> simp only [State.phaseInv, h] at hphase
  case idle => exact absurd h (hi.busy_iff_phase.1 hb)
  case check =>
    rw [coreStep_check s h hreach] at ht
    cases hce : checkError s <;> rw [hce] at ht <;> cases ht <;> exact ⟨rfl, rfl, fun _ => ⟨rfl, fun _ _ => rfl⟩⟩
  case kload =>
    obtain ⟨-, -, hkl, -⟩ := hphase
    rw [coreStep_kload s h hreach hkl] at ht
    cases ht
    refine ⟨rfl, rfl, fun _ => ⟨rfl, fun j hj => loadKey_get_above _ _ _ _ ?_⟩⟩
    simp only [scheduleWords, State.declaredNr] at hj
    omega
  case kexp =>
    obtain ⟨hl, -, hki, -⟩ := kexp_bounds hi h
    obtain ⟨-, hnr⟩ := loaded_declared hl
    have habove : ∀ x (j : Fin 60), scheduleWords s.declaredNr ≤ j.val → (kstepResult x s).W[j] = s.W[j] :=
      fun x j hj => kstepResult_word_ne x s j (by rw [← hnr] at hj; omega)
    obtain ⟨x, -, ⟨-, ⟨-, rfl⟩ | ⟨-, rfl⟩ | ⟨hc', rfl⟩⟩ | ⟨-, rfl⟩⟩ := coreStep_kexp_cases hi hb h ht
    case inr => exact ⟨rfl, rfl, fun _ => ⟨rfl, habove x⟩⟩
    case inl.inl => exact ⟨rfl, rfl, fun _ => ⟨rfl, habove x⟩⟩
    case inl.inr.inl => exact ⟨rfl, rfl, fun _ => ⟨rfl, habove x⟩⟩
    case inl.inr.inr =>
      refine ⟨rfl, rfl, fun h3 => ?_⟩
      rw [h3] at hc'
      exact absurd hc' (by decide)
  case kinv =>
    have h3 : s.CMDR ≠ 0x03 := by
      obtain ⟨-, -, hc', -⟩ := hphase
      rcases hc' with hc' | hc' <;> rw [hc'] <;> decide
    obtain ⟨-, w, -, ⟨-, ⟨-, rfl⟩ | ⟨-, rfl⟩⟩ | ⟨-, rfl⟩⟩ := coreStep_kinv_cases hi hb h ht <;>
      exact ⟨rfl, rfl, fun hcmd => absurd hcmd h3⟩
  all_goals
    obtain ⟨-, -, huse⟩ := hphase
    exact absurd (by tauto) hblock

/-- The run of a schedule command, with what its last step and the steps before it leave alone. -/
theorem scheduleCommand_completes {i : Instr} {s : State} (hf : i.format = .command)
    (hop : i.opByte = 0x03 ∨ i.opByte = 0x04) (hs : s.ready) (hl : s.inputsLegal i) :
    ∃ u t, Inv u ∧ u.CMDR = i.opByte ∧ Ends u t ∧ exec i s = .next (accept i.opByte s) ∧
      run (commandSteps i s.declaredNk s.declaredNr) (accept i.opByte s) = .next t ∧ Completed i s t ∧
      keepsCipherRegisters (accept i.opByte s) t := by
  have hcmd : (accept i.opByte s).CMDR = i.opByte := by simp [commandLegal_opByte hf]
  have hstep : ∀ v t, Inv v → v.BUSY = true → Follows (accept i.opByte s) v →
      keepsCipherRegisters (accept i.opByte s) v → coreStep v = .next t →
      keepsCipherRegisters (accept i.opByte s) t := fun v t hiv hbv hfv hqv hc =>
    hqv.trans (coreStep_keepsCipherRegisters hiv hbv (by rwa [hfv.cmdr, hcmd]) hc) hfv.cmdr hfv.klen
  obtain ⟨u, t, hiu, hbu, hfu, hqu, hc, hends, hexec, hrun, hcompl⟩ :=
    command_completes hf hs hl (fun v t hiv hbv hfv hqv hc _ => hstep v t hiv hbv hfv hqv hc)
      ⟨rfl, rfl, fun _ => ⟨rfl, fun _ _ => rfl⟩⟩
  exact ⟨u, t, hiu, hfu.cmdr.trans hcmd, hends, hexec, hrun, hcompl, hstep u t hiu hbu hfu hqu hc⟩

/-- Settles O47: the run ends with the last word of the forward schedule, and no step touches the cipher's registers. -/
theorem kexpBuildsTheForwardSchedule : Obligations.KexpBuildsTheForwardSchedule := by
  unfold Obligations.KexpBuildsTheForwardSchedule
  intro s hs hl
  obtain ⟨u, t, hi, hcmd, hends, hexec, hrun, hcompl, hS, hD, hrest⟩ :=
    scheduleCommand_completes (i := .kexp) rfl (.inl rfl) hs hl
  obtain ⟨hR, hW⟩ := hrest (by simp [Instr.opByte, commandLegal])
  have hend : t.SCHED = .forward ∧ t.OUT_VALID = false := by
    cases hends with
    | raise e hp he => exact absurd hcompl.err (checkError_ne_none he)
    | forward x hp hc hx hlast => exact ⟨rfl, rfl⟩
    | inverse hr w hp hc hw hlast => rw [hcmd] at hc; cases hc
    | cipher out hp hout =>
      have hphase := hi.phase
      simp [State.phaseInv, hp, hcmd, Instr.opByte, commandUsesBlock] at hphase
  obtain ⟨hsched, hout⟩ := hend
  obtain ⟨ws, hws, hagree, hlen⟩ := hcompl.forward hsched
  refine ⟨_, t, ws, hexec, hrun, hws, hagree, hlen, hcompl.nk, hcompl.nr, ?status, hcompl.err, hcompl.phase, hcompl.ki,
    by simpa using hS, by simpa using hD, by simpa using hR, hcompl.cmdr, fun j hj => ?above, hcompl.keybuf,
    hcompl.klen, hcompl.din, hcompl.blen⟩
  case status => rw [State.statusByte, hcompl.busy, hcompl.done, hout, hsched]; decide
  case above => simpa using hW j (by simpa [scheduleWords, State.declaredNr, Nat.mul_add] using hj)

/-- Settles O48: the run ends with the last round key that is converted, and no step touches `S` and `DOUT`. -/
theorem kexpiBuildsTheInverseSchedule : Obligations.KexpiBuildsTheInverseSchedule := by
  unfold Obligations.KexpiBuildsTheInverseSchedule
  intro s hs hl
  obtain ⟨u, t, hi, hcmd, hends, hexec, hrun, hcompl, hS, hD, -⟩ :=
    scheduleCommand_completes (i := .kexpi) rfl (.inr rfl) hs hl
  have hend : t.SCHED = .inverse ∧ t.OUT_VALID = false ∧ t.RND.toNat + 1 = t.NR.toNat := by
    cases hends with
    | raise e hp he => exact absurd hcompl.err (checkError_ne_none he)
    | forward x hp hc hx hlast => rw [hcmd] at hc; cases hc
    | inverse hr w hp hc hw hlast => exact ⟨rfl, rfl, hlast⟩
    | cipher out hp hout =>
      have hphase := hi.phase
      simp [State.phaseInv, hp, hcmd, Instr.opByte, commandUsesBlock] at hphase
  obtain ⟨hsched, hout, hround⟩ := hend
  obtain ⟨ws, hws, hagree, hlen⟩ := hcompl.inverse hsched
  refine ⟨_, t, ws, hexec, hrun, hws, hagree, hlen, hcompl.nk, hcompl.nr, ?status, hcompl.err, hcompl.phase,
    hround.trans hcompl.nr, hcompl.ki, by simpa using hS, by simpa using hD, hcompl.cmdr, hcompl.keybuf, hcompl.klen,
    hcompl.din, hcompl.blen⟩
  case status => rw [State.statusByte, hcompl.busy, hcompl.done, hout, hsched]; decide

end Sys2Proof.Machine

/-! ## O51: the ciphers undo each other (rules R121, R161 to R163) -/

namespace Sys2Proof.Machine

/-! ### The two pipelines as one, by the direction -/

/-- The substitution of the pipeline, of `ENC` or of `DEC`. -/
def subBy (enc : Bool) (m : Mat) : Mat := if enc then subBytes m else invSubBytes m

/-- The row shift of the pipeline. -/
def shiftBy (enc : Bool) (m : Mat) : Mat := if enc then shiftRows m else invShiftRows m

/-- The column mix of the pipeline. -/
def mixBy (enc : Bool) (m : Mat) : Mat := mixedColumns m (if enc then mixMatrix else invMixMatrix)

/-- A round before the last one, with the round keys `k` (rules R161, R162). -/
def roundBy (enc : Bool) (k : Nat → Mat) (m : Mat) (r : Nat) : Mat :=
  xorMat (mixBy enc (shiftBy enc (subBy enc m))) (k r)

/-- The number of the round with `n` rounds after it: `ENC` counts up to `nr`, `DEC` down to 0 (rule R35). -/
def roundNumber (enc : Bool) (nr n : Nat) : Nat := if enc then nr - n else n

/-- The numbers of the last `n` rounds before the last one, in their order. -/
def innerRounds (enc : Bool) (nr n : Nat) : List Nat :=
  if enc then List.range' (nr - n) n else (List.range' 1 n).reverse

/-- The pipeline with `n` rounds to go before the last one, which does not mix. -/
def runRounds (enc : Bool) (k : Nat → Mat) (nr n : Nat) (m : Mat) : Mat :=
  xorMat (shiftBy enc (subBy enc ((innerRounds enc nr n).foldl (roundBy enc k) m))) (k (roundNumber enc nr 0))

/-- The whole pipeline: the first key addition, then the rounds. -/
def cipherValue (enc : Bool) (k : Nat → Mat) (nr : Nat) (m : Mat) : Mat :=
  runRounds enc k nr (nr - 1) (xorMat m (k (roundNumber enc nr nr)))

/-! ### Each direction undoes the other -/

theorem shiftBy_subBy_undo (enc : Bool) (m : Mat) :
    shiftBy (!enc) (subBy (!enc) (shiftBy enc (subBy enc m))) = m := by
  cases enc
  · show shiftRows (subBytes (invShiftRows (invSubBytes m))) = m
    rw [shiftRows_subBytes, shiftRows_invShiftRows, subBytes_invSubBytes]
  · show invShiftRows (invSubBytes (shiftRows (subBytes m))) = m
    rw [invShiftRows_invSubBytes, invShiftRows_shiftRows, invSubBytes_subBytes]

theorem mixBy_undo (enc : Bool) (m : Mat) : mixBy (!enc) (mixBy enc m) = m := by
  cases enc
  · exact mixedColumns_invMix_mix m
  · exact mixedColumns_mix_invMix m

theorem mixBy_xorMat (enc : Bool) (a b : Mat) : mixBy enc (xorMat a b) = xorMat (mixBy enc a) (mixBy enc b) :=
  mixedColumns_xorMat a b _

theorem innerRounds_not (enc : Bool) (nr : Nat) (h : 1 ≤ nr) :
    innerRounds (!enc) nr (nr - 1) = (innerRounds enc nr (nr - 1)).reverse := by
  have h1 : nr - (nr - 1) = 1 := by omega
  cases enc <;> simp [innerRounds, h1]

theorem mem_innerRounds {enc : Bool} {nr r : Nat} (h : 1 ≤ nr) (hr : r ∈ innerRounds enc nr (nr - 1)) :
    1 ≤ r ∧ r < nr := by
  cases enc <;> simp [innerRounds] at hr <;> omega

/-- The round keys `k'` of the other direction: those of the inner rounds are mixed, the outer two are the same
(rule R121). -/
def oppositeKeys (enc : Bool) (nr : Nat) (k k' : Nat → Mat) : Prop :=
  k' 0 = k 0 ∧ k' nr = k nr ∧ ∀ r, 1 ≤ r → r < nr → k' r = mixBy (!enc) (k r)

theorem oppositeKeys.symm {enc : Bool} {nr : Nat} {k k' : Nat → Mat} (h : oppositeKeys enc nr k k') :
    oppositeKeys (!enc) nr k' k := by
  obtain ⟨h0, hn, hinner⟩ := h
  refine ⟨h0.symm, hn.symm, fun r h1 h2 => ?_⟩
  rw [hinner r h1 h2, mixBy_undo]

/-- A round of the other direction with the mixed key undoes the round, seen between substitution and mix. -/
theorem roundBy_undo {enc : Bool} {k k' : Nat → Mat} {r : Nat} (hk : k' r = mixBy (!enc) (k r)) (m : Mat) :
    roundBy (!enc) k' (shiftBy enc (subBy enc (roundBy enc k m r))) r = shiftBy enc (subBy enc m) := by
  rw [roundBy, shiftBy_subBy_undo, roundBy, mixBy_xorMat, mixBy_undo, hk, xorMat_cancel]

/-- The rounds in reverse order, each undone. -/
theorem foldl_roundBy_undo {enc : Bool} {k k' : Nat → Mat} (rs : List Nat)
    (hk : ∀ r ∈ rs, k' r = mixBy (!enc) (k r)) (m : Mat) :
    rs.reverse.foldl (roundBy (!enc) k') (shiftBy enc (subBy enc (rs.foldl (roundBy enc k) m))) =
      shiftBy enc (subBy enc m) := by
  induction rs generalizing m with
  | nil => rfl
  | cons r rs ih =>
    rw [List.foldl_cons, List.reverse_cons, List.foldl_append, ih (fun q hq => hk q (by simp [hq])), List.foldl_cons,
      List.foldl_nil, roundBy_undo (hk r (by simp))]

/-- With the opposite keys the other direction undoes the cipher. -/
theorem cipherValue_undo {enc : Bool} {nr : Nat} {k k' : Nat → Mat} (h : 1 ≤ nr) (hk : oppositeKeys enc nr k k')
    (m : Mat) : cipherValue (!enc) k' nr (cipherValue enc k nr m) = m := by
  obtain ⟨h0, hn, hinner⟩ := hk
  have hfirst : k' (roundNumber (!enc) nr nr) = k (roundNumber enc nr 0) := by
    cases enc <;> simp [roundNumber, h0, hn]
  have hlast : k' (roundNumber (!enc) nr 0) = k (roundNumber enc nr nr) := by
    cases enc <;> simp [roundNumber, h0, hn]
  unfold cipherValue runRounds
  rw [hfirst, xorMat_cancel, innerRounds_not enc nr h, foldl_roundBy_undo, shiftBy_subBy_undo, hlast, xorMat_cancel]
  intro r hr
  obtain ⟨h1, h2⟩ := mem_innerRounds h hr
  exact hinner r h1 h2

/-! ### The ciphers of rules R161, R162 by the pipeline -/

theorem foldlM_eq_some_foldl {α β : Type} {f : β → α → Option β} {g : β → α → β} (l : List α)
    (h : ∀ b, ∀ a ∈ l, f b a = some (g b a)) (b : β) : l.foldlM f b = some (l.foldl g b) := by
  induction l generalizing b with
  | nil => rfl
  | cons a l ih =>
    rw [List.foldlM_cons, h b a (by simp), List.foldl_cons]
    exact ih (fun c x hx => h c x (by simp [hx])) _

section
variable {key : List Byte} {nr : Nat} {ws : List Word} {k : Nat → Mat} (hnr : nrOf key.length = some nr)
  (h1 : 1 ≤ nr) (hk : ∀ r, r ≤ nr → keyMatrix ws r = some (k r))
include hnr h1 hk

theorem cipher_eq (hws : expandKey key = some ws) (p : Block) :
    cipher p key = some (matrixToBlock (cipherValue true k nr (blockToMatrix p))) := by
  have hround : ∀ m, ∀ r ∈ List.range' 1 (nr - 1), cipherRound ws m r = some (roundBy true k m r) := fun m r hr => by
    have hr' : r ≤ nr := by simp at hr; omega
    simp only [cipherRound, mixColumns_mix, hk r hr', Option.bind_eq_bind, Option.bind_some]
    rfl
  have hinner : innerRounds true nr (nr - 1) = List.range' 1 (nr - 1) := by
    simp [innerRounds, show nr - (nr - 1) = 1 by omega]
  simp only [cipher, hnr, hws, hk 0 (by omega), hk nr le_rfl, foldlM_eq_some_foldl _ hround, Option.bind_eq_bind,
    Option.bind_some, cipherValue, runRounds, hinner, roundNumber, Nat.sub_self]
  rfl

theorem invCipher_eq (hws : expandKeyInv key = some ws) (p : Block) :
    invCipher p key = some (matrixToBlock (cipherValue false k nr (blockToMatrix p))) := by
  have hround : ∀ m, ∀ r ∈ (List.range' 1 (nr - 1)).reverse, invCipherRound ws m r = some (roundBy false k m r) :=
    fun m r hr => by
      have hr' : r ≤ nr := by simp at hr; omega
      simp only [invCipherRound, mixColumns_inv, hk r hr', Option.bind_eq_bind, Option.bind_some]
      rfl
  simp only [invCipher, hnr, hws, hk 0 (by omega), hk nr le_rfl, foldlM_eq_some_foldl _ hround, Option.bind_eq_bind,
    Option.bind_some]
  rfl

end

/-! ### The round keys in the schedule memory (rules R121, R134) -/

/-- Round key `r` of the schedule memory; there are 15, and numbers above wrap. -/
def scheduleKey (w : Vector Word 60) (r : Nat) : Mat := roundKey w (r % 15) (Nat.mod_lt _ (by decide))

theorem scheduleKey_eq (w : Vector Word 60) (r : Nat) (h : r < 15) : scheduleKey w r = roundKey w r h := by
  simp only [scheduleKey, Nat.mod_eq_of_lt h]

theorem column_roundKey (w : Vector Word 60) (r : Nat) (h : r < 15) (c : Fin 4) :
    column (roundKey w r h) c = w[4 * r + c.val] :=
  word_ext fun i => by rw [column_get, roundKey_get]

theorem keyMatrix_of_wordsAgree {w : Vector Word 60} {ws : List Word} {n r : Nat} (h : wordsAgree w ws n)
    (hr : 4 * r + 4 ≤ n) (hn : n ≤ 60) : keyMatrix ws r = some (scheduleKey w r) := by
  have hword : ∀ j (hj : j < n), ws[j]? = some w[j] := fun j hj => h ⟨j, by omega⟩ hj
  rw [scheduleKey_eq w r (by omega), roundKey_eq_blockToMatrix, keyMatrix, hword (4 * r) (by omega),
    hword (4 * r + 1) (by omega), hword (4 * r + 2) (by omega), hword (4 * r + 3) (by omega)]
  rfl

/-- A list of at most 60 words fits the schedule memory. -/
theorem exists_wordsAgree (ws : List Word) (n : Nat) (h : n ≤ ws.length) : ∃ w, wordsAgree w ws n :=
  ⟨Vector.ofFn fun j => ws[j.val]?.getD zeroWord, fun j hj => by simp [List.getElem?_eq_getElem (hj.trans_le h)]⟩

/-- The round keys of the equivalent inverse schedule are the mixed keys in the inner rounds (rule R121). -/
theorem oppositeKeys_of_inverse {w v : Vector Word 60} {ws dw : List Word} {nr : Nat} (hnr : nr < 15)
    (hw : wordsAgree w ws (4 * nr + 4)) (hv : wordsAgree v dw (4 * nr + 4))
    (hinv : ∀ i x, ws[i]? = some x → dw[i]? = invertWord nr i x) :
    oppositeKeys true nr (scheduleKey w) (scheduleKey v) := by
  have hword : ∀ r (c : Fin 4) (hr : r ≤ nr), invertWord nr (4 * r + c.val) w[4 * r + c.val] = some v[4 * r + c.val] :=
    fun r c hr => (hinv _ _ (hw ⟨4 * r + c.val, by omega⟩ (by simp; omega))).symm.trans
      (hv ⟨4 * r + c.val, by omega⟩ (by simp; omega))
  have houter : ∀ r, r ≤ nr → ¬(1 ≤ r ∧ r < nr) → scheduleKey v r = scheduleKey w r := fun r hr hout => by
    rw [scheduleKey_eq v r (by omega), scheduleKey_eq w r (by omega)]
    refine mat_ext_column fun c => ?_
    have hdiv : (4 * r + c.val) / 4 = r := by omega
    have h := hword r c hr
    rw [invertWord, hdiv, if_neg hout, Option.some.injEq] at h
    rw [column_roundKey, column_roundKey, h]
  refine ⟨houter 0 (by omega) (by omega), houter nr le_rfl (by omega), fun r h1 h2 => ?_⟩
  rw [scheduleKey_eq v r (by omega), scheduleKey_eq w r (by omega)]
  refine mat_ext_column fun c => ?_
  have hdiv : (4 * r + c.val) / 4 = r := by omega
  have h := hword r c h2.le
  rw [invertWord, hdiv, if_pos ⟨h1, h2⟩, mixColumn_inv, Option.some.injEq] at h
  rw [column_roundKey, ← h, ← column_roundKey w r (by omega) c]
  exact (column_mixedColumns _ _ c).symm

/-- Both ciphers of a legal key, by the pipeline, with opposite round keys. -/
theorem ciphers_of_key (key : List Byte) (h : key.length = 16 ∨ key.length = 24 ∨ key.length = 32) :
    ∃ (nr : Nat) (k k' : Nat → Mat), 1 ≤ nr ∧ oppositeKeys true nr k k' ∧
      (∀ p, cipher p key = some (matrixToBlock (cipherValue true k nr (blockToMatrix p)))) ∧
      ∀ p, invCipher p key = some (matrixToBlock (cipherValue false k' nr (blockToMatrix p))) := by
  obtain ⟨nk, hmem, hlen⟩ : ∃ nk ∈ [4, 6, 8], key.length = 4 * nk := by
    rcases h with h | h | h
    exacts [⟨4, by simp, h⟩, ⟨6, by simp, h⟩, ⟨8, by simp, h⟩]
  have hnr : nrOf key.length = some (nk + 6) := by
    simp at hmem
    rcases hmem with rfl | rfl | rfl <;> simp [nrOf, hlen]
  have h15 : nk + 6 < 15 := by simp at hmem; omega
  obtain ⟨ws, hws, hwl, -⟩ := expandKey_spec key nk hmem hlen
  obtain ⟨dw, hdw, hdl, hinv⟩ := expandKeyInv_spec key (nk + 6) ws hnr hws
  obtain ⟨w, hw⟩ := exists_wordsAgree ws (4 * (nk + 6) + 4) (by rw [hwl, scheduleWords]; omega)
  obtain ⟨v, hv⟩ := exists_wordsAgree dw (4 * (nk + 6) + 4) (by rw [hdl, hwl, scheduleWords]; omega)
  refine ⟨nk + 6, scheduleKey w, scheduleKey v, by omega, oppositeKeys_of_inverse h15 hw hv hinv, ?_, ?_⟩
  · exact cipher_eq hnr (by omega) (fun r hr => keyMatrix_of_wordsAgree hw (by omega) (by omega)) hws
  · exact invCipher_eq hnr (by omega) (fun r hr => keyMatrix_of_wordsAgree hv (by omega) (by omega)) hdw

/-- Settles O51: with opposite round keys each direction of the pipeline undoes the other round by round. -/
theorem ciphersUndoEachOther : Obligations.CiphersUndoEachOther := by
  unfold Obligations.CiphersUndoEachOther
  intro key p hlen
  obtain ⟨nr, k, k', h1, hk, hcipher, hinv⟩ := ciphers_of_key key hlen
  refine ⟨⟨_, hcipher p, ?_⟩, _, hinv p, ?_⟩
  · rw [hinv, blockToMatrix_matrixToBlock]
    exact congrArg some ((congrArg matrixToBlock (cipherValue_undo h1 hk _)).trans (matrixToBlock_blockToMatrix p))
  · rw [hcipher, blockToMatrix_matrixToBlock]
    exact congrArg some ((congrArg matrixToBlock (cipherValue_undo h1 hk.symm _)).trans (matrixToBlock_blockToMatrix p))

end Sys2Proof.Machine

/-! ## O45, O46: the ciphers from acceptance to completion (rules R155, R156, R159 to R162) -/

namespace Sys2Proof.Machine

/-! ### The matrix that the rounds still to run will leave -/

/-- What the rounds after the round in progress make of the matrix that its key addition leaves. -/
def State.afterRound (s : State) (m : Mat) : Mat :=
  if s.isFinal then m else runRounds s.isEnc (scheduleKey s.W) s.NR.toNat (s.roundsLeft - 1) m

/-- The cipher of the input block under the round keys in `W`. -/
def State.cipherGoal (s : State) : Mat :=
  cipherValue s.isEnc (scheduleKey s.W) s.NR.toNat (blockToMatrix s.DIN)

/-- What the operations still to be issued make of `S`, read from the sequencing registers. -/
def State.cipherResult (s : State) : Mat :=
  match s.PH with
  | .idle | .check | .kload | .kexp | .kinv | .load => s.cipherGoal
  | .ark0 =>
    runRounds s.isEnc (scheduleKey s.W) s.NR.toNat (s.NR.toNat - 1) (xorMat s.S (scheduleKey s.W s.RND.toNat))
  | .sub => runRounds s.isEnc (scheduleKey s.W) s.NR.toNat s.roundsLeft s.S
  | .shift =>
    let m := shiftBy s.isEnc s.S
    s.afterRound (xorMat (if s.isFinal then m else mixBy s.isEnc m) (scheduleKey s.W s.RND.toNat))
  | .mix => s.afterRound (xorMat (mixBy s.isEnc s.S) (scheduleKey s.W s.RND.toNat))
  | .ark => s.afterRound (xorMat s.S (scheduleKey s.W s.RND.toNat))
  | .store => s.S

/-- The run is on its way to the cipher of the input block. -/
def State.onCourse (s : State) : Prop := s.cipherResult = s.cipherGoal

theorem innerRounds_succ {enc : Bool} {nr n : Nat} (h : n + 1 ≤ nr) :
    innerRounds enc nr (n + 1) = roundNumber enc nr (n + 1) :: innerRounds enc nr n := by
  cases enc
  · simp [innerRounds, roundNumber, List.range'_concat, Nat.add_comm]
  · have hnext : nr - (n + 1) + 1 = nr - n := by omega
    simp [innerRounds, roundNumber, List.range'_succ, hnext]

theorem runRounds_zero (enc : Bool) (k : Nat → Mat) (nr : Nat) (m : Mat) :
    runRounds enc k nr 0 m = xorMat (shiftBy enc (subBy enc m)) (k (roundNumber enc nr 0)) := by
  cases enc <;> rfl

theorem runRounds_succ {enc : Bool} {k : Nat → Mat} {nr n : Nat} (h : n + 1 ≤ nr) (m : Mat) :
    runRounds enc k nr (n + 1) m = runRounds enc k nr n (roundBy enc k m (roundNumber enc nr (n + 1))) := by
  rw [runRounds, innerRounds_succ h, List.foldl_cons, runRounds]

/-- `RND` is the number of the round in progress, the rounds left being those after it (rule R35). -/
theorem round_eq_roundNumber {s : State} (hr : s.roundInRange) :
    s.RND.toNat = roundNumber s.isEnc s.NR.toNat s.roundsLeft ∧ s.roundsLeft ≤ s.NR.toNat := by
  cases henc : s.isEnc
  · rw [roundInRange_dec henc] at hr
    rw [roundsLeft_dec henc]
    exact ⟨by simp [roundNumber], by omega⟩
  · rw [roundInRange_enc henc] at hr
    rw [roundsLeft_enc henc]
    simp only [roundNumber, if_true]
    omega

/-- The rounds left, taken apart as the phases run them. -/
theorem runRounds_roundsLeft {s : State} (hr : s.roundInRange) (m : Mat) :
    runRounds s.isEnc (scheduleKey s.W) s.NR.toNat s.roundsLeft m =
      let x := shiftBy s.isEnc (subBy s.isEnc m)
      s.afterRound (xorMat (if s.isFinal then x else mixBy s.isEnc x) (scheduleKey s.W s.RND.toNat)) := by
  have hf := isFinal_iff_roundsLeft hr
  obtain ⟨hnum, hle⟩ := round_eq_roundNumber hr
  unfold State.afterRound
  cases hn : s.roundsLeft with
  | zero =>
    rw [hn] at hnum
    simp only [hf.2 hn, if_true, runRounds_zero, hnum]
  | succ n =>
    have hnf : ¬s.isFinal = true := fun h => by rw [hf.1 h] at hn; cases hn
    rw [hn] at hnum hle
    simp only [if_neg hnf, runRounds_succ hle, hnum, roundBy, Nat.add_sub_cancel]

/-! ### Every step of the rounds leaves that matrix as it is (rule R159) -/

section
variable {s t : State} (hi : Inv s) (hb : s.BUSY = true)
include hi hb

theorem cipherResult_load (h : s.PH = .load) (ht : coreStep s = .next t) : t.cipherResult = s.cipherResult := by
  rw [coreStep_load s h (phaseReachable_of_inv s hi hb)] at ht
  cases ht
  have hround : (if s.isEnc then 0 else s.NR).toNat = roundNumber s.isEnc s.NR.toNat s.NR.toNat := by
    cases s.isEnc <;> simp [roundNumber]
  simp only [State.cipherResult, h, hround]
  rfl

theorem cipherResult_ark0 (h : s.PH = .ark0) (ht : coreStep s = .next t) : t.cipherResult = s.cipherResult := by
  have hround := ark_round_lt hi (.inl h)
  have hp := hi.phase
  simp only [State.phaseInv, h] at hp
  obtain ⟨hl, -⟩ := hp
  rw [coreStep_ark0 s h (phaseReachable_of_inv s hi hb) hround, ← scheduleKey_eq] at ht
  have hleft : t.roundsLeft = s.NR.toNat - 1 := by cases ht; exact roundsLeft_first hl rfl rfl rfl
  have hres : t.cipherResult = runRounds s.isEnc (scheduleKey s.W) s.NR.toNat t.roundsLeft
      (xorMat s.S (scheduleKey s.W s.RND.toNat)) := by cases ht; rfl
  rw [hres, hleft]
  simp only [State.cipherResult, h]

theorem cipherResult_sub (h : s.PH = .sub) (ht : coreStep s = .next t) : t.cipherResult = s.cipherResult := by
  rw [coreStep_sub s h (phaseReachable_of_inv s hi hb)] at ht
  cases ht
  have hp := hi.phase
  simp only [State.phaseInv, h] at hp
  obtain ⟨-, -, -, hr⟩ := hp
  simp only [State.cipherResult, h, runRounds_roundsLeft hr]
  rfl

theorem cipherResult_shift (h : s.PH = .shift) (ht : coreStep s = .next t) : t.cipherResult = s.cipherResult := by
  rw [coreStep_shift s h (phaseReachable_of_inv s hi hb)] at ht
  cases ht
  cases hf : s.isFinal <;> simp only [State.cipherResult, h, hf] <;> rfl

theorem cipherResult_mix (h : s.PH = .mix) (ht : coreStep s = .next t) : t.cipherResult = s.cipherResult := by
  rw [coreStep_mix s h (phaseReachable_of_inv s hi hb)] at ht
  cases ht
  simp only [State.cipherResult, h]
  rfl

theorem cipherResult_ark (h : s.PH = .ark) (ht : coreStep s = .next t) : t.cipherResult = s.cipherResult := by
  have hround := ark_round_lt hi (.inr h)
  have hp := hi.phase
  simp only [State.phaseInv, h] at hp
  obtain ⟨hl, -, -, hr⟩ := hp
  rw [coreStep_ark s h (phaseReachable_of_inv s hi hb) hround, ← scheduleKey_eq] at ht
  have hres : s.cipherResult = s.afterRound (xorMat s.S (scheduleKey s.W s.RND.toNat)) := by
    simp only [State.cipherResult, h]
  rw [hres, State.afterRound]
  cases hf : s.isFinal <;> simp only [hf] at ht
  · have hleft : t.roundsLeft = s.roundsLeft - 1 := by cases ht; exact roundsLeft_next hl hr hf rfl rfl rfl
    have hnext : t.cipherResult = runRounds s.isEnc (scheduleKey s.W) s.NR.toNat t.roundsLeft
        (xorMat s.S (scheduleKey s.W s.RND.toNat)) := by cases ht; rfl
    rw [hnext, hleft]
    rfl
  · cases ht
    rfl

/-- Before the rounds nothing of the cipher has been computed; a step leads to phase `LOAD` at the latest. -/
theorem phase_before_rounds (h : s.PH ∈ [Phase.check, .kload, .kexp, .kinv]) (ht : coreStep s = .next t)
    (hbt : t.BUSY = true) : t.PH ∈ [Phase.kload, .kexp, .kinv, .load] := by
  have hreach := phaseReachable_of_inv s hi hb
  simp only [List.mem_cons, List.not_mem_nil, or_false] at h
  rcases h with h | h | h | h
  · rw [coreStep_check s h hreach] at ht
    cases hc : checkError s <;> rw [hc] at ht <;> cases ht
    · simp
    · cases hbt
  · have hp := hi.phase
    simp only [State.phaseInv, h] at hp
    obtain ⟨-, -, hkl, -⟩ := hp
    rw [coreStep_kload s h hreach hkl] at ht
    cases ht
    simp
  · obtain ⟨x, -, ⟨-, ⟨-, rfl⟩ | ⟨-, rfl⟩ | ⟨-, rfl⟩⟩ | ⟨-, rfl⟩⟩ := coreStep_kexp_cases hi hb h ht
    · cases hbt
    · simp
    · simp
    · simp [kstepResult, h]
  · obtain ⟨-, w, -, ⟨-, ⟨-, rfl⟩ | ⟨-, rfl⟩⟩ | ⟨-, rfl⟩⟩ := coreStep_kinv_cases hi hb h ht
    · cases hbt
    · simp
    · simp [h]

/-- A step of a command that goes on keeps the run on its course: before the rounds there is nothing to keep, and in the
rounds neither the result nor the goal changes. -/
theorem onCourse_step (hs : s.onCourse) (ht : coreStep s = .next t) (hbt : t.BUSY = true) : t.onCourse := by
  have hbefore : t.PH ∈ [Phase.kload, .kexp, .kinv, .load] → t.onCourse := fun hp => by
    simp only [List.mem_cons, List.not_mem_nil, or_false] at hp
    rcases hp with hp | hp | hp | hp <;> simp only [State.onCourse, State.cipherResult, hp]
  have hrounds : s.PH ∈ [Phase.load, .ark0, .sub, .shift, .mix, .ark] → t.cipherResult = s.cipherResult →
      t.onCourse := fun hp hres => by
    obtain ⟨hframe, -⟩ := coreStep_round_frame hi hb hp ht
    rw [State.onCourse, hres, hs, hframe]
    rfl
  cases h : s.PH with
  | idle => exact absurd h (hi.busy_iff_phase.1 hb)
  | check | kload | kexp | kinv => exact hbefore (phase_before_rounds hi hb (by simp [h]) ht hbt)
  | load => exact hrounds (by simp [h]) (cipherResult_load hi hb h ht)
  | ark0 => exact hrounds (by simp [h]) (cipherResult_ark0 hi hb h ht)
  | sub => exact hrounds (by simp [h]) (cipherResult_sub hi hb h ht)
  | shift => exact hrounds (by simp [h]) (cipherResult_shift hi hb h ht)
  | mix => exact hrounds (by simp [h]) (cipherResult_mix hi hb h ht)
  | ark => exact hrounds (by simp [h]) (cipherResult_ark hi hb h ht)
  | store =>
    rw [coreStep_store s h (phaseReachable_of_inv s hi hb)] at ht
    cases ht
    cases hbt

end

/-! ### The two cipher commands -/

/-- The run of a cipher command ends with `STST`, which stores the cipher of the input block. -/
theorem cipherCommand_completes {i : Instr} {s : State} (hf : i.format = .command)
    (hop : i.opByte = 0x01 ∨ i.opByte = 0x02) (hs : s.ready) (hl : s.inputsLegal i) :
    ∃ t, exec i s = .next (accept i.opByte s) ∧
      run (commandSteps i s.declaredNk s.declaredNr) (accept i.opByte s) = .next t ∧ Completed i s t ∧
      t.OUT_VALID = true ∧ t.SCHED = (if i.opByte = 0x01 then .forward else .inverse) ∧
      t.RND = (if i.opByte = 0x01 then t.NR else 0) ∧ t.DOUT = matrixToBlock t.S ∧ t.S = t.cipherGoal := by
  have hcmd : (accept i.opByte s).CMDR = i.opByte := by simp [commandLegal_opByte hf]
  have hstart : (accept i.opByte s).onCourse := by
    simp [State.onCourse, State.cipherResult, commandLegal_opByte hf]
  obtain ⟨u, t, hi, hb, hfu, hcourse, -, hends, hexec, hrun, hcompl⟩ :=
    command_completes hf hs hl (fun v t hiv hbv _ hv hc hbt => onCourse_step hiv hbv hv hc hbt) hstart
  have hcu : u.CMDR = i.opByte := hfu.cmdr.trans hcmd
  cases hends with
  | raise e hp he => exact absurd hcompl.err (checkError_ne_none he)
  | forward x hp hc hx hlast => rw [hcu] at hc; rw [hc] at hop; exact absurd hop (by decide)
  | inverse hr w hp hc hw hlast => rw [hcu] at hc; rw [hc] at hop; exact absurd hop (by decide)
  | cipher out hp hout =>
    have hphase := hi.phase
    simp only [State.phaseInv, hp] at hphase
    obtain ⟨-, -, -, hfinal⟩ := hphase
    simp only [State.onCourse, State.cipherResult, hp] at hcourse
    have henc : u.isEnc = decide (i.opByte = 0x01) := by simp [State.isEnc, hcu]; rfl
    refine ⟨_, hexec, hrun, hcompl, rfl, ?sched, ?round, hout, hcourse⟩
    case sched => simp [henc]
    case round =>
      simp only [State.isFinal, henc, decide_eq_true_eq] at hfinal
      by_cases h1 : i.opByte = 0x01
      · rw [if_pos h1] at hfinal ⊢
        exact eq_of_beq hfinal
      · rw [if_neg h1] at hfinal ⊢
        exact eq_of_beq hfinal

/-- The declared key has the number of rounds that its length names (rule R115). -/
theorem nrOf_key {s : State} (h : keyLengthLegal s.KLEN = true) :
    nrOf s.key.length = some s.declaredNr ∧ 1 ≤ s.declaredNr ∧ s.declaredNr ≤ 14 := by
  have hlen := (keyLengthLegal_iff _).1 h
  rw [key_length (by omega)]
  exact ⟨nrOf_of_legal _ h, by simp [State.declaredNr], by simp only [State.declaredNr, nkOf]; omega⟩

/-- Settles O45: the run keeps on its course to the cipher of the input block, whose round keys are those of the forward
schedule in `W`. -/
theorem encComputesTheCipher : Obligations.EncComputesTheCipher := by
  unfold Obligations.EncComputesTheCipher
  intro s hs hl
  obtain ⟨t, hexec, hrun, hcompl, hout, hsched, hround, hdout, hS⟩ :=
    cipherCommand_completes (i := .enc) rfl (.inl rfl) hs hl
  obtain ⟨ws, hws, hagree, hlen⟩ := hcompl.forward hsched
  obtain ⟨hnr, h1, h14⟩ := nrOf_key hl.1
  have hcipher := cipher_eq hnr h1
    (fun r hr => keyMatrix_of_wordsAgree hagree (by omega) (by omega)) hws s.DIN
  rw [State.cipherGoal, isEnc_of_enc hcompl.cmdr, hcompl.nr, hcompl.din] at hS
  rw [← hS, ← hdout] at hcipher
  refine ⟨_, t, t.DOUT, ws, hexec, hrun, hcipher, hws, rfl, hagree, hlen, hcompl.nk, hcompl.nr, ?status, hcompl.err,
    hcompl.phase, hround, hcompl.ki, ?state, hcompl.cmdr, hcompl.keybuf, hcompl.klen, hcompl.din, hcompl.blen⟩
  case status => rw [State.statusByte, hcompl.busy, hcompl.done, hout, hsched]; decide
  case state => rw [hdout, blockToMatrix_matrixToBlock]

/-- Settles O46: the same course in the other direction, with the round keys of the equivalent inverse schedule. -/
theorem decComputesTheInverseCipher : Obligations.DecComputesTheInverseCipher := by
  unfold Obligations.DecComputesTheInverseCipher
  intro s hs hl
  obtain ⟨t, hexec, hrun, hcompl, hout, hsched, hround, hdout, hS⟩ :=
    cipherCommand_completes (i := .dec) rfl (.inr rfl) hs hl
  obtain ⟨ws, hws, hagree, hlen⟩ := hcompl.inverse hsched
  obtain ⟨hnr, h1, h14⟩ := nrOf_key hl.1
  have hcipher := invCipher_eq hnr h1
    (fun r hr => keyMatrix_of_wordsAgree hagree (by omega) (by omega)) hws s.DIN
  rw [State.cipherGoal, isEnc_of_dec hcompl.cmdr, hcompl.nr, hcompl.din] at hS
  rw [← hS, ← hdout] at hcipher
  refine ⟨_, t, t.DOUT, ws, hexec, hrun, hcipher, hws, rfl, hagree, hlen, hcompl.nk, hcompl.nr, ?status, hcompl.err,
    hcompl.phase, hround, hcompl.ki, ?state, hcompl.cmdr, hcompl.keybuf, hcompl.klen, hcompl.din, hcompl.blen⟩
  case status => rw [State.statusByte, hcompl.busy, hcompl.done, hout, hsched]; decide
  case state => rw [hdout, blockToMatrix_matrixToBlock]

end Sys2Proof.Machine

/-! ## O44, O58: the transition table, and what it depends on (rules R77, R159, R160) -/

namespace Sys2Proof.Machine

/-! ### From the issued operation to the update of the sequencing registers -/

theorem issue_of_issuedOp {s : State} {i : Instr} (h : issuedOp s = some i) :
    ∃ w, issue s.PH s.CMDR = some w ∧ decodeWord w = .ok i ∧ i.format = .micro := by
  unfold issuedOp at h
  split at h
  · obtain ⟨w, hw, hd⟩ := Option.bind_eq_some_iff.1 h
    obtain ⟨j, hj, hm⟩ := issue_decodes _ _ _ hw
    rw [hj] at hd
    cases hd
    exact ⟨w, hw, hj, hm⟩
  · cases h

/-- `KLOAD` is issued in its own phase only (rule R77). -/
theorem phase_of_kload {s : State} (h : issuedOp s = some .kload) : s.PH = .kload := by
  obtain ⟨w, hw, hd, -⟩ := issue_of_issuedOp h
  obtain ⟨-, rfl⟩ := (decodeWord_eq_ok_iff w _).1 hd
  cases hp : s.PH with
  | kload => rfl
  | sub | shift | mix =>
    simp only [hp, issue] at hw
    split at hw
    · cases hw
    · split at hw <;> cases hw
  | _ => rw [hp] at hw; cases hw

/-- A micro-operation that has not raised leaves the registers that the transition table reads, but that `KSTEP` counts
`KI` up and `KLOAD` sets `NR` and `KI` (rules R28, R29, R33 to R36). -/
theorem exec_micro_sequencing {i : Instr} {s u : State} (hm : i.format = .micro) (hb : u.BUSY = true)
    (h : exec i s = .next u) :
    u.PH = s.PH ∧ u.CMDR = s.CMDR ∧ u.RND = s.RND ∧ (i ≠ .kload → u.NR = s.NR) := by
  rcases exec_micro_writes hm h with ⟨-, rfl | rfl | rfl⟩ | ⟨rfl, nk, nr, w, ki, rfl⟩ | ⟨-, w, rfl⟩ |
    ⟨-, w, rfl⟩ | ⟨-, b, rfl⟩ | ⟨-, m, rfl⟩
  case inr.inl => exact ⟨rfl, rfl, rfl, fun hne => absurd rfl hne⟩
  case inl.inr.inl => cases hb
  case inl.inr.inr => cases hb
  all_goals exact ⟨rfl, rfl, rfl, fun _ => rfl⟩

theorem isEnc_eq (s : State) : s.isEnc = decide (s.CMDR = 0x01) := rfl

/-- The last round, for the two commands that have rounds (rule R159). -/
theorem isFinal_of_last {s : State} (h : (s.CMDR = 0x01 ∧ s.RND = s.NR) ∨ (s.CMDR = 0x02 ∧ s.RND = 0)) :
    s.isFinal = true := by
  rcases h with ⟨hc, hr⟩ | ⟨hc, hr⟩
  · simp [State.isFinal, isEnc_of_enc hc, hr]
  · simp [State.isFinal, isEnc_of_dec hc, hr]

theorem isFinal_of_not_last {s : State} (h : (s.CMDR = 0x01 ∧ s.RND ≠ s.NR) ∨ (s.CMDR = 0x02 ∧ s.RND ≠ 0)) :
    s.isFinal = false := by
  rcases h with ⟨hc, hr⟩ | ⟨hc, hr⟩
  · simpa [State.isFinal, isEnc_of_enc hc] using hr
  · simpa [State.isFinal, isEnc_of_dec hc] using hr

/-- Settles O44: the step is `advance` of what the micro-operation leaves, read phase by phase. -/
theorem transitionTableNamesTheNextPhase : Obligations.TransitionTableNamesTheNextPhase := by
  unfold Obligations.TransitionTableNamesTheNextPhase
  intro s u i hb ht hr hop hu hbu
  obtain ⟨w, hw, hd, hm⟩ := issue_of_issuedOp hop
  have hstep : step s = .next (advance u) := (step_no_turn s ht).trans (coreTurn_of s u w i hb hr hw hd hu)
  obtain ⟨hph, hcmd, hrnd, hnr'⟩ := exec_micro_sequencing hm hbu hu
  have hnr : s.PH ≠ .kload → u.NR = s.NR := fun hp => hnr' fun hi => hp (phase_of_kload (hi ▸ hop))
  rw [hstep, ← hcmd, ← hrnd, ← hph]
  rw [← hph] at hnr
  refine ⟨?check, ?kload, ?kexpLast, ?kexpMore, ?kinvLast, ?kinvMore, ?load, ?ark0, ?sub, ?shift, ?mix, ?ark,
    ?store⟩ <;> intro hp
  case check | kload | sub | mix => simp only [advance, hp]
  case kexpLast =>
    intro hk
    rw [advance_kexp_last u hp hk]
    refine ⟨fun hc => by rw [if_pos hc]; rfl, fun hc => by simp [hc], ?_⟩
    rintro (hc | hc) <;> simp [hc]
  case kexpMore =>
    intro hk
    rw [advance_kexp_more u hp hk]
  case kinvLast =>
    intro hlast
    rw [advance_kinv_last u hp (by rw [hlast, hnr (by simp [hp])])]
    exact ⟨fun hc => by rw [if_pos hc]; rfl, fun hc => by simp [hc]⟩
  case kinvMore =>
    intro hmore
    rw [advance_kinv_more u hp (by rwa [hnr (by simp [hp])])]
  case load | ark0 => simp only [advance, hp, hnr (by simp [hp]), isEnc_eq, decide_eq_true_eq]
  case shift =>
    rw [← hnr (by simp [hp])]
    exact ⟨fun h => by simp only [advance, hp, isFinal_of_last h, if_true],
      fun h => by simp only [advance, hp, isFinal_of_not_last h, Bool.false_eq_true, if_false]⟩
  case ark =>
    rw [← hnr (by simp [hp])]
    refine ⟨fun h => ?_, fun h => ?_, fun h => ?_⟩
    · simp only [advance, hp, isFinal_of_last h, if_true]
    · simp only [advance, hp, isFinal_of_not_last (.inl h), isEnc_of_enc h.1, Bool.false_eq_true, if_false, if_true]
    · simp only [advance, hp, isFinal_of_not_last (.inr h), isEnc_of_dec h.1, Bool.false_eq_true, if_false]
  case store => simp only [advance, hp, finish, isEnc_eq, decide_eq_true_eq]

/-! ### The data registers decide nothing (rule R159) -/

/-- The state with the data registers, the lines and the received bytes of `d`. -/
def withData (d s : State) : State :=
  { s with
    KEYBUF := d.KEYBUF, DIN := d.DIN, DOUT := d.DOUT, S := d.S, W := d.W, unitByteIn := d.unitByteIn,
    unitWordIn := d.unitWordIn, unitOut := d.unitOut, received := d.received }

@[simp] theorem withData_PH (d s : State) : (withData d s).PH = s.PH := rfl

theorem sameControl_withData (d s : State) : sameControl s (withData d s) :=
  ⟨rfl, rfl, rfl, rfl, rfl, rfl, rfl, rfl, rfl, rfl, rfl, rfl, rfl, rfl⟩

/-- States that agree on the control registers differ in their data registers only. -/
theorem eq_withData_of_sameControl {s t : State} (h : sameControl s t) : t = withData t s := by
  obtain ⟨h1, h2, h3, h4, h5, h6, h7, h8, h9, h10, h11, h12, h13, h14⟩ := h
  rw [withData, h1, h2, h3, h4, h5, h6, h7, h8, h9, h10, h11, h12, h13, h14]

theorem sameControl_of_eq {s t : State} (h : t = withData t s) : sameControl s t := by
  rw [h]
  exact sameControl_withData t s

theorem sameControl_iff {s t : State} : sameControl s t ↔ ∃ d, t = withData d s :=
  ⟨fun h => ⟨t, eq_withData_of_sameControl h⟩, fun ⟨d, h⟩ => h ▸ sameControl_withData d s⟩

theorem advance_withData (d u : State) : advance (withData d u) = withData d (advance u) := by
  cases h : u.PH <;> simp only [advance, withData_PH, h, apply_ite (withData d)] <;> rfl

/-- A host write other than to `CMD` and the lengths stores data only (rule R54). -/
theorem memWrite_data (a : Addr) (v : Byte) (s : State) (h0 : a ≠ 0x000) (h3 : a ≠ 0x003) (h4 : a ≠ 0x004) :
    memWrite a v s = withData (memWrite a v s) s := by
  rcases memWrite_cases a v s with h | ⟨-, ha, -⟩ | ⟨-, ha, -⟩ | ⟨-, ha, -⟩ | ⟨-, i, -, h⟩ | ⟨-, i, -, h⟩
  case inr.inl => exact absurd ha h0
  case inr.inr.inl => exact absurd ha h3
  case inr.inr.inr.inl => exact absurd ha h4
  all_goals
    rw [h]
    rfl

/-- A host write does the same to the control registers whatever the data. -/
theorem memWrite_sameControl (a : Addr) (v : Byte) (d s : State) :
    sameControl (memWrite a v s) (memWrite a v (withData d s)) := by
  cases hb : s.BUSY with
  | true =>
    rw [memWrite_busy a v s hb, memWrite_busy a v (withData d s) hb]
    exact sameControl_withData d s
  | false =>
    by_cases h0 : a = 0x000
    · subst h0
      rw [memWrite_cmd v s hb, memWrite_cmd v (withData d s) hb]
      cases hv : commandLegal v with
      | true =>
        rw [accept_of_legal v _ hv, accept_of_legal v _ hv]
        exact sameControl_of_eq rfl
      | false =>
        rw [accept_of_illegal v _ hv, accept_of_illegal v _ hv]
        exact sameControl_of_eq rfl
    by_cases h3 : a = 0x003
    · subst h3
      rw [memWrite_klen v s hb, memWrite_klen v (withData d s) hb]
      exact sameControl_of_eq rfl
    by_cases h4 : a = 0x004
    · subst h4
      rw [memWrite_blen v s hb, memWrite_blen v (withData d s) hb]
      exact sameControl_of_eq rfl
    · rw [memWrite_data a v s h0 h3 h4, memWrite_data a v (withData d s) h0 h3 h4]
      exact sameControl_of_eq rfl

/-- No operation but a command lets the data decide what becomes of the control registers, or whether it answers. -/
theorem exec_sameControl {i : Instr} {s u : State} (d : State) (hf : i.format ≠ .command) (h : exec i s = .next u) :
    ∃ u', exec i (withData d s) = .next u' ∧ sameControl u u' := by
  cases i
  case chk =>
    cases hc : checkError s with
    | none =>
      rw [exec_chk_pass s hc] at h; cases h
      exact ⟨_, exec_chk_pass (withData d s) hc, sameControl_withData d s⟩
    | some e =>
      rw [exec_chk_raise s e hc] at h; cases h
      exact ⟨_, exec_chk_raise (withData d s) e hc, sameControl_of_eq rfl⟩
  case kload =>
    cases hk : keyLengthLegal s.KLEN
    · rw [exec_kload_refused s hk] at h; cases h
    · rw [exec_kload s hk] at h; cases h
      exact ⟨_, exec_kload (withData d s) hk, sameControl_of_eq rfl⟩
  case kstep =>
    by_cases hk : kstepDefined s
    · obtain ⟨x, -, hx⟩ := exec_kstep_defined s hk
      obtain ⟨x', -, hx'⟩ := exec_kstep_defined (withData d s) hk
      rw [hx] at h; cases h
      exact ⟨_, hx', sameControl_of_eq rfl⟩
    · rw [exec_kstep_refused s hk] at h; cases h
  case kinvr =>
    by_cases hr : s.RND.toNat < 15
    · obtain ⟨w, -, he⟩ := exec_kinvr s hr
      obtain ⟨w', -, he'⟩ := exec_kinvr (withData d s) hr
      rw [he] at h; cases h
      exact ⟨_, he', sameControl_of_eq rfl⟩
    · rw [exec_kinvr_refused s hr] at h; cases h
  case ark =>
    by_cases hr : s.RND.toNat < 15
    · rw [exec_ark s hr] at h; cases h
      exact ⟨_, exec_ark (withData d s) hr, sameControl_of_eq rfl⟩
    · rw [exec_ark_refused s hr] at h; cases h
  case mixc => rw [exec_mixc] at h; cases h; exact ⟨_, exec_mixc _, sameControl_of_eq rfl⟩
  case imixc => rw [exec_imixc] at h; cases h; exact ⟨_, exec_imixc _, sameControl_of_eq rfl⟩
  case gfmul k =>
    cases hk : supportedMultipliers.contains k
    · rw [exec_gfmul_unsupported k s hk] at h; cases h
      exact ⟨_, exec_gfmul_unsupported k _ hk, sameControl_of_eq rfl⟩
    · rw [exec_gfmul_supported k s hk] at h; cases h
      exact ⟨_, exec_gfmul_supported k _ hk, sameControl_of_eq rfl⟩
  case rcon j =>
    by_cases hj : j.toNat < 14
    · rw [exec_rcon j s hj] at h; cases h
      exact ⟨_, exec_rcon j _ hj, sameControl_of_eq rfl⟩
    · rw [exec_rcon_refused s j hj] at h; cases h
  case enc | dec | kexp | kexpi => exact absurd rfl hf
  all_goals
    cases h
    exact ⟨_, rfl, sameControl_of_eq rfl⟩

theorem coreStep_sameControl {s t : State} (d : State) (h : coreStep s = .next t) :
    ∃ t', coreStep (withData d s) = .next t' ∧ sameControl t t' := by
  obtain ⟨hr, w, i, u, hw, hd, hm, hu, rfl⟩ := coreStep_next_cases s t h
  obtain ⟨u', hu', hsame⟩ := exec_sameControl d (by rw [hm]; decide) hu
  obtain ⟨d', rfl⟩ := sameControl_iff.1 hsame
  refine ⟨_, coreStep_of (withData d s) _ w i hr hw hd hu', ?_⟩
  rw [advance_withData]
  exact sameControl_withData d' _

theorem coreTurn_sameControl {s t : State} (d : State) (h : coreTurn s = .next t) :
    ∃ t', coreTurn (withData d s) = .next t' ∧ sameControl t t' := by
  cases hb : s.BUSY with
  | true =>
    rw [coreTurn_busy s hb] at h
    rw [coreTurn_busy (withData d s) hb]
    exact coreStep_sameControl d h
  | false =>
    rw [coreTurn_idle s hb] at h
    cases h
    exact ⟨_, coreTurn_idle (withData d s) hb, sameControl_withData d s⟩

/-- A function-unit turn that answers executes a format F operation on its inputs (rule R73). -/
theorem unitTurn_next {w : OpWord} {b : Byte} {x : Word} {s t : State} (h : unitTurn w b x s = .next t) :
    ∃ i, decodeWord w = .ok i ∧ i.format = .unit ∧ exec i { s with unitByteIn := b, unitWordIn := x } = .next t := by
  unfold unitTurn at h
  split at h
  · rename_i i hi
    split at h
    · rename_i hf
      exact ⟨i, hi, hf, h⟩
    · cases h
  · cases h

theorem hostWaitTurn_busy (s : State) (h : s.BUSY = true) :
    hostWaitTurn s = .next (receive s.statusByte { s with turns := .core :: .hostWait :: s.turns }) := by
  simp only [hostWaitTurn, memRead_status, statusByte_busy, h, if_true]

theorem hostWaitTurn_idle (s : State) (h : s.BUSY = false) :
    hostWaitTurn s = .next (receive s.statusByte s) := by
  simp only [hostWaitTurn, memRead_status, statusByte_busy, h, Bool.false_eq_true, if_false]

/-- A turn does the same to the control registers whatever the data. -/
theorem takeTurn_sameControl (tn : Turn) {s t : State} (d : State) (h : takeTurn tn s = .next t) :
    ∃ t', takeTurn tn (withData d s) = .next t' ∧ sameControl t t' := by
  cases tn with
  | hostWrite a v =>
    rw [takeTurn, hostWriteTurn_eq] at h
    cases h
    exact ⟨_, hostWriteTurn_eq a v _, memWrite_sameControl a v d s⟩
  | hostRead a => cases h; exact ⟨_, rfl, sameControl_of_eq rfl⟩
  | hostReset => cases h; exact ⟨_, rfl, sameControl_of_eq rfl⟩
  | hostWait =>
    cases hb : s.BUSY with
    | true =>
      rw [takeTurn, hostWaitTurn_busy s hb] at h
      cases h
      exact ⟨_, hostWaitTurn_busy (withData d s) hb, sameControl_of_eq rfl⟩
    | false =>
      rw [takeTurn, hostWaitTurn_idle s hb] at h
      cases h
      exact ⟨_, hostWaitTurn_idle (withData d s) hb, sameControl_of_eq rfl⟩
  | core => exact coreTurn_sameControl d h
  | unit w b x =>
    obtain ⟨i, hi, hf, he⟩ := unitTurn_next h
    obtain ⟨t', ht', hsame⟩ :=
      exec_sameControl { d with unitByteIn := b, unitWordIn := x } (by rw [hf]; decide) he
    exact ⟨t', (unitTurn_of_unit w b x i (withData d s) hi hf).trans ht', hsame⟩

/-- Settles O58: every kind of turn acts on the control registers without reading the data. -/
theorem controlFlowIgnoresKeyAndBlockContents : Obligations.ControlFlowIgnoresKeyAndBlockContents := by
  unfold Obligations.ControlFlowIgnoresKeyAndBlockContents
  intro s s' t hsame h
  obtain ⟨d, rfl⟩ := sameControl_iff.1 hsame
  cases ht : s.turns with
  | nil =>
    rw [step_no_turn s ht] at h
    rw [step_no_turn (withData d s) ht]
    exact coreTurn_sameControl d h
  | cons tn rest =>
    rw [step_next_turn s tn rest ht] at h
    rw [step_next_turn (withData d s) tn rest ht]
    exact takeTurn_sameControl tn (s := { s with turns := rest }) d h

end Sys2Proof.Machine

/-! ## O18, O20, O21: taking an error, and how long it stays (rules R154, R173, R176 to R183) -/

namespace Sys2Proof.Machine

/-! ### The error entry (rules R176, R178) -/

/-- What the host sees of an error: `STATUS` shows `DONE` alone, `ERR` the code, and no result (rules R31, R176). -/
theorem errorEntry_visible (e : ErrCode) (s : State) :
    memRead 0x001 (errorEntry e s) = 0x02 ∧ memRead 0x002 (errorEntry e s) = e.code ∧
      (errorEntry e s).resultsHidden := by
  refine ⟨?status, memRead_err _, resultsHidden_of_gates rfl rfl⟩
  rw [memRead_status, State.statusByte, errorEntry_SCHED, errorEntry_OUT_VALID, errorEntry_DONE, errorEntry_BUSY]
  decide

theorem commandLegal_eq_false_iff (v : Byte) : commandLegal v = false ↔ v ∉ [0x01, 0x02, 0x03, 0x04] := by
  rw [← Bool.not_eq_true, commandLegal_iff]
  simp

/-- The clearing with which acceptance begins leaves no trace in an error: the error entry sets what it cleared. -/
theorem memWrite_cmd_illegal {v : Byte} {s : State} (hb : s.BUSY = false) (hv : commandLegal v = false) :
    memWrite 0x000 v s = errorEntry .illegalCommand s := by
  rw [memWrite_cmd v s hb, accept_of_illegal v s hv]
  rfl

/-- Settles O18: the write is the error entry, and the host sees that error. -/
theorem illegalCommandByteEntersTheError : Obligations.IllegalCommandByteEntersTheError := by
  unfold Obligations.IllegalCommandByteEntersTheError
  intro s v rest hb ht hv
  have hentry : step s = .next (errorEntry .illegalCommand { s with turns := rest }) := by
    rw [step_hostWrite s _ v rest ht]
    exact congrArg _ (memWrite_cmd_illegal (s := { s with turns := rest }) hb ((commandLegal_eq_false_iff v).2 hv))
  exact ⟨_, hentry, rfl, errorEntry_visible .illegalCommand _⟩

/-! ### The raise of `CHK` (rules R116, R180) -/

theorem checkError_code {s : State} {e : ErrCode} (h : checkError s = some e) : e.code = 1 ∨ e.code = 2 := by
  rcases checkError_cases s with ⟨hc, -⟩ | ⟨hc, -⟩ | ⟨hc, -⟩ <;> rw [hc] at h <;> cases h
  · exact .inl rfl
  · exact .inr rfl

/-- `CHK` alone, of the micro-operations and the function unit's operations, changes `ERR`, by the error entry. -/
theorem exec_raises {i : Instr} {s t : State} (hf : i.format ≠ .command) (h : exec i s = .next t)
    (hne : t.ERR ≠ s.ERR) : i = .chk ∧ ∃ e, checkError s = some e ∧ t = errorEntry e s := by
  rcases exec_next_cases i s t h with ⟨hc, -⟩ | hraise | ⟨-, ht⟩ | ⟨-, ht⟩
  · exact absurd hc hf
  · exact hraise
  · exact absurd (by rw [ht]) hne
  · exact absurd (by rw [ht]) hne

/-- `CHK` is issued in its own phase only (rule R77). -/
theorem phase_of_issue_chk {ph : Phase} {c : Byte} {w : OpWord} (hw : issue ph c = some w)
    (hd : decodeWord w = .ok .chk) : ph = .check := by
  obtain ⟨-, rfl⟩ := (decodeWord_eq_ok_iff w _).1 hd
  cases ph with
  | check => rfl
  | sub | shift | mix =>
    simp only [issue] at hw
    split at hw
    · cases hw
    · split at hw <;> cases hw
  | _ => cases hw

/-- A core step changes `ERR` in phase `CHECK` only, by the raise of `CHK`. -/
theorem coreStep_raises {s t : State} (h : coreStep s = .next t) (hne : t.ERR ≠ s.ERR) :
    s.PH = .check ∧ ∃ e, checkError s = some e ∧ t = errorEntry e s := by
  obtain ⟨-, w, i, u, hw, hd, hm, hu, rfl⟩ := coreStep_next_cases s t h
  rw [advance_ERR] at hne
  obtain ⟨rfl, e, he, rfl⟩ := exec_raises (by rw [hm]; decide) hu hne
  exact ⟨phase_of_issue_chk hw hd, e, he, advance_idle _ rfl⟩

/-! ### The raise of a matrix product (rules R95, R143, R177) -/

/-- A matrix with an unsupported constant has no product with any vector, so the first column already fails. -/
theorem mixColumns_unsupported {m : Mat} (h : ∃ r c : Fin 4, supportedMultipliers.contains m[r][c] = false) (s : Mat) :
    mixColumns s m = none := by
  simp [mixColumns, (mixColumn_eq_none_iff _ m).2 h]

theorem convertRoundKey_unsupported {m : Mat} (h : ∃ r c : Fin 4, supportedMultipliers.contains m[r][c] = false)
    (w : Vector Word 60) (r : Nat) (hr : r < 15) : convertRoundKey w r hr m = none := by
  simp [convertRoundKey, (mixColumn_eq_none_iff _ m).2 h]

/-- Settles O20: each place that raises answers the error entry of the state it found. -/
theorem everyRaiseIsTheErrorEntry : Obligations.EveryRaiseIsTheErrorEntry := by
  unfold Obligations.EveryRaiseIsTheErrorEntry
  refine ⟨fun e s => ⟨rfl, errorEntry_visible e s⟩, ?command, ?operation, ?matrix, ?checkStep⟩
  case command =>
    intro s v hb hv
    exact memWrite_cmd_illegal hb ((commandLegal_eq_false_iff v).2 hv)
  case operation =>
    intro i s t h hne hf
    obtain ⟨hi, e, he, rfl⟩ := exec_raises hf h hne
    exact ⟨hi, rfl, checkError_code he⟩
  case matrix =>
    intro m s hm
    simp only [← contains_supported_eq_false_iff] at hm
    refine ⟨by rw [mixState, mixColumns_unsupported hm], fun hr => ?_⟩
    rw [convertState, dif_pos (Nat.lt_succ_of_le hr), convertRoundKey_unsupported hm]
  case checkStep =>
    intro s t _ hb ht h hne
    rw [step_no_turn s ht, coreTurn_busy s hb] at h
    obtain ⟨-, e, -, rfl⟩ := coreStep_raises h hne
    rfl

/-! ### How long an error stays (rules R180, R182, R183) -/

/-- A write other than to `CMD` leaves `ERR`, `DONE` and `BUSY` alone (rules R54, R182). -/
theorem memWrite_keeps_error (a : Addr) (v : Byte) (s : State) (h0 : a ≠ 0x000) :
    (memWrite a v s).ERR = s.ERR ∧ (memWrite a v s).DONE = s.DONE ∧ (memWrite a v s).BUSY = s.BUSY := by
  rcases memWrite_cases a v s with h | ⟨-, ha, -⟩ | ⟨-, -, h⟩ | ⟨-, -, h⟩ | ⟨-, _, -, h⟩ | ⟨-, _, -, h⟩
  case inr.inl => exact absurd ha h0
  all_goals
    rw [h]
    exact ⟨rfl, rfl, rfl⟩

/-- From an idle core only a write to `CMD` and a reset change `ERR` and `DONE` (rule R182). -/
theorem step_keeps_error {s t : State} (h : step s = .next t) (hb : s.BUSY = false)
    (hreset : ∀ rest, s.turns ≠ .hostReset :: rest) (hcmd : ∀ v rest, s.turns ≠ .hostWrite 0x000 v :: rest) :
    t.ERR = s.ERR ∧ t.DONE = s.DONE ∧ t.BUSY = s.BUSY := by
  rcases step_next_cases s t h with ⟨a, v, rest, ht, rfl⟩ | ⟨a, rest, -, rfl⟩ | ⟨rest, ht, -⟩ |
    ⟨rest, ts, -, rfl, -⟩ | ⟨rest, -, ⟨hbusy, -⟩ | ⟨-, rfl⟩⟩ | ⟨w, b, x, rest, i, -, -, hf, he⟩
  case inl =>
    have h0 : a ≠ 0x000 := by rintro rfl; exact hcmd v rest ht
    exact memWrite_keeps_error a v { s with turns := rest } h0
  case inr.inr.inl => exact absurd ht (hreset rest)
  case inr.inr.inr.inr.inl.inl => rw [hb] at hbusy; cases hbusy
  case inr.inr.inr.inr.inr =>
    rw [exec_unit_frame hf he]
    exact ⟨rfl, rfl, rfl⟩
  all_goals exact ⟨rfl, rfl, rfl⟩

/-- A host write enters an error only as an illegal command byte that reaches an idle core (rules R178, R183). -/
theorem memWrite_raises {a : Addr} {v : Byte} {s : State} (hne : (memWrite a v s).ERR ≠ s.ERR)
    (herr : (memWrite a v s).ERR ≠ .none) :
    s.BUSY = false ∧ a = 0x000 ∧ commandLegal v = false ∧ memWrite a v s = errorEntry .illegalCommand s := by
  have h0 : a = 0x000 := by
    by_contra h0
    exact hne (memWrite_keeps_error a v s h0).1
  subst h0
  cases hb : s.BUSY with
  | true => exact absurd (by rw [memWrite_busy _ v s hb]) hne
  | false =>
    cases hv : commandLegal v with
    | true => exact absurd (by rw [memWrite_cmd v s hb, accept_ERR, if_pos hv]) herr
    | false => exact ⟨rfl, rfl, rfl, memWrite_cmd_illegal hb hv⟩

/-- The steps that enter an error: the write of an illegal command byte to an idle core, and the raise of `CHK` in a
running command. -/
inductive Raises (s : State) : State → Prop
  | command (v : Byte) (rest : List Turn) (hb : s.BUSY = false) (ht : s.turns = .hostWrite 0x000 v :: rest)
      (hv : commandLegal v = false) : Raises s (errorEntry .illegalCommand { s with turns := rest })
  | check (e : ErrCode) (rest : List Turn) (hb : s.BUSY = true) (hp : s.PH = .check) (he : checkError s = some e) :
      Raises s (errorEntry e { s with turns := rest })

/-- Every step that changes `ERR` to an error code is one of these (rules R180, R183). -/
theorem raises_of_step {s t : State} (h : step s = .next t) (hne : t.ERR ≠ s.ERR) (herr : t.ERR ≠ .none) :
    Raises s t := by
  rcases step_next_cases s t h with ⟨a, v, rest, ht, rfl⟩ | ⟨a, rest, -, rfl⟩ | ⟨rest, -, rfl⟩ |
    ⟨rest, ts, -, rfl, -⟩ | ⟨rest, -, ⟨hb, hc⟩ | ⟨-, rfl⟩⟩ | ⟨w, b, x, rest, i, -, -, hf, he⟩
  case inl =>
    obtain ⟨hb, rfl, hv, hentry⟩ := memWrite_raises (s := { s with turns := rest }) hne herr
    rw [hentry]
    exact .command v rest hb ht hv
  case inr.inr.inl => exact absurd rfl herr
  case inr.inr.inr.inr.inl.inl =>
    obtain ⟨hp, e, he, rfl⟩ := coreStep_raises (s := { s with turns := rest }) hc hne
    exact .check e rest hb hp he
  case inr.inr.inr.inr.inr => exact absurd (by rw [exec_unit_frame hf he]) hne
  all_goals exact absurd rfl hne

/-- Settles O21: an idle core's other turns keep the error, and a step that enters one is one of the two raises. -/
theorem errorStaysUntilTheNextCommand : Obligations.ErrorStaysUntilTheNextCommand := by
  unfold Obligations.ErrorStaysUntilTheNextCommand
  intro s t h
  refine ⟨?stays, ?ended, ?source⟩
  case stays =>
    intro hb hreset hcmd
    obtain ⟨herr, hdone, hbusy⟩ := step_keeps_error h hb hreset hcmd
    exact ⟨herr, hdone, hbusy.trans hb⟩
  case ended =>
    intro hne herr
    cases raises_of_step h hne herr with
    | command | check => exact ⟨rfl, rfl⟩
  case source =>
    intro hne herr
    cases raises_of_step h hne herr with
    | command v rest hb ht hv => exact .inl ⟨rfl, hb, v, rest, ht, (commandLegal_eq_false_iff v).1 hv⟩
    | check e rest hb hp he => exact .inr ⟨checkError_code he, hb, hp⟩

end Sys2Proof.Machine

/-! ## O60: several instances side by side (rule R185) -/

namespace Sys2Proof.Machine

/-- A step of instance `k` replaces that instance by its own next state. -/
theorem System.step_eq_next {sys sys' : System} {k : Nat} {s : State} (hk : sys[k]? = some s)
    (h : System.step k sys = .next sys') : ∃ t, Machine.step s = .next t ∧ sys' = sys.set k t := by
  simp only [System.step, hk] at h
  split at h
  · rename_i t ht
    cases h
    exact ⟨t, ht, rfl⟩
  · cases h
  · cases h

/-- Settles O60: replacing one entry of the list of instances leaves its length and the other entries. -/
theorem instancesDoNotInteract : Obligations.InstancesDoNotInteract := by
  unfold Obligations.InstancesDoNotInteract
  intro sys sys' k s hk h
  obtain ⟨t, ht, rfl⟩ := System.step_eq_next hk h
  have hlt : k < sys.length := (List.getElem?_eq_some_iff.1 hk).1
  exact ⟨⟨t, ht, List.getElem?_set_self hlt⟩, List.length_set, fun j hj => List.getElem?_set_ne hj.symm⟩

end Sys2Proof.Machine

/-! ## O8, O14, O15: reset, writes to a busy core, and what a write to `CMD` discards (rules R190, R191, R196, R198) -/

namespace Sys2Proof.Machine

/-- Settles O8: the turn is `resetRegs`, which writes the reset values and leaves an idle core. -/
theorem hostResetFromAnyState : Obligations.HostResetFromAnyState := by
  unfold Obligations.HostResetFromAnyState
  intro s rest ht
  refine ⟨resetRegs { s with turns := rest }, step_next_turn s _ rest ht, ?_⟩
  exact ⟨rfl, rfl, rfl, rfl, rfl, rfl, rfl, rfl, rfl, rfl, rfl, rfl, rfl, rfl, rfl, rfl, rfl, rfl, rfl, rfl,
    coreTurn_idle _ rfl⟩

/-- While `BUSY = 1` a write turn is used up and changes nothing else (rule R196). -/
theorem step_hostWrite_busy {s : State} {a : Addr} {v : Byte} {rest : List Turn} (hb : s.BUSY = true)
    (ht : s.turns = .hostWrite a v :: rest) : step s = .next { s with turns := rest } := by
  rw [step_hostWrite s a v rest ht, memWrite_busy a v { s with turns := rest } hb]

/-- Settles O14: a write and a command both have no effect while `BUSY = 1`. -/
theorem writesWhileBusyAreDropped : Obligations.WritesWhileBusyAreDropped := by
  unfold Obligations.WritesWhileBusyAreDropped
  intro s hb
  refine ⟨fun a v => memWrite_busy a v s hb, fun _ _ _ ht => step_hostWrite_busy hb ht, fun i hi => ?_⟩
  rw [exec_command i s hi, writeCmd_busy _ _ hb]

/-- Settles O15: the write is the acceptance of the byte, which closes both gates whether the byte is legal or not. -/
theorem commandWriteDiscardsResults : Obligations.CommandWriteDiscardsResults := by
  unfold Obligations.CommandWriteDiscardsResults
  intro s v rest hb ht
  refine ⟨accept v { s with turns := rest }, ?step, ?hidden, accept_OUT_VALID v _, accept_SCHED v _, accept_NK v _,
    accept_NR v _⟩
  case step => rw [step_hostWrite s _ v rest ht, memWrite_cmd v { s with turns := rest } hb]
  case hidden => exact resultsHidden_of_gates (accept_OUT_VALID v _) (accept_SCHED v _)

end Sys2Proof.Machine

/-! ## O55, O57: progress, and the interleaving of host and core (rules R15, R53, R196, R201, R203) -/

namespace Sys2Proof.Machine

/-! ### Which turns always have an outcome (rule R203) -/

theorem coreTurn_enabled {s : State} (hi : Inv s) : ∃ t, coreTurn s = .next t := by
  cases hb : s.BUSY with
  | true =>
    rw [coreTurn_busy s hb]
    exact coreStep_enabled hi hb
  | false => exact ⟨s, coreTurn_idle s hb⟩

theorem hostWaitTurn_enabled (s : State) : ∃ t, hostWaitTurn s = .next t := by
  cases hb : s.BUSY with
  | true => exact ⟨_, hostWaitTurn_busy s hb⟩
  | false => exact ⟨_, hostWaitTurn_idle s hb⟩

/-- Settles O55: the host's turns always answer, and the core's turn does because a busy core with the invariant has a
step. -/
theorem busyCoreAlwaysHasAStep : Obligations.BusyCoreAlwaysHasAStep := by
  unfold Obligations.BusyCoreAlwaysHasAStep
  refine fun s hi => ⟨coreStep_enabled hi, fun hunit => ?_⟩
  cases ht : s.turns with
  | nil =>
    rw [step_no_turn s ht]
    exact coreTurn_enabled hi
  | cons tn rest =>
    rw [step_next_turn s tn rest ht]
    cases tn with
    | hostWrite a v => exact ⟨_, hostWriteTurn_eq a v _⟩
    | hostRead a => exact ⟨_, rfl⟩
    | hostReset => exact ⟨_, rfl⟩
    | hostWait => exact hostWaitTurn_enabled _
    | core => exact coreTurn_enabled (hi.of_data rfl)
    | unit w b x => exact absurd ht (hunit w b x rest)

/-! ### The core does not see the host's turns and what the host has read -/

/-- The state with other turns to come and other bytes received. -/
def withHost (ts : List Turn) (bs : List Byte) (s : State) : State := { s with turns := ts, received := bs }

@[simp] theorem withHost_PH (ts : List Turn) (bs : List Byte) (s : State) : (withHost ts bs s).PH = s.PH := rfl

/-- States with the same registers differ in the host's data only. -/
theorem sameRegisters.eq_withHost {s t : State} (h : sameRegisters s t) : s = withHost s.turns s.received t := by
  have hs : withHost [] [] s = withHost [] [] t := h
  exact (congrArg (withHost s.turns s.received) hs :)

theorem sameRegisters_withHost (ts : List Turn) (bs : List Byte) (s : State) : sameRegisters (withHost ts bs s) s := rfl

theorem sameRegisters.busy_eq {s t : State} (h : sameRegisters s t) : s.BUSY = t.BUSY := by
  rw [h.eq_withHost]
  rfl

/-- The function on the next state, if there is one. -/
def mapNext (f : State → State) : Out → Out
  | .next s => .next (f s)
  | .fault e => .fault e
  | .refused r => .refused r

theorem checkError_withHost (ts : List Turn) (bs : List Byte) (s : State) :
    checkError (withHost ts bs s) = checkError s := rfl

theorem nextWord_withHost (ts : List Turn) (bs : List Byte) (s : State) :
    nextWord (withHost ts bs s) = nextWord s := rfl

/-- No micro-operation reads the host's data: each case names the value that decides its outcome. -/
theorem exec_withHost {i : Instr} (ts : List Turn) (bs : List Byte) (s : State) (hm : i.format = .micro) :
    exec i (withHost ts bs s) = mapNext (withHost ts bs) (exec i s) := by
  cases i
  case chk =>
    simp only [exec, execChk, checkError_withHost]
    cases checkError s <;> rfl
  case kload =>
    simp only [exec, execKload, withHost]
    cases nrOf s.KLEN.toNat <;> rfl
  case kstep =>
    simp only [exec, execKstep, nextWord_withHost]
    cases nextWord s <;> rfl
  case kinvr =>
    by_cases hr : s.RND.toNat < 15
    · obtain ⟨w, hw, he⟩ := exec_kinvr s hr
      obtain ⟨w', hw', he'⟩ := exec_kinvr (withHost ts bs s) hr
      obtain rfl : w = w' := Option.some.inj (hw.symm.trans hw')
      rw [he, he']
      rfl
    · rw [exec_kinvr_refused s hr, exec_kinvr_refused (withHost ts bs s) hr]
      rfl
  case ark =>
    by_cases hr : s.RND.toNat < 15
    · rw [exec_ark s hr, exec_ark (withHost ts bs s) hr]
      rfl
    · rw [exec_ark_refused s hr, exec_ark_refused (withHost ts bs s) hr]
      rfl
  case mixc => rw [exec_mixc, exec_mixc]; rfl
  case imixc => rw [exec_imixc, exec_imixc]; rfl
  case ldst | stst | subb | isubb | shrow | ishrow => rfl
  all_goals cases hm

/-- The sequencer's update does not read the host's data. -/
theorem advance_withHost (ts : List Turn) (bs : List Byte) (u : State) :
    advance (withHost ts bs u) = withHost ts bs (advance u) := by
  cases h : u.PH <;> simp only [advance, withHost_PH, h, apply_ite (withHost ts bs)] <;> rfl

theorem coreStep_withHost {s t : State} (ts : List Turn) (bs : List Byte) (h : coreStep s = .next t) :
    coreStep (withHost ts bs s) = .next (withHost ts bs t) := by
  obtain ⟨hr, w, i, u, hw, hd, hm, hu, rfl⟩ := coreStep_next_cases s t h
  rw [← advance_withHost]
  exact coreStep_of (withHost ts bs s) _ w i hr hw hd (by rw [exec_withHost ts bs s hm, hu]; rfl)

/-- Cores with the same registers take the same step (rule R15). -/
theorem coreStep_sameRegisters {s c c' : State} (h : sameRegisters s c) (hc : coreStep c = .next c') :
    ∃ s', coreStep s = .next s' ∧ sameRegisters s' c' := by
  rw [h.eq_withHost]
  exact ⟨_, coreStep_withHost _ _ hc, sameRegisters_withHost _ _ c'⟩

/-! ### A run through a list of turns -/

theorem run_succ {s t : State} (n : Nat) (h : step s = .next t) : run (n + 1) s = run n t :=
  core_run_of_step Sys2Proof.core n h

/-- A run that answers begins with a step. -/
theorem step_of_run {n : Nat} {s u : State} (h : run (n + 1) s = .next u) :
    ∃ t, step s = .next t ∧ run n t = .next u := by
  cases hs : step s with
  | next t => exact ⟨t, rfl, (run_succ n hs).symm.trans h⟩
  | fault f => cases f
  | refused r => cases (core_run_of_refused Sys2Proof.core n hs).symm.trans h

theorem step_core_busy {s : State} {rest : List Turn} (hb : s.BUSY = true) (ht : s.turns = .core :: rest) :
    step s = coreStep { s with turns := rest } :=
  (step_next_turn s .core rest ht).trans (coreTurn_busy { s with turns := rest } hb)

theorem step_core_idle {s : State} {rest : List Turn} (hb : s.BUSY = false) (ht : s.turns = .core :: rest) :
    step s = .next { s with turns := rest } :=
  (step_next_turn s .core rest ht).trans (coreTurn_idle { s with turns := rest } hb)

/-- Core turns leave an idle core idle (rule R15). -/
theorem run_core_turns_idle {cs : List Turn} (hcs : ∀ tn ∈ cs, tn = .core) {s u : State} (hb : s.BUSY = false)
    (ht : s.turns = cs) (h : run cs.length s = .next u) : u.BUSY = false := by
  induction cs generalizing s with
  | nil => cases h; exact hb
  | cons tn rest ih =>
    obtain ⟨rfl, hrest⟩ := List.forall_mem_cons.1 hcs
    rw [List.length_cons, run_succ _ (step_core_idle hb ht)] at h
    exact ih hrest (s := { s with turns := rest }) hb rfl h

/-- The core's turns among the turns of an interleaving. -/
def coreTurns (ts : List Turn) : List Turn := ts.filter (· == .core)

theorem eq_core_of_mem_coreTurns {ts : List Turn} : ∀ tn ∈ coreTurns ts, tn = .core := fun tn h => by
  simpa using (List.mem_filter.1 h).2

/-- While the core stays busy, the state `s` runs the interleaving `ts` to the registers that `c` reaches by its core
turns alone: a write or a read moves `s` only, a core turn moves both by the same step. -/
theorem run_interleaved {ts : List Turn} (hts : ∀ tn ∈ ts, tn.ordinary = true) {s c u : State}
    (hsame : sameRegisters s c) (hb : s.BUSY = true) (ht : s.turns = ts) (htc : c.turns = coreTurns ts)
    (hrun : run (coreTurns ts).length c = .next u) (hbu : u.BUSY = true) :
    ∃ v, run ts.length s = .next v ∧ sameRegisters v u := by
  induction ts generalizing s c with
  | nil => cases hrun; exact ⟨s, rfl, hsame⟩
  | cons tn rest ih =>
    obtain ⟨htn, hrest⟩ := List.forall_mem_cons.1 hts
    cases tn with
    | hostWrite a v =>
      rw [List.length_cons, run_succ _ (step_hostWrite_busy hb ht)]
      exact ih hrest (s := { s with turns := rest }) hsame hb rfl htc hrun
    | hostRead a =>
      rw [List.length_cons, run_succ _ (step_next_turn s _ rest ht)]
      exact ih hrest (s := receive _ { s with turns := rest }) hsame hb rfl htc hrun
    | core =>
      obtain ⟨c', hc', hrun'⟩ := step_of_run hrun
      rw [step_core_busy (hsame.busy_eq.symm.trans hb) htc] at hc'
      obtain ⟨s', hs', hsame'⟩ :=
        coreStep_sameRegisters (s := { s with turns := rest }) (c := { c with turns := coreTurns rest }) hsame hc'
      have hbc' : c'.BUSY = true := by
        by_contra hidle
        rw [run_core_turns_idle eq_core_of_mem_coreTurns (by simpa using hidle) (coreStep_turns hc') hrun'] at hbu
        cases hbu
      rw [List.length_cons, run_succ _ ((step_core_busy hb ht).trans hs')]
      exact ih hrest hsame' (hsame'.busy_eq.trans hbc') (coreStep_turns hs') (coreStep_turns hc') hrun'
    | hostReset | hostWait | unit w b x => cases htn

/-- Settles O57: writes are dropped and reads change no register, so only the core turns act, on the same registers. -/
theorem interleavingDoesNotChangeTheRun : Obligations.InterleavingDoesNotChangeTheRun := by
  unfold Obligations.InterleavingDoesNotChangeTheRun
  intro s u ts hb ht hts hrun hbu
  exact run_interleaved (c := { s with turns := coreTurns ts }) (List.all_eq_true.1 hts) rfl hb ht rfl hrun hbu

end Sys2Proof.Machine
